-- ==== Sys2Proof/Word.lean ====
section
/-! DEFINITION. The word the ports move (20_memory.md R72) and the binary64 value (00_scope.md R9) as plain data. -/

namespace Sys2Proof

/-- A port word: 64 bits, bit 63 the most significant (20_memory.md R72). -/
abbrev Word := BitVec 64

/-- A byte of a serialised word (20_memory.md R72). -/
abbrev Byte := BitVec 8

/-- A binary64 value, held as its IEEE 754 bit pattern: `F64.mk w` is the spec's `f64(w)` and `F64.bits x`
its `bits64(x)` (00_scope.md R8, R9). A type of its own, so that integer arithmetic never reaches it. -/
structure F64 where
  bits : Word
  deriving DecidableEq, Repr, Inhabited

namespace F64

/-- +0.0 -/
def zero : F64 := ⟨0⟩
/-- 0.5 -/
def half : F64 := ⟨0x3FE0000000000000⟩
/-- 1.0 -/
def one : F64 := ⟨0x3FF0000000000000⟩
/-- 2.0 -/
def two : F64 := ⟨0x4000000000000000⟩
/-- 3.0 -/
def three : F64 := ⟨0x4008000000000000⟩
/-- 1000.0 -/
def thousand : F64 := ⟨0x408F400000000000⟩
/-- -1.0 -/
def negOne : F64 := ⟨0xBFF0000000000000⟩
/-- -2.0 -/
def negTwo : F64 := ⟨0xC000000000000000⟩
/-- PI, the binary64 value nearest π (00_scope.md R10). -/
def pi : F64 := ⟨0x400921FB54442D18⟩
/-- PI_HALF_BOUND, the binary64 value nearest π/2 (00_scope.md R10). It is PI with the exponent one lower. -/
def piHalfBound : F64 := ⟨0x3FF921FB54442D18⟩

end F64

end Sys2Proof
end

