-- ==== Sys2Proof/Config.lean ====
section
/-! DEFINITION. What an instance fixes (00_scope.md R6), the spec's fixed constants, and the free values. -/

namespace Sys2Proof

/-- Where the saturation stands in the FilterStage (00_scope.md R6, 44_filter.md R205). -/
inductive SatPos
  | pre
  | post
  deriving DecidableEq, Repr

/-- The configuration table of 00_scope.md R6, less the transcendental functions. What makes a row
well formed (R7) is `RawConfig.wf` in WellFormed.lean. -/
structure RawConfig where
  /-- NUM_VOICES -/
  numVoices : Nat
  /-- SAMPLE_RATE -/
  sampleRate : F64
  /-- QUANTUM -/
  quantum : Nat
  /-- KERNEL -/
  kernel : Nat
  /-- RB_LEN -/
  rbLen : Nat
  /-- RB_CH -/
  rbCh : Nat
  /-- C_OUT -/
  cOut : Nat
  /-- QCAP -/
  qcap : Nat
  /-- DETUNE_K -/
  detuneK : F64
  /-- FAST_DECAY_S -/
  fastDecay : F64
  /-- SAT_POS -/
  satPos : SatPos
  /-- COMB_DELAY_OFFSET_MS[0..3] -/
  combDelayOffsetMs : Vector F64 4
  /-- COMB_DECAY_OFFSET[0..3] -/
  combDecayOffset : Vector F64 4
  /-- AP_DELAY_MS -/
  apDelayMs : F64
  /-- AP_DECAY -/
  apDecay : F64
  /-- AP_LOOK -/
  apLook : Int
  deriving DecidableEq, Repr

/-- The default column of 00_scope.md R6. Each decimal is written as the nearest binary64's bit pattern. -/
def RawConfig.default : RawConfig where
  numVoices := 8
  sampleRate := ⟨0x40E7700000000000⟩          -- 48000.0
  quantum := 128
  kernel := 8192
  rbLen := 16384
  rbCh := 1
  cOut := 1
  qcap := 4096
  detuneK := ⟨0x3F847AE147AE147B⟩             -- 0.01
  fastDecay := ⟨0x3F747AE147AE147B⟩           -- 0.005
  satPos := .post
  combDelayOffsetMs := #v[⟨0⟩, ⟨0x3FF199999999999A⟩, ⟨0x4002666666666666⟩, ⟨0x400D99999999999A⟩]  -- 0.0 1.1 2.3 3.7
  combDecayOffset := #v[⟨0⟩, ⟨0x3F847AE147AE147B⟩, ⟨0x3F947AE147AE147B⟩, ⟨0x3F9EB851EB851EB8⟩]    -- 0.0 0.01 0.02 0.03
  apDelayMs := ⟨0x40565147AE147AE1⟩           -- 89.27
  apDecay := ⟨0x3FC0C49BA5E353F8⟩             -- 0.131
  apLook := 20

namespace Config

/-- CRUSH_MAX, fixed by the source (00_scope.md R6). -/
def crushMax : Int := 128

/-- AP_STAGES, fixed by the source (00_scope.md R6). -/
def apStages : Nat := 2

/-- The identity value of status register 0 (00_scope.md R1, 10_state.md R46). -/
def idValue : Word := 0x00005354524E0007

/-- The operations that can make a NaN from operands that are none. -/
inductive FloatOp
  | add
  | mul
  | div
  deriving DecidableEq, Repr

/-- FREE VALUE (log 5): the sign bit (bit 51) and the 51 payload bits of the NaN an operation answers with.
00_scope.md R9 takes the IEEE 754 operations, and IEEE 754 leaves both open. -/
opaque freeNaN : FloatOp → F64 → F64 → BitVec 52

/-- FREE VALUE (log 6): `floor` of an infinity or a NaN; 00_scope.md R11 gives `floor` for numbers only. -/
opaque floorNonFinite : F64 → F64

/-- FREE VALUE (log 6): `roundHalfUp` of an infinity or a NaN; 00_scope.md R11 says "for finite x". -/
opaque roundNonFinite : F64 → Int

/-- FREE VALUE (log 4): the number that fixes what QUSED reads as during a drain, within the bounds of
20_memory.md R81. It is applied to the counter `freeIdx` of State. -/
opaque freeQueueRead : Nat → Nat

end Config

end Sys2Proof
end

