-- ==== Sys2Proof/Machine/Float.lean ====
section
/-! DEFINITION. Binary64 arithmetic (00_scope.md R9) and the helper functions of 00_scope.md R11.

A finite value is an exact integer multiple of 2^-1074. Every operation computes the exact rational result in that
unit and rounds once, in `magOfRatio`, to the nearest representable magnitude, ties to even. -/

namespace Sys2Proof.F64

/-- The sign bit, bit 63. -/
def sign (x : F64) : Bool := decide (2 ^ 63 ≤ x.bits.toNat)

/-- Bits 62..0 as a number. Among values of one sign it orders them by magnitude, infinity and NaNs last. -/
def mag (x : F64) : Nat := x.bits.toNat % 2 ^ 63

/-- `mag` of an infinity. -/
def infMag : Nat := 2047 * 2 ^ 52

/-- The value with the given sign bit and bits 62..0. -/
def ofSignMag (s : Bool) (m : Nat) : F64 := ⟨BitVec.ofNat 64 ((if s then 2 ^ 63 else 0) + m)⟩

/-- `isNaN` of 00_scope.md R11. -/
def isNaN (x : F64) : Bool := decide (infMag < x.mag)

/-- An infinity of either sign. -/
def isInf (x : F64) : Bool := decide (x.mag = infMag)

/-- `isFinite` of 00_scope.md R11. -/
def isFinite (x : F64) : Bool := decide (x.mag < infMag)

/-- A zero of either sign. -/
def isZero (x : F64) : Bool := decide (x.mag = 0)

/-- The magnitude of bits 62..0 = `m`, in units of 2^-1074 (subnormals have exponent field 0). -/
def unitsOfMag (m : Nat) : Nat :=
  if m / 2 ^ 52 = 0 then m % 2 ^ 52 else (2 ^ 52 + m % 2 ^ 52) * 2 ^ (m / 2 ^ 52 - 1)

/-- The magnitude of a finite value in units of 2^-1074. -/
def units (x : F64) : Nat := unitsOfMag x.mag

/-- A finite value, exactly, in units of 2^-1074. -/
def signedUnits (x : F64) : Int := if x.sign then -(x.units : Int) else (x.units : Int)

/-- How many units make 1.0. -/
def unit : Nat := 2 ^ 1074

/-- `num / den` units rounded to the nearest multiple of 2^k units, ties to even, in multiples of 2^k. -/
def roundAt (k num den : Nat) : Nat :=
  let d := den * 2 ^ k
  let m := num / d
  let r := num % d
  if 2 * r > d ∨ (2 * r = d ∧ m % 2 = 1) then m + 1 else m

/-- roundTiesToEven of the non-negative rational `num / den` (in units of 2^-1074), as bits 62..0. With `k` the
binade's exponent the 53-bit significand `m` gives exponent field and fraction together as `k * 2^52 + m`, a carry out of the
significand included. A result too large for the format is the infinity. -/
def magOfRatio (num den : Nat) : Nat :=
  let k := Nat.log2 (num / den) - 52
  min (k * 2 ^ 52 + roundAt k num den) infMag

/-- The NaN an operation answers with: quiet, sign and payload free (log 5). -/
def nan (op : Config.FloatOp) (x y : F64) : F64 :=
  let v := Config.freeNaN op x y
  ofSignMag (v.getLsbD 51) (infMag + 2 ^ 51 + v.toNat % 2 ^ 51)

/-- Unary minus flips the sign bit (00_scope.md R9). -/
def neg (x : F64) : F64 := ofSignMag (!x.sign) x.mag

/-- `abs` clears the sign bit (00_scope.md R11). -/
def abs (x : F64) : F64 := ofSignMag false x.mag

/-- IEEE 754 addition, roundTiesToEven. An exact zero sum is +0 unless both operands are negative. -/
def add (x y : F64) : F64 :=
  if x.isNaN || y.isNaN then nan .add x y
  else if x.isInf then (if y.isInf && (x.sign != y.sign) then nan .add x y else x)
  else if y.isInf then y
  else
    let s := x.signedUnits + y.signedUnits
    if s = 0 then ofSignMag (x.sign && y.sign) 0
    else ofSignMag (decide (s < 0)) (magOfRatio s.natAbs 1)

/-- IEEE 754 subtraction: addition of the negated second operand (log 5 for a NaN). -/
def sub (x y : F64) : F64 := add x (neg y)

/-- IEEE 754 multiplication, roundTiesToEven. -/
def mul (x y : F64) : F64 :=
  if x.isNaN || y.isNaN then nan .mul x y
  else if x.isInf || y.isInf then
    (if x.isZero || y.isZero then nan .mul x y else ofSignMag (x.sign != y.sign) infMag)
  else ofSignMag (x.sign != y.sign) (magOfRatio (x.units * y.units) unit)

/-- IEEE 754 division, roundTiesToEven. -/
def div (x y : F64) : F64 :=
  if x.isNaN || y.isNaN then nan .div x y
  else if x.isInf then (if y.isInf then nan .div x y else ofSignMag (x.sign != y.sign) infMag)
  else if y.isInf then ofSignMag (x.sign != y.sign) 0
  else if y.isZero then (if x.isZero then nan .div x y else ofSignMag (x.sign != y.sign) infMag)
  else ofSignMag (x.sign != y.sign) (magOfRatio (x.units * unit) y.units)

/-- Position in the IEEE order of the values that are no NaN: both zeros at 0. -/
def key (x : F64) : Int := if x.sign then -(x.mag : Int) else (x.mag : Int)

/-- IEEE 754 `<`: false with a NaN. -/
def lt (x y : F64) : Bool := !x.isNaN && !y.isNaN && decide (x.key < y.key)

/-- IEEE 754 `≤`: false with a NaN. -/
def le (x y : F64) : Bool := !x.isNaN && !y.isNaN && decide (x.key ≤ y.key)

/-- IEEE 754 `==`: false with a NaN, true of the two zeros. -/
def eq (x y : F64) : Bool := !x.isNaN && !y.isNaN && decide (x.key = y.key)

/-- `toF64(n)`: the nearest binary64 to an integer (00_scope.md R9). -/
def ofNat (n : Nat) : F64 := ofSignMag false (magOfRatio (n * unit) 1)

/-- `floor(x)`: the largest integral binary64 value `≤ x` (00_scope.md R11). A zero is answered with its own sign
(log 7); a value that is not finite gives a free value (log 6). -/
def floor (x : F64) : F64 :=
  if !x.isFinite then Config.floorNonFinite x
  else if x.isZero then x
  else
    let k := x.signedUnits / (unit : Int)
    ofSignMag (decide (k < 0)) (magOfRatio (k.natAbs * unit) 1)

/-- `frac(x)`, the document's `phase mod 1` (00_scope.md R11). -/
def frac (x : F64) : F64 :=
  let t := sub x (floor x)
  if eq t one then zero else t

/-- `clamp(x, lo, hi)` (00_scope.md R11). -/
def clamp (x lo hi : F64) : F64 := if lt x lo then lo else if lt hi x then hi else x

/-- `roundHalfUp(x)`: the nearest integer, ties to the larger, on the exact value (00_scope.md R11). -/
def roundHalfUp (x : F64) : Int :=
  if x.isFinite then (2 * x.signedUnits + (unit : Int)) / (2 * (unit : Int)) else Config.roundNonFinite x

end Sys2Proof.F64
end

