-- ==== Sys2Proof/Syntax.lean ====
section
/-! DEFINITION. The command packets and the render request as syntax (30_encoding.md R104, opcode_table.json). -/

namespace Sys2Proof

/-- The twelve parameters of 41_parameters.md R130, in the order of their ids. -/
inductive ParamId
  | decay
  | shape
  | pulseWidth
  | detuneSpread
  | phaseDrop
  | lpCutoff
  | hpCutoff
  | satGain
  | crushFactor
  | reverbMix
  | reverbDelayMs
  | reverbDecay
  deriving DecidableEq, Repr

/-- The fifteen status registers of 10_state.md R46, in the order of their indices. -/
inductive StatReg
  | id
  | clock
  | cursor
  | nvoices
  | srate
  | quantum
  | kernel
  | rblen
  | cout
  | qcap
  | qused
  | rejects
  | rbiAvail
  | rboAvail
  | nactive
  deriving DecidableEq, Repr

/-- The result codes of 60_exceptions.md R291, in the order of their numbers. -/
inductive Code
  | accepted
  | full
  | badOpcode
  | badReserved
  | badLength
  | badIndex
  | badNote
  deriving DecidableEq, Repr

/-- The instructions: one constructor per row of opcode_table.json. A payload word is any bit pattern (R102). -/
inductive Instr
  /-- NOTEON freq, vel (42_voicebank.md R151) -/
  | noteon (freq vel : F64)
  /-- PARAM, k-rate form (41_parameters.md R132) -/
  | paramK (id : ParamId) (x : F64)
  /-- PARAM, a-rate form, one value per frame (41_parameters.md R133) -/
  | paramA (id : ParamId) (xs : List F64)
  /-- DESC (41_parameters.md R136) -/
  | desc (id : ParamId)
  /-- STAT (41_parameters.md R137) -/
  | stat (n : StatReg)
  /-- RENDER (47_render.md R270) -/
  | render
  deriving DecidableEq, Repr

/-- What an outside agent presents at a port in one transfer (20_memory.md R71, R73). -/
inductive Transfer
  /-- the control port: the words of one packet -/
  | control (words : List Word)
  /-- the render port: one request word -/
  | request (word : Word)
  deriving DecidableEq, Repr

end Sys2Proof
end

