-- ==== Sys2Proof/WellFormed.lean ====
section
/-! DEFINITION. Which configurations have an instance (00_scope.md R7) and which instructions an encoding (30_encoding.md R103). -/

namespace Sys2Proof

namespace RawConfig

/-- A comb decay offset keeps the decay below 1 at both ends of the reverbDecay range (00_scope.md R7). -/
def combDecayOk (off : F64) : Bool :=
  off.isFinite && F64.lt (F64.add F64.zero off).abs F64.one
    && F64.lt (F64.add ⟨0x3FEE666666666666⟩ off).abs F64.one

/-- 00_scope.md R7, clause by clause. -/
def wf (c : RawConfig) : Bool :=
  decide (1 ≤ c.numVoices)
    && (c.sampleRate.isFinite && F64.lt F64.zero c.sampleRate)
    && decide (1 ≤ c.quantum)
    && decide (c.quantum ≤ c.kernel)
    && decide (c.kernel + c.quantum ≤ c.rbLen)
    && decide (c.rbCh = 1)
    && decide (1 ≤ c.cOut)
    && decide (c.quantum + 1 ≤ c.qcap)
    && (c.fastDecay.isFinite && F64.lt F64.zero c.fastDecay)
    && c.detuneK.isFinite
    && c.combDelayOffsetMs.toList.all F64.isFinite
    && c.combDecayOffset.toList.all combDecayOk
    && c.apDelayMs.isFinite
    && (c.apDecay.isFinite && F64.le F64.zero c.apDecay && F64.lt c.apDecay F64.half)

end RawConfig

/-- A configuration that has an instance: R7 comes with it, so an ill-formed one cannot be written (R7: "no instance
exists"). -/
structure Config where
  raw : RawConfig
  wf : raw.wf = true
  deriving DecidableEq, Repr

/-- The instance with every default (configuration DEF of 95_test_vectors.md). -/
def Config.default : Config := ⟨RawConfig.default, by decide +kernel⟩

/-- The instructions that some transfer encodes in an instance with QUANTUM = `q`: an a-rate PARAM has exactly `q` values,
its count fits the 32-bit LEN field, and with one value the packet is k-rate (30_encoding.md R101, R103);
a render request carries QUANTUM in 32 bits (R108). -/
def Instr.wf (q : Nat) : Instr → Bool
  | .noteon _ _ => true
  | .paramK _ _ => true
  | .paramA _ xs => decide (xs.length = q) && decide (xs.length ≠ 1) && decide (xs.length < 2 ^ 32)
  | .desc _ => true
  | .stat _ => true
  | .render => decide (q < 2 ^ 32)

end Sys2Proof
end

