-- ==== Sys2Proof/Decode.lean ====
section
/-! DEFINITION. Decoding and encoding of transfers (30_encoding.md), total, rejecting by name; the byte order of a serialised word. -/

namespace Sys2Proof

/-- The parameter id of the IDX field (41_parameters.md R130). -/
def ParamId.toNat : ParamId → Nat
  | .decay => 0
  | .shape => 1
  | .pulseWidth => 2
  | .detuneSpread => 3
  | .phaseDrop => 4
  | .lpCutoff => 5
  | .hpCutoff => 6
  | .satGain => 7
  | .crushFactor => 8
  | .reverbMix => 9
  | .reverbDelayMs => 10
  | .reverbDecay => 11

/-- The parameter of an id, none above 11. -/
def ParamId.ofNat? : Nat → Option ParamId
  | 0 => some .decay
  | 1 => some .shape
  | 2 => some .pulseWidth
  | 3 => some .detuneSpread
  | 4 => some .phaseDrop
  | 5 => some .lpCutoff
  | 6 => some .hpCutoff
  | 7 => some .satGain
  | 8 => some .crushFactor
  | 9 => some .reverbMix
  | 10 => some .reverbDelayMs
  | 11 => some .reverbDecay
  | _ => none

/-- The status index of the IDX field (10_state.md R46). -/
def StatReg.toNat : StatReg → Nat
  | .id => 0
  | .clock => 1
  | .cursor => 2
  | .nvoices => 3
  | .srate => 4
  | .quantum => 5
  | .kernel => 6
  | .rblen => 7
  | .cout => 8
  | .qcap => 9
  | .qused => 10
  | .rejects => 11
  | .rbiAvail => 12
  | .rboAvail => 13
  | .nactive => 14

/-- The status register of an index, none above 14 (reserved, R46). -/
def StatReg.ofNat? : Nat → Option StatReg
  | 0 => some .id
  | 1 => some .clock
  | 2 => some .cursor
  | 3 => some .nvoices
  | 4 => some .srate
  | 5 => some .quantum
  | 6 => some .kernel
  | 7 => some .rblen
  | 8 => some .cout
  | 9 => some .qcap
  | 10 => some .qused
  | 11 => some .rejects
  | 12 => some .rbiAvail
  | 13 => some .rboAvail
  | 14 => some .nactive
  | _ => none

/-- The fields of a header word (30_encoding.md R101). -/
structure Header where
  op : BitVec 8
  idx : BitVec 8
  rsvd : BitVec 16
  len : BitVec 32
  deriving DecidableEq, Repr

/-- OP [63:56], IDX [55:48], RSVD [47:32], LEN [31:0] (R101). -/
def Header.ofWord (w : Word) : Header where
  op := w.extractLsb' 56 8
  idx := w.extractLsb' 48 8
  rsvd := w.extractLsb' 32 16
  len := w.extractLsb' 0 32

/-- The word of the four fields (R101). -/
def Header.toWord (h : Header) : Word := h.op ++ h.idx ++ h.rsvd ++ h.len

/-- The opcodes of 30_encoding.md R104. -/
def opNoteon : BitVec 8 := 0x01
/-- PARAM, both forms -/
def opParam : BitVec 8 := 0x02
/-- DESC -/
def opDesc : BitVec 8 := 0x03
/-- STAT -/
def opStat : BitVec 8 := 0x04

/-- The checks of 30_encoding.md R105 on a header presented with `n` words in all, in an instance with
QUANTUM = `q`: the code of the first that fails. -/
def headerFault (q : Nat) (h : Header) (n : Nat) : Option Code :=
  if h.op ≠ opNoteon ∧ h.op ≠ opParam ∧ h.op ≠ opDesc ∧ h.op ≠ opStat then some .badOpcode
  else if h.rsvd ≠ 0 then some .badReserved
  else if h.op = opNoteon ∧ h.idx ≠ 0 then some .badReserved
  else if n ≠ 1 + h.len.toNat then some .badLength
  else if h.op = opNoteon ∧ h.len ≠ 2 then some .badLength
  else if h.op = opParam ∧ h.len ≠ 1 ∧ h.len.toNat ≠ q then some .badLength
  else if (h.op = opDesc ∨ h.op = opStat) ∧ h.len ≠ 0 then some .badLength
  else if (h.op = opParam ∨ h.op = opDesc) ∧ 11 < h.idx.toNat then some .badIndex
  else if h.op = opStat ∧ 14 < h.idx.toNat then some .badIndex
  else none

/-- A parameter's packet from the payload: one value is k-rate, any other count a-rate (R103). -/
def paramInstr (id : ParamId) : List Word → Instr
  | [w] => .paramK id ⟨w⟩
  | ws => .paramA id (ws.map F64.mk)

/-- The instruction of a header that passed every check. The last case of each match is ruled out by the checks. -/
def instrOf (h : Header) (payload : List Word) : Except Code Instr :=
  if h.op = opNoteon then
    match payload with
    | [f, v] => .ok (.noteon ⟨f⟩ ⟨v⟩)
    | _ => .error .badLength
  else if h.op = opParam then
    match ParamId.ofNat? h.idx.toNat with
    | some id => .ok (paramInstr id payload)
    | none => .error .badIndex
  else if h.op = opDesc then
    match ParamId.ofNat? h.idx.toNat with
    | some id => .ok (.desc id)
    | none => .error .badIndex
  else
    match StatReg.ofNat? h.idx.toNat with
    | some n => .ok (.stat n)
    | none => .error .badIndex

/-- Decode of one packet at the control port (R105). -/
def decodePacket (q : Nat) (hdr : Word) (payload : List Word) : Except Code Instr :=
  match headerFault q (Header.ofWord hdr) (1 + payload.length) with
  | some c => .error c
  | none => instrOf (Header.ofWord hdr) payload

/-- Decode of a render request word (R108): only `zext_64(QUANTUM)`, with bits [63:32] zero. -/
def decodeRequest (q : Nat) (req : Word) : Option Instr :=
  if req.extractLsb' 32 32 = 0#32 ∧ (req.extractLsb' 0 32).toNat = q then some .render else none

/-- Why a transfer is no instruction. -/
inductive DecodeError
  /-- the control port answers with this code (R105) -/
  | rejected (c : Code)
  /-- no header word: not a packet (60_exceptions.md R291) -/
  | emptyTransfer
  /-- a request word other than `zext_64(QUANTUM)` (47_render.md R277) -/
  | badRequest
  deriving DecidableEq, Repr

/-- The decoder: total on every transfer at either port. -/
def decode (q : Nat) : Transfer → Except DecodeError Instr
  | .control [] => .error .emptyTransfer
  | .control (hdr :: payload) =>
    match decodePacket q hdr payload with
    | .ok i => .ok i
    | .error c => .error (.rejected c)
  | .request w =>
    match decodeRequest q w with
    | some i => .ok i
    | none => .error .badRequest

/-- The words of a control packet: header, then payload (R100). -/
def packet (op : BitVec 8) (idx : Nat) (payload : List F64) : Transfer :=
  .control (Header.toWord ⟨op, BitVec.ofNat 8 idx, 0, BitVec.ofNat 32 payload.length⟩ :: payload.map F64.bits)

/-- The encoder (R104, R108), for an instance with QUANTUM = `q`. -/
def encode (q : Nat) : Instr → Transfer
  | .noteon f v => packet opNoteon 0 [f, v]
  | .paramK id x => packet opParam id.toNat [x]
  | .paramA id xs => packet opParam id.toNat xs
  | .desc id => packet opDesc id.toNat []
  | .stat n => packet opStat n.toNat []
  | .render => .request (BitVec.ofNat 64 q)

/-- A word as its eight bytes, byte 0 with bits 7:0 first (20_memory.md R72). -/
def bytesOfWord (w : Word) : List Byte := (List.range 8).map fun k => w.extractLsb' (8 * k) 8

/-- Eight bytes as a word, the first with bits 7:0 (R72). -/
def wordOfBytes (b0 b1 b2 b3 b4 b5 b6 b7 : Byte) : Word := b7 ++ b6 ++ b5 ++ b4 ++ b3 ++ b2 ++ b1 ++ b0

/-- A serialised transfer as words; none if the bytes are not a whole number of words (20_memory.md R73). -/
def wordsOfBytes : List Byte → Option (List Word)
  | [] => some []
  | b0 :: b1 :: b2 :: b3 :: b4 :: b5 :: b6 :: b7 :: rest =>
    match wordsOfBytes rest with
    | some ws => some (wordOfBytes b0 b1 b2 b3 b4 b5 b6 b7 :: ws)
    | none => none
  | _ => none

/-- Serialised words, the first at the lowest address. -/
def bytesOfWords (ws : List Word) : List Byte := ws.flatMap bytesOfWord

/-- An instruction's bits as words, bit 0 the least significant of the first word; the bits from `nbits` on are zero. -/
def tableWord (nbits w k : Nat) : Word := BitVec.ofNat 64 ((w % 2 ^ nbits) / 2 ^ (64 * k))

/-- The transfer that carries an instruction's bits: OP = 0x00 is no command (R104), so such a first word is a render
request and any other a packet of `1 + LEN` words, at most as many as the longest instruction has (log 17). -/
def tableTransfer (q nbits w : Nat) : Transfer :=
  let h := Header.ofWord (tableWord nbits w 0)
  if h.op = 0 then .request (tableWord nbits w 0)
  else .control ((List.range (1 + min h.len.toNat (max q 2))).map (tableWord nbits w))

/-- The instruction the decoder of the default instance reads from an instruction's bits. -/
def decodeTableWord (nbits w : Nat) : Option Instr :=
  match decode RawConfig.default.quantum (tableTransfer RawConfig.default.quantum nbits w) with
  | .ok i => some i
  | .error _ => none

end Sys2Proof
end

