-- ==== Sys2Proof/Machine/Operands.lean ====
section
/-! DEFINITION. The operands of the commands: the parameter table and the normalisation of a written value
(41_parameters.md R130, R131), the frequency and velocity of a note (42_voicebank.md R150, R151). -/

namespace Sys2Proof

/-- NYQ, `SAMPLE_RATE × 0.5` (41_parameters.md R130). -/
def Config.nyquist (c : Config) : F64 := F64.mul c.raw.sampleRate F64.half

namespace ParamId

/-- `default(id)` (41_parameters.md R130). -/
def default (c : Config) : ParamId → F64
  | .decay => ⟨0x3FD0000000000000⟩          -- 0.25
  | .shape => ⟨0x3FF0000000000000⟩          -- 1.0
  | .pulseWidth => ⟨0x3FE0000000000000⟩     -- 0.5
  | .detuneSpread => ⟨0⟩                    -- 0.0
  | .phaseDrop => ⟨0⟩                       -- 0.0
  | .lpCutoff => c.nyquist
  | .hpCutoff => ⟨0⟩                        -- 0.0
  | .satGain => ⟨0x3FF0000000000000⟩        -- 1.0
  | .crushFactor => ⟨0x3FF0000000000000⟩    -- 1.0
  | .reverbMix => ⟨0⟩                       -- 0.0
  | .reverbDelayMs => ⟨0x403E000000000000⟩  -- 30.0
  | .reverbDecay => ⟨0x3FE0000000000000⟩    -- 0.5

/-- `min(id)` (41_parameters.md R130). -/
def min : ParamId → F64
  | .decay => ⟨0x3F50624DD2F1A9FC⟩          -- 0.001
  | .shape => ⟨0⟩                           -- 0.0
  | .pulseWidth => ⟨0x3F847AE147AE147B⟩     -- 0.01
  | .detuneSpread => ⟨0⟩                    -- 0.0
  | .phaseDrop => ⟨0⟩                       -- 0.0
  | .lpCutoff => ⟨0⟩                        -- 0.0
  | .hpCutoff => ⟨0⟩                        -- 0.0
  | .satGain => ⟨0⟩                         -- 0.0
  | .crushFactor => ⟨0x3FF0000000000000⟩    -- 1.0
  | .reverbMix => ⟨0⟩                       -- 0.0
  | .reverbDelayMs => ⟨0x3FF0000000000000⟩  -- 1.0
  | .reverbDecay => ⟨0⟩                     -- 0.0

/-- `max(id)` (41_parameters.md R130). -/
def max (c : Config) : ParamId → F64
  | .decay => ⟨0x4024000000000000⟩          -- 10.0
  | .shape => ⟨0x4000000000000000⟩          -- 2.0
  | .pulseWidth => ⟨0x3FEFAE147AE147AE⟩     -- 0.99
  | .detuneSpread => ⟨0x3FF0000000000000⟩   -- 1.0
  | .phaseDrop => ⟨0x4024000000000000⟩      -- 10.0
  | .lpCutoff => c.nyquist
  | .hpCutoff => c.nyquist
  | .satGain => ⟨0x4059000000000000⟩        -- 100.0
  | .crushFactor => ⟨0x4060000000000000⟩    -- 128.0
  | .reverbMix => ⟨0x3FF0000000000000⟩      -- 1.0
  | .reverbDelayMs => ⟨0x4059000000000000⟩  -- 100.0
  | .reverbDecay => ⟨0x3FEE666666666666⟩    -- 0.95

/-- `norm(id, x)`: a NaN becomes the default, any other value is clamped (41_parameters.md R131). -/
def norm (c : Config) (id : ParamId) (x : F64) : F64 :=
  if x.isNaN then id.default c else F64.clamp x id.min (id.max c)

/-- The place of a parameter's register in the parameter register file (10_state.md R38). -/
def index (id : ParamId) : Fin 12 := ⟨id.toNat, by cases id <;> decide⟩

/-- The parameter of a register, in the order of the ids. -/
def ofIndex (k : Fin 12) : ParamId := (ofNat? k.val).getD .decay

end ParamId

/-- A note frequency the control port takes: finite and above 0.0 (42_voicebank.md R151). -/
def freqOk (f : F64) : Bool := f.isFinite && F64.lt F64.zero f

/-- `vcurve(x) = x × x` (42_voicebank.md R150). -/
def vcurve (x : F64) : F64 := F64.mul x x

/-- The gain of a raw velocity: clamped to [0, 1], then the curve (42_voicebank.md R151). -/
def noteGain (u : F64) : F64 := vcurve (F64.clamp u F64.zero F64.one)

end Sys2Proof
end

