-- ==== Sys2Proof/Machine/State.lean ====
section
/-! DEFINITION. The state of the CORE (10_state.md), the reasons a step stops, and the state after reset (70_reset_and_hazards.md R320). -/

namespace Sys2Proof.Machine

/-- One voice of the voice register file (10_state.md R33). -/
structure Voice where
  phase : F64
  freq : F64
  vel : F64
  trig : Word
  active : Bool
  deriving DecidableEq, Repr

/-- A reset voice (10_state.md R35). -/
def Voice.idle : Voice := ⟨F64.zero, F64.zero, F64.zero, 0, false⟩

/-- The rate of a parameter register, its `mode` bit (10_state.md R38, R47). -/
inductive Rate
  | k
  | a
  deriving DecidableEq, Repr

/-- One parameter register (10_state.md R38). -/
structure ParamReg where
  mode : Rate
  kval : F64
  arr : List F64
  deriving DecidableEq, Repr

/-- The two IIR cells Z_LP and Z_HP (10_state.md R40). -/
structure FilterCells where
  zLP : F64
  zHP : F64
  deriving DecidableEq, Repr

/-- The memory of the CORE, the sample RAM of a ring buffer: the only RAM reached by an index (20_memory.md R70, 00_scope.md
R8 RBRead and RBWrite). It lists the cells that do not hold +0.0, the reset contents of every cell (10_state.md R43), by
rising index. `Memory.wf` in Ops.lean is the canonical form (log 18). -/
abbrev Memory := List (Nat × F64)

/-- A ring buffer (10_state.md R42). -/
structure RingBuffer where
  data : Memory
  w : Nat
  r : Nat
  avail : Nat
  deriving DecidableEq, Repr

/-- An empty ring buffer (10_state.md R43). -/
def RingBuffer.empty : RingBuffer := ⟨[], 0, 0, 0⟩

/-- A packet of the command queue: only NOTEON and PARAM are ever queued (10_state.md R44). -/
inductive Queued
  | noteon (freq vel : F64)
  | paramK (id : ParamId) (x : F64)
  | paramA (id : ParamId) (xs : List F64)
  deriving DecidableEq, Repr

/-- The render-committed status registers (10_state.md R46). -/
structure Committed where
  clock : Word
  cursor : Word
  rbiAvail : Word
  rboAvail : Word
  nactive : Word
  deriving DecidableEq, Repr

/-- The working buffers (10_state.md R48). -/
structure Work where
  syn : List F64
  flt : List F64
  cru : List F64
  out : List F64
  dry : List F64
  combs : List (List F64)
  proc : List F64
  deriving DecidableEq, Repr

/-- Whether a RENDER is in progress (20_memory.md R79, R81; 47_render.md R277). -/
inductive Phase
  /-- no RENDER is in progress -/
  | idle
  /-- the drain is removing this many words from the queue -/
  | draining (words : Nat)
  /-- the drain is complete, the RENDER is not -/
  | rendering
  deriving DecidableEq, Repr

/-- A control-port answer: the result word and the response words (30_encoding.md R107). -/
structure ControlReply where
  result : Word
  response : List Word
  deriving DecidableEq, Repr

/-- A render-port answer: the sample words and the liveness word (30_encoding.md R109). -/
structure RenderReply where
  samples : List Word
  liveness : Word
  deriving DecidableEq, Repr

/-- What happens at the ports (20_memory.md R71), and the render engine's own progress (log 3). -/
inductive PortEvent
  /-- a transfer completes with no other transaction inside it -/
  | transfer (t : Transfer)
  /-- the host's request word arrives and the RENDER begins, to end at a later event -/
  | renderBegin (req : Word)
  /-- the drain of the RENDER in progress is complete -/
  | drainEnd
  /-- the RENDER in progress completes -/
  | renderEnd
  /-- the host drives the RESET input to this level -/
  | resetLevel (asserted : Bool)
  deriving DecidableEq, Repr

/-- No behaviour of the CORE is a fault (93_implementation_defined.md, opening; 60_exceptions.md R295): no constructor,
so nothing raises one. Safe: no step can end in it (log 29). -/
inductive Fault
  deriving DecidableEq, Repr

/-- Why a step has no next state. Every reason but the first is a step that the outside agents do not have. -/
inductive Refusal
  /-- raised by `exec` for an instruction without a meaning; safe: nothing is claimed of it -/
  | notModelled (mnemonic : String)
  /-- raised by the render port for a request word other than `zext_64(QUANTUM)` (47_render.md R277); safe -/
  | badRenderRequest
  /-- raised by the render port for a request during a RENDER or a RESET (47_render.md R277); safe -/
  | renderOverlap
  /-- raised by the RESET input asserted during a RENDER (70_reset_and_hazards.md R321); safe -/
  | resetDuringRender
  /-- raised by the control port for a transfer of zero words (60_exceptions.md R291); safe -/
  | emptyTransfer
  /-- raised by an engine event with no RENDER at that stage (log 3); safe -/
  | noRenderInProgress
  deriving DecidableEq, Repr

/-- The state of the CORE. `inputs` and `freeIdx` are the model's own (log 2, log 4); `cfg` is the configuration,
which nothing changes (10_state.md R31, log 1). -/
structure State where
  /-- the configuration of the instance (00_scope.md R6) -/
  cfg : Config
  /-- V, the voice register file (10_state.md R33) -/
  voices : List Voice
  /-- CUR (10_state.md R37) -/
  cur : Nat
  /-- CLOCK (10_state.md R36) -/
  clock : Word
  /-- P, the parameter register file (10_state.md R38) -/
  params : Vector ParamReg 12
  /-- Z_LP and Z_HP (10_state.md R40) -/
  filter : FilterCells
  /-- RBI (10_state.md R42) -/
  rbi : RingBuffer
  /-- RBO (10_state.md R42) -/
  rbo : RingBuffer
  /-- CQ, the head first (10_state.md R44) -/
  cq : List Queued
  /-- REJECTS (10_state.md R45) -/
  rejects : Word
  /-- the render-committed status registers (10_state.md R46) -/
  csr : Committed
  /-- the working buffers (10_state.md R48) -/
  work : Work
  /-- whether a RENDER is in progress -/
  phase : Phase
  /-- the level of the RESET input (20_memory.md R71) -/
  inReset : Bool
  /-- the answer of the last control-port transaction (30_encoding.md R107) -/
  controlOut : Option ControlReply
  /-- the answer of the last RENDER (30_encoding.md R109) -/
  renderOut : Option RenderReply
  /-- what the outside agents present, the next event first -/
  inputs : List PortEvent
  /-- numbers the free values -/
  freeIdx : Nat
  deriving DecidableEq, Repr

namespace State

/-- `n` samples of +0.0. -/
def silence (n : Nat) : List F64 := List.replicate n F64.zero

/-- A parameter register after reset: k-rate, at its default, array elements +0.0 (10_state.md R39). -/
def resetParam (c : Config) (id : ParamId) : ParamReg := ⟨.k, id.default c, silence c.raw.quantum⟩

/-- Every piece of state of an instance at its reset value (70_reset_and_hazards.md R320). The working buffers have none
(log 10); the last answers are none (log 11). -/
def ofConfig (c : Config) : State where
  cfg := c
  voices := List.replicate c.raw.numVoices Voice.idle
  cur := 0
  clock := 0
  params := Vector.ofFn fun k => resetParam c (ParamId.ofIndex k)
  filter := ⟨F64.zero, F64.zero⟩
  rbi := RingBuffer.empty
  rbo := RingBuffer.empty
  cq := []
  rejects := 0
  csr := ⟨0, 0, 0, 0, 0⟩
  work :=
    { syn := silence c.raw.quantum
      flt := silence c.raw.quantum
      cru := silence c.raw.quantum
      out := silence c.raw.quantum
      dry := silence c.raw.kernel
      combs := List.replicate 4 (silence c.raw.kernel)
      proc := silence c.raw.kernel }
  phase := .idle
  inReset := false
  controlOut := none
  renderOut := none
  inputs := []
  freeIdx := 0

/-- The default instance right after reset (log 1). -/
def reset : State := ofConfig Config.default

end State

end Sys2Proof.Machine
end

