-- ==== Sys2Proof/Machine/Flags.lean ====
section
/-! DEFINITION. The CORE has no condition codes (10_state.md R47). What stands in their place: the result codes of the
control port (60_exceptions.md R291, 30_encoding.md R107) and the render-committed status registers (10_state.md R46). -/

namespace Sys2Proof

/-- The number of a result code (60_exceptions.md R291). -/
def Code.number : Code → BitVec 8
  | .accepted => 0
  | .full => 1
  | .badOpcode => 2
  | .badReserved => 3
  | .badLength => 4
  | .badIndex => 5
  | .badNote => 6

/-- The result word: CODE in bits [7:0], bits [63:8] zero (30_encoding.md R107). -/
def Code.word (c : Code) : Word := c.number.setWidth 64

namespace Machine

/-- NACTIVE, the number of voices with `active = 1` (10_state.md R46). -/
def State.nactive (s : State) : Nat := s.voices.countP Voice.active

/-- The values the render-committed registers take at the end of a RENDER (10_state.md R46, 47_render.md R275). -/
def State.toCommit (s : State) : Committed where
  clock := s.clock
  cursor := BitVec.ofNat 64 s.cur
  rbiAvail := BitVec.ofNat 64 s.rbi.avail
  rboAvail := BitVec.ofNat 64 s.rbo.avail
  nactive := BitVec.ofNat 64 s.nactive

end Machine

end Sys2Proof
end

