-- ==== Sys2Proof/Machine/Ops.lean ====
section
/-! DEFINITION. The shared operations: the sample RAM and the ring buffers (46_reverb.md R230, R231), the register
accessors, and the control port's answers. A rejection is the CORE's one form of error (60_exceptions.md R293): there is no
exception to take and none to return from (R295). -/

namespace Sys2Proof.Machine

namespace Memory

/-- What an unlisted cell reads as: +0.0, the reset contents of every cell (10_state.md R43). -/
def unlisted : F64 := F64.zero

/-- RBRead of one cell. -/
def read : Memory → Nat → F64
  | [], _ => unlisted
  | (k, v) :: rest, a => if k = a then v else read rest a

/-- RBWrite of one cell, keeping the canonical form. -/
def write : Memory → Nat → F64 → Memory
  | [], a, x => if x = unlisted then [] else [(a, x)]
  | (k, v) :: rest, a, x =>
    if a < k then (if x = unlisted then (k, v) :: rest else (a, x) :: (k, v) :: rest)
    else if a = k then (if x = unlisted then rest else (a, x) :: rest)
    else (k, v) :: write rest a x

/-- The canonical form: indices strictly rising, and no cell listed that holds what an unlisted one reads as. -/
abbrev wf (m : Memory) : Prop := m.Pairwise (fun c d => c.1 < d.1) ∧ ∀ c ∈ m, c.2 ≠ unlisted

end Memory

namespace RingBuffer

/-- Push of one frame into a buffer of capacity `len`: a full buffer loses its oldest unread frame (46_reverb.md R230). -/
def pushOne (len : Nat) (rb : RingBuffer) (x : F64) : RingBuffer where
  data := Memory.write rb.data rb.w x
  w := (rb.w + 1) % len
  r := if rb.avail < len then rb.r else (rb.r + 1) % len
  avail := if rb.avail < len then rb.avail + 1 else rb.avail

/-- `push(rb, x, n)` of the frames `xs`, first to last (46_reverb.md R230). -/
def push (len : Nat) (rb : RingBuffer) (xs : List F64) : RingBuffer := xs.foldl (pushOne len) rb

/-- The `m` frames from read index `r` on, in the order a pull reads them (46_reverb.md R231). -/
def frames (len : Nat) (d : Memory) : Nat → Nat → List F64
  | 0, _ => []
  | m + 1, r => Memory.read d r :: frames len d m ((r + 1) % len)

/-- What a pull leaves in `dst`: the frames read in its first positions, the rest as it was (46_reverb.md R231). -/
def pulled (len : Nat) (rb : RingBuffer) (dst : List F64) (n : Nat) : List F64 :=
  frames len rb.data (min n rb.avail) rb.r ++ dst.drop (min n rb.avail)

/-- The buffer after a pull of up to `n` frames (46_reverb.md R231). -/
def afterPull (len : Nat) (rb : RingBuffer) (n : Nat) : RingBuffer :=
  { rb with r := (rb.r + min n rb.avail) % len, avail := rb.avail - min n rb.avail }

end RingBuffer

/-- The words of a queued packet: the header and the payload (30_encoding.md R100). -/
def Queued.size : Queued → Nat
  | .noteon _ _ => 3
  | .paramK _ _ => 2
  | .paramA _ xs => 1 + xs.length

/-- The instruction a queued packet encodes. -/
def Queued.instr : Queued → Instr
  | .noteon f u => .noteon f u
  | .paramK id x => .paramK id x
  | .paramA id xs => .paramA id xs

/-- The words that a drain in progress found in CQ when it began: what QUSED was before it (20_memory.md R81). -/
def Phase.removing : Phase → Nat
  | .idle => 0
  | .draining n => n
  | .rendering => 0

namespace State

/-- How many words CQ holds (10_state.md R44). -/
def queueWords (s : State) : Nat := (s.cq.map Queued.size).sum

/-- QUSED as the control port reads it. During a drain it is any value between the one before the drain, `n`, and the one after
it, the words accepted since (20_memory.md R81): a free value (log 4). Both are QCAP at most (10_state.md R44). -/
def qused (s : State) : Nat :=
  match s.phase with
  | .idle => s.queueWords
  | .draining n =>
    min n s.queueWords + Config.freeQueueRead s.freeIdx % (max n s.queueWords - min n s.queueWords + 1)
  | .rendering => s.queueWords

/-- The words in CQ that the space check counts. During a drain these are the words accepted since it began and any number of
those it has yet to remove, QCAP at most in all (10_state.md R44, 20_memory.md R81): a free value (log 4). -/
def occupied (s : State) : Nat :=
  match s.phase with
  | .idle => s.queueWords
  | .draining n => s.queueWords + Config.freeQueueRead s.freeIdx % (min n (s.cfg.raw.qcap - s.queueWords) + 1)
  | .rendering => s.queueWords

/-- The register of a parameter (10_state.md R38). -/
def param (s : State) (id : ParamId) : ParamReg := s.params[id.index]

/-- Write of a parameter's register. -/
def setParam (s : State) (id : ParamId) (p : ParamReg) : State := { s with params := s.params.set id.index p }

/-- The answer of a control-port transaction (30_encoding.md R107). -/
def reply (s : State) (c : Code) (response : List Word) : State :=
  { s with controlOut := some ⟨c.word, response⟩ }

/-- `reject(code)`: REJECTS + 1, the result word, nothing else (60_exceptions.md R293, 00_scope.md R8). -/
def reject (s : State) (c : Code) : State := { s.reply c [] with rejects := s.rejects + 1 }

/-- A packet at the tail of CQ, all its words at once (20_memory.md R74, R78). -/
def append (s : State) (p : Queued) : State := { s with cq := s.cq ++ [p] }

/-- The space check and the append (60_exceptions.md R291: FULL if `QCAP − QUSED < 1 + LEN`, QUSED the words in CQ). -/
def offer (s : State) (p : Queued) : State :=
  if s.cfg.raw.qcap < s.occupied + p.size then s.reject .full else (s.append p).reply .accepted []

/-- The next event is taken from the outside agents' list. -/
def pop (s : State) (rest : List PortEvent) : State := { s with inputs := rest, freeIdx := s.freeIdx + 1 }

/-- Release of RESET: every piece of state at its reset value, queued packets discarded (70_reset_and_hazards.md R320).
The configuration, the outside agents' list and the free values' counter are no state of the CORE. -/
def resetAll (s : State) : State := { ofConfig s.cfg with inputs := s.inputs, freeIdx := s.freeIdx }

end State

/-- What a meaning answers. -/
abbrev Result := Host.Outcome State Fault Refusal

/-- `body n-1 (… (body 1 (body 0 a)))`: the spec's `for i in 0..n−1` (00_scope.md R8). -/
def forUpTo {α : Type} : Nat → (Nat → α → α) → α → α
  | 0, _, a => a
  | n + 1, body, a => body n (forUpTo n body a)

/-- Element `i` of a working buffer. Every rule reads inside its buffer; outside, +0.0 (log 15). -/
def at' (xs : List F64) (i : Nat) : F64 := xs.getD i F64.zero

end Sys2Proof.Machine
end

