-- ==== Sys2Proof/Machine/Parameters.lean ====
section
/-! DEFINITION. The ParameterResolver and the commands PARAM, DESC and STAT (41_parameters.md). -/

namespace Sys2Proof.Machine

/-- `resolve(id, i)`: a lookup, no interpolation (41_parameters.md R134). -/
def resolve (P : Vector ParamReg 12) (id : ParamId) (i : Nat) : F64 :=
  match (P[id.index]).mode with
  | .k => (P[id.index]).kval
  | .a => at' (P[id.index]).arr i

/-- The drain part of a k-rate PARAM (41_parameters.md R132). -/
def writeK (id : ParamId) (x : F64) (s : State) : State :=
  s.setParam id { s.param id with mode := .k, kval := id.norm s.cfg x }

/-- The drain part of an a-rate PARAM (41_parameters.md R133). -/
def writeA (id : ParamId) (xs : List F64) (s : State) : State :=
  s.setParam id { s.param id with mode := .a, arr := xs.map (id.norm s.cfg) }

/-- The end-of-quantum reversion of one register (41_parameters.md R135). -/
def ParamReg.revert (q : Nat) (p : ParamReg) : ParamReg :=
  match p.mode with
  | .k => p
  | .a => { p with mode := .k, kval := at' p.arr (q - 1) }

/-- PARAM, k-rate: queued if there is room (41_parameters.md R132). -/
def execParamK (id : ParamId) (x : F64) (s : State) : Result := .next (s.offer (.paramK id x))

/-- PARAM, a-rate: queued if there is room (41_parameters.md R133). -/
def execParamA (id : ParamId) (xs : List F64) (s : State) : Result := .next (s.offer (.paramA id xs))

/-- The response words of DESC (41_parameters.md R136). -/
def descriptor (c : Config) (id : ParamId) : List Word := [(id.default c).bits, id.min.bits, (id.max c).bits]

/-- DESC: answered at once (41_parameters.md R136). -/
def execDesc (id : ParamId) (s : State) : Result := .next (s.reply .accepted (descriptor s.cfg id))

/-- `CSR[n]` (10_state.md R46): constants of the configuration, live registers, render-committed registers.
An integer constant is read modulo 2^64 (log 14). -/
def State.status (s : State) : StatReg → Word
  | .id => Config.idValue
  | .clock => s.csr.clock
  | .cursor => s.csr.cursor
  | .nvoices => BitVec.ofNat 64 s.cfg.raw.numVoices
  | .srate => s.cfg.raw.sampleRate.bits
  | .quantum => BitVec.ofNat 64 s.cfg.raw.quantum
  | .kernel => BitVec.ofNat 64 s.cfg.raw.kernel
  | .rblen => BitVec.ofNat 64 s.cfg.raw.rbLen
  | .cout => BitVec.ofNat 64 s.cfg.raw.cOut
  | .qcap => BitVec.ofNat 64 s.cfg.raw.qcap
  | .qused => BitVec.ofNat 64 s.qused
  | .rejects => s.rejects
  | .rbiAvail => s.csr.rbiAvail
  | .rboAvail => s.csr.rboAvail
  | .nactive => s.csr.nactive

/-- STAT: answered at once (41_parameters.md R137). -/
def execStat (n : StatReg) (s : State) : Result := .next (s.reply .accepted [s.status n])

end Sys2Proof.Machine
end

