-- ==== Sys2Proof/Machine/Bitcrusher.lean ====
section
/-! DEFINITION. The Bitcrusher (45_bitcrusher.md). -/

namespace Sys2Proof.Machine

/-- `Q(g) = clamp(roundHalfUp(resolve(8, g)), 1, CRUSH_MAX)` (45_bitcrusher.md R220). -/
def holdFactor (P : Vector ParamReg 12) (g : Nat) : Nat :=
  (max 1 (min (resolve P .crushFactor g).roundHalfUp Config.crushMax)).toNat

/-- The frames from group start `g` on: the `while` loop of 45_bitcrusher.md R221. Every group has a frame or more,
so `fuel` = QUANTUM groups are enough. -/
def crushFrom (P : Vector ParamReg 12) (q : Nat) (flt : List F64) : Nat → Nat → List F64
  | 0, _ => []
  | fuel + 1, g =>
    if g < q then
      List.replicate (min (g + holdFactor P g) q - g) (at' flt g) ++ crushFrom P q flt fuel (g + holdFactor P g)
    else []

/-- `crush()`: CRU from FLT (45_bitcrusher.md R221). -/
def crush (P : Vector ParamReg 12) (q : Nat) (flt : List F64) : List F64 := crushFrom P q flt q 0

end Sys2Proof.Machine
end

