-- ==== Sys2Proof/Machine/Transcendental.lean ====
section
/-! DEFINITION. The configuration functions EXP, ATAN, LN and POW with the properties of 00_scope.md R10. -/

namespace Sys2Proof

/-- The four configuration functions of 00_scope.md R6 and R10. Every rule that uses one takes the record as an
argument, so a statement can be about any of them. -/
structure Transc where
  /-- EXP -/
  exp : F64 → F64 := fun _ => F64.one
  /-- ATAN -/
  atan : F64 → F64 := fun x => F64.ofSignMag x.sign 0
  /-- LN -/
  ln : F64 → F64 := fun _ => F64.negOne
  /-- POW -/
  pow : F64 → F64 → F64 := fun x _ => x

/-- The properties a model may assume (00_scope.md R10), one field each (log 9). -/
structure Transc.Lawful (T : Transc) : Prop where
  /-- "EXP(+0) = EXP(−0) = 1" -/
  exp_zero : ∀ x : F64, x.isZero = true → T.exp x = F64.one
  /-- "EXP(x) is in (0, 1] for finite x ≤ 0 (it may underflow to +0 for very negative x)" -/
  exp_nonpos : ∀ x : F64, x.isFinite = true → F64.le x F64.zero = true →
    (T.exp x).sign = false ∧ F64.le (T.exp x) F64.one = true
  /-- "EXP is monotone non-decreasing" -/
  exp_mono : ∀ x y : F64, F64.le x y = true → F64.le (T.exp x) (T.exp y) = true
  /-- "ATAN(−x) = −ATAN(x)" -/
  atan_odd : ∀ x : F64, x.isNaN = false → T.atan x.neg = (T.atan x).neg
  /-- "|ATAN(x)| ≤ PI_HALF_BOUND" -/
  atan_bound : ∀ x : F64, x.isNaN = false → F64.le (T.atan x).abs F64.piHalfBound = true
  /-- "ATAN(0) = 0" -/
  atan_zero : T.atan F64.zero = F64.zero
  /-- "LN(0.5) < 0" -/
  ln_half : F64.lt (T.ln F64.half) F64.zero = true
  /-- "LN(x) < 0 for 0 < x < 1" -/
  ln_neg : ∀ x : F64, F64.lt F64.zero x = true → F64.lt x F64.one = true → F64.lt (T.ln x) F64.zero = true
  /-- "POW(0, e) = 0", for e > 0 -/
  pow_zero : ∀ e : F64, F64.lt F64.zero e = true → T.pow F64.zero e = F64.zero
  /-- "POW(x, 1) = x", for x in [0, 1) -/
  pow_one : ∀ x : F64, x.sign = false → F64.lt x F64.one = true → T.pow x F64.one = x
  /-- "POW(x, e) in [0, 1)", for x in [0, 1) and e > 0 -/
  pow_range : ∀ x e : F64, x.sign = false → F64.lt x F64.one = true → F64.lt F64.zero e = true →
    F64.le F64.zero (T.pow x e) = true ∧ F64.lt (T.pow x e) F64.one = true
  /-- "for fixed e, monotone non-decreasing in x", for x in [0, 1) and e > 0 -/
  pow_mono : ∀ x y e : F64, x.sign = false → F64.le x y = true → F64.lt y F64.one = true →
    F64.lt F64.zero e = true → F64.le (T.pow x e) (T.pow y e) = true

namespace F64

theorem sign_ofSignMag (s : Bool) (m : Nat) (h : m < 2 ^ 63) : (ofSignMag s m).sign = s := by
  cases s <;> simp [sign, ofSignMag] <;> omega

theorem mag_ofSignMag (s : Bool) (m : Nat) (h : m < 2 ^ 63) : (ofSignMag s m).mag = m := by
  cases s <;> simp [mag, ofSignMag] <;> omega

theorem mag_lt (x : F64) : x.mag < 2 ^ 63 := Nat.mod_lt _ (by decide)

end F64

/-- The default functions of `Transc` have the properties: they contradict one another nowhere. -/
theorem Transc.lawful_default : Transc.Lawful {} where
  exp_zero _ _ := rfl
  exp_nonpos _ _ _ := show F64.one.sign = false ∧ F64.le F64.one F64.one = true by decide +kernel
  exp_mono _ _ _ := show F64.le F64.one F64.one = true by decide +kernel
  atan_odd x _ := by
    have h : (F64.neg x).sign = !x.sign := F64.sign_ofSignMag _ _ x.mag_lt
    have h0 : (0 : Nat) < 2 ^ 63 := by decide
    simp only [F64.neg] at h ⊢
    simp only [h, F64.sign_ofSignMag _ _ h0, F64.mag_ofSignMag _ _ h0]
  atan_bound x _ := by
    cases h : x.sign <;> simp only [h] <;> decide +kernel
  atan_zero := by decide +kernel
  ln_half := by decide +kernel
  ln_neg _ _ _ := show F64.lt F64.negOne F64.zero = true by decide +kernel
  pow_zero _ _ := rfl
  pow_one _ _ _ := rfl
  pow_range x _ hs hx _ := by
    refine ⟨?_, hx⟩
    simp only [F64.lt, F64.le, F64.key, hs, Bool.and_eq_true, Bool.not_eq_true', decide_eq_true_eq] at hx ⊢
    refine ⟨⟨by decide +kernel, hx.1.1⟩, ?_⟩
    have : F64.zero.mag = 0 := by decide +kernel
    have : F64.zero.sign = false := by decide +kernel
    simp_all
  pow_mono _ _ _ _ h _ _ := h

/-- Four functions together with their properties. -/
structure LawfulTransc extends Transc where
  lawful : Transc.Lawful toTransc := by exact Transc.lawful_default
  deriving Inhabited

/-- EXP, ATAN, LN and POW of the machine (log 8): any four functions with the properties of R10, and no more is known. -/
opaque Config.transcendentals : LawfulTransc

end Sys2Proof
end

