-- ==== Sys2Proof/Machine/Filter.lean ====
section
/-! DEFINITION. The FilterStage (44_filter.md). -/

namespace Sys2Proof.Machine

/-- One-pole coefficients. -/
structure Coeffs where
  a0 : F64
  b1 : F64
  deriving DecidableEq, Repr

/-- `coeff(fc)` (44_filter.md R200), with the zero-cutoff guard (R201). DEDUCED (log 32): where `(−2.0 × PI) × fc` overflows, for a
SAMPLE_RATE above about 5.72e307, the exponent is −Inf, of which R10 gives EXP no range; the formula is followed. -/
def coeff (T : Transc) (c : Config) (fc : F64) : Coeffs :=
  if F64.eq fc F64.zero then ⟨F64.zero, F64.one⟩
  else
    let b1 := T.exp (((F64.negTwo.mul F64.pi).mul fc).div c.raw.sampleRate)
    ⟨F64.one.sub b1, b1⟩

/-- `saturate(x, g) = (2.0 ÷ PI) × ATAN(g × x)` (44_filter.md R202). -/
def saturate (T : Transc) (x g : F64) : F64 := (F64.two.div F64.pi).mul (T.atan (g.mul x))

/-- The recursion `(x × a0) + (z1 × b1)` of both sections (44_filter.md R203, R204). -/
def onePole (k : Coeffs) (x z : F64) : F64 := (x.mul k.a0).add (z.mul k.b1)

/-- The saturation at one of its two places: applied where the configuration puts it (44_filter.md R205). -/
def saturateAt (T : Transc) (c : Config) (place : SatPos) (g x : F64) : F64 :=
  if c.raw.satPos = place then saturate T x g else x

/-- A frame's output and the cells after it. -/
structure Filtered where
  out : F64
  cells : FilterCells
  deriving DecidableEq, Repr

/-- `filterFrame(x, i)` (44_filter.md R205). The low-pass output is its new cell (R203); the high-pass is its input less
its new cell (R204). -/
def filterFrame (T : Transc) (c : Config) (P : Vector ParamReg 12) (x : F64) (i : Nat) (z : FilterCells) : Filtered :=
  let g := resolve P .satGain i
  let y := onePole (coeff T c (resolve P .lpCutoff i)) (saturateAt T c .pre g x) z.zLP
  let zHP := onePole (coeff T c (resolve P .hpCutoff i)) y z.zHP
  ⟨saturateAt T c .post g (y.sub zHP), ⟨y, zHP⟩⟩

/-- The filtered block and the cells after it. -/
structure FilteredBlock where
  flt : List F64
  cells : FilterCells
  deriving DecidableEq, Repr

/-- The frames `xs`, the first of them frame `i`, in order (44_filter.md R205). -/
def filterFrames (T : Transc) (c : Config) (P : Vector ParamReg 12) : List F64 → Nat → FilterCells → FilteredBlock
  | [], _, z => ⟨[], z⟩
  | x :: xs, i, z =>
    let r := filterFrame T c P x i z
    let rest := filterFrames T c P xs (i + 1) r.cells
    ⟨r.out :: rest.flt, rest.cells⟩

end Sys2Proof.Machine
end

