-- ==== Sys2Proof/Machine/Reverb.lean ====
section
/-! DEFINITION. The ReverbEngine (46_reverb.md). -/

namespace Sys2Proof.Machine

/-- `samplesOf(ms) = roundHalfUp((ms ÷ 1000.0) × SAMPLE_RATE)` (46_reverb.md R233). -/
def samplesOf (c : Config) (ms : F64) : Int := ((ms.div F64.thousand).mul c.raw.sampleRate).roundHalfUp

/-- `d[j]`, a sample or more (46_reverb.md R234). -/
def combDelay (c : Config) (P : Vector ParamReg 12) (j : Fin 4) : Nat :=
  (max 1 (samplesOf c ((resolve P .reverbDelayMs 0).add c.raw.combDelayOffsetMs[j]))).toNat

/-- `g[j]` (46_reverb.md R234). -/
def combDecay (c : Config) (P : Vector ParamReg 12) (j : Fin 4) : F64 :=
  (resolve P .reverbDecay 0).add c.raw.combDecayOffset[j]

/-- `comb(x, d, g)`: in place over a duplicate of the input, ascending (46_reverb.md R235). -/
def comb (x : List F64) (d : Nat) (g : F64) : List F64 :=
  forUpTo (x.length - d) (fun i c => c.set (i + d) ((at' c (i + d)).add ((at' c i).mul g))) x

/-- The four combs over the dry buffer (46_reverb.md R240). -/
def combBank (c : Config) (P : Vector ParamReg 12) (dry : List F64) : List (List F64) :=
  [comb dry (combDelay c P 0) (combDecay c P 0), comb dry (combDelay c P 1) (combDecay c P 1),
    comb dry (combDelay c P 2) (combDecay c P 2), comb dry (combDelay c P 3) (combDecay c P 3)]

/-- The comb sum `((c0 + c1) + c2) + c3`, frame by frame (46_reverb.md R236). -/
def combSum : List (List F64) → List F64
  | [c0, c1, c2, c3] => List.zipWith F64.add (List.zipWith F64.add (List.zipWith F64.add c0 c1) c2) c3
  | _ => []

/-- `((1.0 − mix) × dry) + (mix × combs)`, frame by frame (46_reverb.md R236). -/
def mixDry (mix : F64) (dry combs : List F64) : List F64 :=
  List.zipWith (fun d s => ((F64.one.sub mix).mul d).add (mix.mul s)) dry combs

/-- `p[i] + (k × p[j])` if index `j` is inside the buffer, else `p[i]` (46_reverb.md R237; 92_eei_decisions.md D35: "A term whose
index is outside [0, KERNEL−1] is skipped", log 19). -/
def allpassTerm (p : List F64) (k : F64) (i : Nat) (j : Int) : List F64 :=
  if 0 ≤ j ∧ j < (p.length : Int) then p.set i ((at' p i).add (k.mul (at' p j.toNat))) else p

/-- `allpass(p, D, a, L)`: both terms of each frame, ascending, in place (46_reverb.md R237). -/
def allpass (p : List F64) (D : Int) (a : F64) (L : Int) : List F64 :=
  forUpTo p.length (fun i p => allpassTerm (allpassTerm p a.neg i (i - D)) a i (i + L - D)) p

/-- The cascade: AP_STAGES stages with the same constants (46_reverb.md R238). -/
def allpassCascade (c : Config) (p : List F64) : List F64 :=
  forUpTo Config.apStages (fun _ p => allpass p (samplesOf c c.raw.apDelayMs) c.raw.apDecay c.raw.apLook) p

/-- The peak absolute value, by strict `>` from 0.0 (46_reverb.md R239). -/
def peak (p : List F64) : F64 := p.foldl (fun m x => if F64.lt m x.abs then x.abs else m) F64.zero

/-- Division by the peak, unless that is 0 (46_reverb.md R239). -/
def normalise (p : List F64) : List F64 :=
  if F64.eq (peak p) F64.zero then p else p.map fun x => x.div (peak p)

/-- PROC of a kernel run over a dry buffer and its combs (46_reverb.md R240). -/
def kernelProc (c : Config) (P : Vector ParamReg 12) (dry : List F64) (combs : List (List F64)) : List F64 :=
  normalise (allpassCascade c (mixDry (resolve P .reverbMix 0) dry (combSum combs)))

/-- The ring buffers and the kernel's buffers. -/
structure Engine where
  rbi : RingBuffer
  rbo : RingBuffer
  dry : List F64
  combs : List (List F64)
  proc : List F64
  deriving DecidableEq, Repr

/-- One kernel: a kernel's frames from RBI, `kernel()`, its output into RBO (46_reverb.md R240, R241). -/
def Engine.kernel (c : Config) (P : Vector ParamReg 12) (e : Engine) : Engine :=
  let dry := e.rbi.pulled c.raw.rbLen e.dry c.raw.kernel
  let combs := combBank c P dry
  let proc := kernelProc c P dry combs
  { rbi := e.rbi.afterPull c.raw.rbLen c.raw.kernel
    rbo := e.rbo.push c.raw.rbLen proc
    dry := dry
    combs := combs
    proc := proc }

/-- The engine once the quantum is pushed: a kernel runs if RBI holds a kernel's frames, at most one (46_reverb.md R241).
DEDUCED (log 31): where QUANTUM does not divide KERNEL, R241 need not give the full pulls and the one delay that R243 and
70_reset_and_hazards.md R326 state; R241 is followed. -/
def Engine.feed (c : Config) (P : Vector ParamReg 12) (cru : List F64) (e : Engine) : Engine :=
  let e := { e with rbi := e.rbi.push c.raw.rbLen cru }
  if c.raw.kernel ≤ e.rbi.avail then e.kernel c P else e

/-- OUT: pre-cleared, then filled from RBO (46_reverb.md R241). -/
def Engine.output (c : Config) (e : Engine) : List F64 :=
  e.rbo.pulled c.raw.rbLen (State.silence c.raw.quantum) c.raw.quantum

/-- The engine once OUT is pulled. -/
def Engine.drained (c : Config) (e : Engine) : Engine := { e with rbo := e.rbo.afterPull c.raw.rbLen c.raw.quantum }

end Sys2Proof.Machine
end

