-- ==== Sys2Proof/Machine/Oscillator.lean ====
section
/-! DEFINITION. The OscillatorEngine: pure functions of phase and parameters (43_oscillator.md). -/

namespace Sys2Proof.Machine

/-- `saw(p) = (2.0 × frac(p)) − 1.0` (43_oscillator.md R180). -/
def saw (p : F64) : F64 := (F64.two.mul p.frac).sub F64.one

/-- `square(p, pw)`: 1.0 if `frac(p) > pw`, else −1.0 (43_oscillator.md R182). -/
def square (p pw : F64) : F64 := if F64.lt pw p.frac then F64.one else F64.negOne

/-- `ex(pw) = LN(0.5) ÷ LN(pw)` (43_oscillator.md R183). -/
def warpExponent (T : Transc) (pw : F64) : F64 := (T.ln F64.half).div (T.ln pw)

/-- `wsaw(p, pw) = (2.0 × POW(frac(p), ex(pw))) − 1.0` (43_oscillator.md R183). -/
def wsaw (T : Transc) (p pw : F64) : F64 := (F64.two.mul (T.pow p.frac (warpExponent T pw))).sub F64.one

/-- `morph(p, sh, pw)` (43_oscillator.md R184). -/
def morph (T : Transc) (p sh pw : F64) : F64 :=
  if F64.lt sh F64.one then ((F64.one.sub sh).mul (wsaw T p pw)).add (sh.mul (saw p))
  else ((F64.two.sub sh).mul (saw p)).add ((sh.sub F64.one).mul (square p pw))

/-- `unison(p, s, sh, pw)` (43_oscillator.md R186); DEDUCED (log 32) where a detuned phase overflows. -/
def unison (T : Transc) (c : Config) (p s sh pw : F64) : F64 :=
  if F64.eq s F64.zero then morph T p sh pw
  else
    let r1 := F64.one.add (c.raw.detuneK.mul s)
    let r2 := F64.one.sub (c.raw.detuneK.mul s)
    (((morph T p sh pw).add (morph T (p.mul r1) sh pw)).add (morph T (p.mul r2) sh pw)).div F64.three

/-- `fastEnv(t) = EXP(−(t ÷ FAST_DECAY_S))` (43_oscillator.md R187); DEDUCED (log 32) where the quotient overflows. -/
def fastEnv (T : Transc) (c : Config) (t : F64) : F64 := T.exp (t.div c.raw.fastDecay).neg

/-- The played phase `phase × (1.0 + (pd × fastEnv(t)))` (43_oscillator.md R188). -/
def playedPhase (T : Transc) (c : Config) (phase pd t : F64) : F64 :=
  phase.mul (F64.one.add (pd.mul (fastEnv T c t)))

/-- `oscOut` for a stored phase, the parameters of a frame and the elapsed time (43_oscillator.md R189). -/
def oscOut (T : Transc) (c : Config) (phase pd s sh pw t : F64) : F64 :=
  unison T c (playedPhase T c phase pd t) s sh pw

end Sys2Proof.Machine
end

