-- ==== Sys2Proof/Machine/VoiceBank.lean ====
section
/-! DEFINITION. NOTEON, the trigger, the envelope and the per-frame synthesis (42_voicebank.md). -/

namespace Sys2Proof.Machine

/-- NOTEON: its own checks, then queued if there is room (42_voicebank.md R151). -/
def execNoteon (f u : F64) (s : State) : Result :=
  .next (if freqOk f then (if u.isNaN then s.reject .badNote else s.offer (.noteon f u)) else s.reject .badNote)

/-- Whether a voice already sounds a frequency (42_voicebank.md R152, R157). -/
def Voice.sounds (f : F64) (v : Voice) : Bool := v.active && F64.eq v.freq f

/-- The lowest voice that already sounds a frequency (42_voicebank.md R152). -/
def soundingVoice (f : F64) (vs : List Voice) : Option Nat := vs.findIdx? (Voice.sounds f)

/-- A re-trigger keeps `freq` and `active` (42_voicebank.md R152, R159). -/
def Voice.retrigger (g : F64) (clock : Word) (v : Voice) : Voice := { v with phase := F64.zero, trig := clock, vel := g }

/-- A new assignment, whatever the slot held (42_voicebank.md R152). -/
def Voice.assign (f g : F64) (clock : Word) (_old : Voice) : Voice := ⟨F64.zero, f, g, clock, true⟩

/-- The voices after a trigger (42_voicebank.md R152). -/
def triggeredVoices (f g : F64) (s : State) : List Voice :=
  match soundingVoice f s.voices with
  | some m => s.voices.modify m (Voice.retrigger g s.clock)
  | none => s.voices.modify s.cur (Voice.assign f g s.clock)

/-- `trigger(f, g)`: the cursor advances in both branches (42_voicebank.md R152). -/
def trigger (f g : F64) (s : State) : State :=
  { s with voices := triggeredVoices f g s, cur := (s.cur + 1) % s.cfg.raw.numVoices }

/-- Elapsed frames `(CLOCK + i − trig) mod 2^64` (42_voicebank.md R154). -/
def elapsedFrames (clock : Word) (i : Nat) (trig : Word) : Word := clock + BitVec.ofNat 64 i - trig

/-- Elapsed seconds `toF64(n) ÷ SAMPLE_RATE` (42_voicebank.md R154). -/
def elapsed (c : Config) (clock : Word) (i : Nat) (v : Voice) : F64 :=
  (F64.ofNat (elapsedFrames clock i v.trig).toNat).div c.raw.sampleRate

/-- `env(t, d) = EXP(−(t ÷ d))` (42_voicebank.md R153); DEDUCED (log 32) where the quotient overflows. -/
def env (T : Transc) (t d : F64) : F64 := T.exp (t.div d).neg

/-- What a voice adds to frame `i`: `(o × vel) × e` (42_voicebank.md R155). -/
def voiceTerm (T : Transc) (c : Config) (P : Vector ParamReg 12) (clock : Word) (i : Nat) (v : Voice) : F64 :=
  let t := elapsed c clock i v
  let o := oscOut T c v.phase (resolve P .phaseDrop i) (resolve P .detuneSpread i) (resolve P .shape i)
    (resolve P .pulseWidth i) t
  (o.mul v.vel).mul (env T t (resolve P .decay i))

/-- SYN[i]: the terms of the active voices, ascending index, from +0.0 (42_voicebank.md R155). -/
def sumVoices (T : Transc) (c : Config) (P : Vector ParamReg 12) (clock : Word) (i : Nat) (vs : List Voice) : F64 :=
  vs.foldl (fun acc v => if v.active then acc.add (voiceTerm T c P clock i v) else acc) F64.zero

/-- The phase advance of one voice: an inactive voice's phase stands (42_voicebank.md R155, R156). -/
def Voice.advance (c : Config) (v : Voice) : Voice :=
  if v.active then { v with phase := (v.phase.add (v.freq.div c.raw.sampleRate)).frac } else v

/-- The summed block and the voices after it. -/
structure Synth where
  syn : List F64
  voices : List Voice
  deriving DecidableEq, Repr

/-- `n` frames from frame `i` on: each is summed, then every active voice advances once (47_render.md R272). A voice's
term reads that voice alone, so the sum and the advances of one frame stand one after the other here. -/
def synthFrames (T : Transc) (c : Config) (P : Vector ParamReg 12) (clock : Word) : Nat → Nat → List Voice → Synth
  | 0, _, vs => ⟨[], vs⟩
  | n + 1, i, vs =>
    let rest := synthFrames T c P clock n (i + 1) (vs.map (Voice.advance c))
    ⟨sumVoices T c P clock i vs :: rest.syn, rest.voices⟩

end Sys2Proof.Machine
end

