-- ==== Sys2Proof/Machine/Render.lean ====
section
/-! DEFINITION. RENDER, from the drain to the output (47_render.md). -/

namespace Sys2Proof.Machine

/-- The drain part of one queued packet (47_render.md R271). -/
def applyQueued (s : State) : Queued → State
  | .noteon f u => trigger f (noteGain u) s
  | .paramK id x => writeK id x s
  | .paramA id xs => writeA id xs s

/-- The drain: every queued packet, in queue order (47_render.md R271). -/
def drain (s : State) : State := { s.cq.foldl applyQueued s with cq := [] }

/-- The start of a RENDER: its drain, which is in progress until `drainEnd` (20_memory.md R79, R81, log 3). -/
def renderStart (s : State) : State := { drain s with phase := .draining s.queueWords }

/-- SYN and the voices after it (47_render.md R272). -/
def State.synth (T : Transc) (s : State) : Synth :=
  synthFrames T s.cfg s.params s.clock s.cfg.raw.quantum 0 s.voices

/-- FLT and the cells after it (47_render.md R270). -/
def State.filtered (T : Transc) (s : State) (syn : List F64) : FilteredBlock :=
  filterFrames T s.cfg s.params syn 0 s.filter

/-- The reverb engine's part of the state. -/
def State.engine (s : State) : Engine := ⟨s.rbi, s.rbo, s.work.dry, s.work.combs, s.work.proc⟩

/-- The samples of C_OUT channels, each a copy of OUT, channel by channel (47_render.md R274, 30_encoding.md R109). -/
def planar (cOut : Nat) (out : List F64) : List Word := (List.replicate cOut (out.map F64.bits)).flatten

/-- The state after a RENDER whose stages gave these results: a-rate parameters reverted, the clock advanced, the answer
delivered with liveness 1 (47_render.md R270, R274 to R276), all but the commit. -/
def State.delivered (s : State) (sy : Synth) (fi : FilteredBlock) (cru out : List F64) (e : Engine) : State :=
  { s with
    voices := sy.voices
    filter := fi.cells
    rbi := e.rbi
    rbo := e.rbo
    work :=
      { syn := sy.syn
        flt := fi.flt
        cru := cru
        out := out
        dry := e.dry
        combs := e.combs
        proc := e.proc }
    params := s.params.map (ParamReg.revert s.cfg.raw.quantum)
    clock := s.clock + BitVec.ofNat 64 s.cfg.raw.quantum
    renderOut := some ⟨planar s.cfg.raw.cOut out, 1⟩
    phase := .idle }

/-- The render-committed status registers take their new values (47_render.md R275). -/
def State.commit (s : State) : State := { s with csr := s.toCommit }

/-- All of a RENDER after its drain (47_render.md R270). -/
def renderFinish (T : Transc) (s : State) : State :=
  let sy := s.synth T
  let fi := s.filtered T sy.syn
  let cru := crush s.params s.cfg.raw.quantum fi.flt
  let e := s.engine.feed s.cfg s.params cru
  (s.delivered sy fi cru (e.output s.cfg) (e.drained s.cfg)).commit

/-- RENDER with no transaction inside it. A request during a RENDER or a RESET is refused (47_render.md R270, R277). -/
def execRender (s : State) : Result :=
  if s.phase = .idle ∧ s.inReset = false then .next (renderFinish Config.transcendentals.toTransc (renderStart s))
  else .refused .renderOverlap

end Sys2Proof.Machine
end

