-- ==== Sys2Proof/Machine/Dispatch.lean ====
section
/-! DEFINITION. One arm per instruction. -/

namespace Sys2Proof.Machine

def exec (i : Instr) (s : State) : Host.Outcome State Fault Refusal :=
  match i with
  | .noteon f u => Sys2Proof.Machine.execNoteon f u s
  | .paramK id x => Sys2Proof.Machine.execParamK id x s
  | .paramA id xs => Sys2Proof.Machine.execParamA id xs s
  | .desc id => Sys2Proof.Machine.execDesc id s
  | .stat n => Sys2Proof.Machine.execStat n s
  | .render => Sys2Proof.Machine.execRender s

end Sys2Proof.Machine
end

