-- ==== Sys2Proof/Machine/Ports.lean ====
section
/-! DEFINITION. What the three ports do with an event of the outside agents (20_memory.md R71, log 2, log 3). -/

namespace Sys2Proof.Machine

/-- A transfer at a port: decoded, then run; a packet that does not decode is rejected (30_encoding.md R105). -/
def serveTransfer (t : Transfer) (s : State) : Result :=
  match decode s.cfg.raw.quantum t with
  | .ok i => exec i s
  | .error (.rejected c) => .next (s.reject c)
  | .error .emptyTransfer => .refused .emptyTransfer
  | .error .badRequest => .refused .badRenderRequest

/-- A transfer while RESET is asserted: a control transaction is not served and has no answer; a render request is refused
(70_reset_and_hazards.md R320, R321; 47_render.md R277; log 12). -/
def serveInReset (s : State) : Transfer → Result
  | .control _ => .next { s with controlOut := none }
  | .request _ => .refused .renderOverlap

/-- The host's request for a RENDER that control transactions may overlap (47_render.md R277, log 3). -/
def beginRender (req : Word) (s : State) : Result :=
  match decodeRequest s.cfg.raw.quantum req with
  | none => .refused .badRenderRequest
  | some _ => if s.phase = .idle ∧ s.inReset = false then .next (renderStart s) else .refused .renderOverlap

/-- The drain in progress is complete. -/
def endDrain (s : State) : Result :=
  match s.phase with
  | .draining _ => .next { s with phase := .rendering }
  | .idle => .refused .noRenderInProgress
  | .rendering => .refused .noRenderInProgress

/-- The RENDER in progress completes; a drain still in progress completes with it. -/
def endRender (s : State) : Result :=
  match s.phase with
  | .idle => .refused .noRenderInProgress
  | .draining _ => .next (renderFinish Config.transcendentals.toTransc s)
  | .rendering => .next (renderFinish Config.transcendentals.toTransc s)

/-- The host drives RESET (70_reset_and_hazards.md R320, R321): between RENDERs only; the state is the reset state
when the input is released, and until then as it was (DESIGN CHOICE, log 12). -/
def driveReset (asserted : Bool) (s : State) : Result :=
  match asserted with
  | true => if s.phase = .idle then .next { s with inReset := true } else .refused .resetDuringRender
  | false => .next (if s.inReset then s.resetAll else s)

/-- One event. -/
def serve (e : PortEvent) (s : State) : Result :=
  match e with
  | .transfer t => if s.inReset then serveInReset s t else serveTransfer t s
  | .renderBegin req => beginRender req s
  | .drainEnd => endDrain s
  | .renderEnd => endRender s
  | .resetLevel asserted => driveReset asserted s

end Sys2Proof.Machine
end

