-- ==== Sys2Proof/Machine/Step.lean ====
section
/-! DEFINITION. One step: the next event of the outside agents is served; with none the CORE does nothing (60_exceptions.md R302). -/

namespace Sys2Proof.Machine

/-- One step of the CORE. -/
def step (s : State) : Host.Outcome State Fault Refusal :=
  match s.inputs with
  | [] => .next s
  | e :: rest => serve e (s.pop rest)

/-- `s` with the transfer that carries an instruction's bits as the next event, RESET released so that it is served. -/
def State.withFetchWord (s : State) (nbits w : Nat) : State :=
  { s with
    inputs := .transfer (tableTransfer s.cfg.raw.quantum nbits w) :: s.inputs
    inReset := false }

end Sys2Proof.Machine
end

