-- ==== Sys2Proof/Safety.lean ====
section
/-! DEFINITION. What counts as a sound state: the invariants the spec gives the CORE (10_state.md R34, R38, R42, R44; 46_reverb.md
R243). Each is decidable, so that it can be checked of a state written out. -/

namespace Sys2Proof.Machine

/-- A legal value of a parameter: finite and within `[min(id), max(id)]` (10_state.md R38). -/
abbrev LegalValue (c : Config) (id : ParamId) (x : F64) : Prop :=
  x.isFinite = true ∧ F64.le id.min x = true ∧ F64.le x (id.max c) = true

/-- A parameter register: QUANTUM array elements, a legal k-rate value, and in mode A legal elements (10_state.md R38).
The array of a register in mode K is read by nothing (R39). -/
abbrev ParamReg.Sound (c : Config) (id : ParamId) (p : ParamReg) : Prop :=
  p.arr.length = c.raw.quantum ∧ LegalValue c id p.kval ∧ (p.mode = .a → ∀ x ∈ p.arr, LegalValue c id x)

/-- A queued packet is already validated (10_state.md R44). -/
def Queued.valid (c : Config) : Queued → Bool
  | .noteon f u => freqOk f && !u.isNaN
  | .paramK _ _ => true
  | .paramA _ xs => decide (xs.length = c.raw.quantum)

/-- A voice never triggered holds its reset value; a sounding one a finite positive frequency and a gain in [0, 1]
(10_state.md R34). -/
abbrev Voice.Sound (v : Voice) : Prop :=
  (v.active = false → v = Voice.idle) ∧
  (v.active = true → freqOk v.freq = true ∧ F64.le F64.zero v.vel = true ∧ F64.le v.vel F64.one = true)

/-- "no two active voices hold the same `freq`" (10_state.md R34). -/
abbrev DistinctNotes (vs : List Voice) : Prop :=
  vs.Pairwise fun v w => (v.active && w.active && F64.eq v.freq w.freq) = false

/-- `0 ≤ phase < 1` (10_state.md R34). -/
abbrev Voice.PhaseInRange (v : Voice) : Prop := F64.le F64.zero v.phase = true ∧ F64.lt v.phase F64.one = true

/-- A ring buffer: its memory canonical and inside the capacity, its indices in range, and `w = (r + avail) mod RB_LEN`
(10_state.md R42). -/
abbrev RingBuffer.Sound (len : Nat) (rb : RingBuffer) : Prop :=
  Memory.wf rb.data ∧ (∀ c ∈ rb.data, c.1 < len) ∧ rb.w < len ∧ rb.r < len ∧ rb.avail ≤ len ∧
    rb.w = (rb.r + rb.avail) % len

/-- The unread frames of a ring buffer, oldest first. -/
def RingBuffer.unread (len : Nat) (rb : RingBuffer) : List F64 := RingBuffer.frames len rb.data rb.avail rb.r

/-- CQ holds at most QCAP words, all of validated packets, and held no more when a drain in progress began (10_state.md R44). -/
abbrev QueueInv (s : State) : Prop :=
  s.queueWords ≤ s.cfg.raw.qcap ∧ s.phase.removing ≤ s.cfg.raw.qcap ∧ ∀ p ∈ s.cq, Queued.valid s.cfg p = true

/-- Every parameter register is sound (10_state.md R38). -/
abbrev ParamInv (s : State) : Prop :=
  QueueInv s ∧ ∀ k : Fin 12, ParamReg.Sound s.cfg (ParamId.ofIndex k) s.params[k]

/-- The voice register file and the cursor (10_state.md R33, R34, R37). -/
abbrev VoiceInv (s : State) : Prop :=
  QueueInv s ∧ s.voices.length = s.cfg.raw.numVoices ∧ s.cur < s.cfg.raw.numVoices ∧
    (∀ v ∈ s.voices, Voice.Sound v) ∧ DistinctNotes s.voices

/-- Every phase is in [0, 1) (10_state.md R34), for an instance whose rate is at least one frame a second (log 23). -/
abbrev PhaseInv (s : State) : Prop :=
  VoiceInv s ∧ F64.le F64.one s.cfg.raw.sampleRate = true ∧ ∀ v ∈ s.voices, Voice.PhaseInRange v

/-- Both ring buffers are sound (10_state.md R42). -/
abbrev RingInv (s : State) : Prop := RingBuffer.Sound s.cfg.raw.rbLen s.rbi ∧ RingBuffer.Sound s.cfg.raw.rbLen s.rbo

/-- Between RENDERs the two ring buffers together hold less than one kernel, so that no push overflows
(46_reverb.md R243). -/
abbrev OccupancyInv (s : State) : Prop :=
  s.rbi.avail + s.rbo.avail < s.cfg.raw.kernel ∧ s.work.dry.length = s.cfg.raw.kernel

end Sys2Proof.Machine
end

