-- ==== Sys2Proof/Certificates/Slice0/Obligations.lean ====
section
/-! DEFINITION. The statements for the provers. Each docstring names the rule or the section of spec/ it formalises. -/

open Sys2Proof Sys2Proof.Machine

/-! ### Encoding -/

/-- 30_encoding.md sections 1 to 3: every well-formed instruction, with every operand at every value its encoding admits, is
decoded from its own transfer, in every instance. -/
def Obligations.DecodeEncodeAgree : Prop :=
  ∀ (q : Nat) (i : Instr), i.wf q = true → decode q (encode q i) = .ok i

/-- 30_encoding.md sections 1 to 3: a transfer that decodes is the encoding of the instruction it decodes to, and of no
other; what decodes is well formed. -/
def Obligations.DecodedTransfersAreEncodings : Prop :=
  ∀ (q : Nat) (t : Transfer) (i : Instr), decode q t = .ok i → i.wf q = true ∧ encode q i = t

/-- 95_test_vectors.md sections 2.1, 2.2 and 3: words written out in the spec decode to the instructions it says; the DESC word of
every parameter id (41_parameters.md R130) and the STAT word of every status index (10_state.md R46). -/
def Obligations.SpecWordsDecode : Prop :=
  ((List.range 12).map (fun k => decode 128 (.control [BitVec.ofNat 64 (3 * 2 ^ 56 + k * 2 ^ 48)])) =
    [.decay, .shape, .pulseWidth, .detuneSpread, .phaseDrop, .lpCutoff, .hpCutoff, .satGain, .crushFactor, .reverbMix,
      .reverbDelayMs, .reverbDecay].map (fun id => .ok (.desc id))) ∧
  ((List.range 15).map (fun k => decode 128 (.control [BitVec.ofNat 64 (4 * 2 ^ 56 + k * 2 ^ 48)])) =
    [.id, .clock, .cursor, .nvoices, .srate, .quantum, .kernel, .rblen, .cout, .qcap, .qused, .rejects, .rbiAvail, .rboAvail,
      .nactive].map (fun n => .ok (.stat n))) ∧
  decode 128 (.control [0x0100000000000002, 0x407B800000000000, 0x3FF0000000000000])
      = .ok (.noteon ⟨0x407B800000000000⟩ ⟨0x3FF0000000000000⟩) ∧
  decode 128 (.control [0x0205000000000001, 0x408F400000000000]) = .ok (.paramK .lpCutoff ⟨0x408F400000000000⟩) ∧
  decode 4 (.control [0x0201000000000004, 0, 0x3FE0000000000000, 0x3FF0000000000000, 0x4000000000000000])
      = .ok (.paramA .shape [⟨0⟩, ⟨0x3FE0000000000000⟩, ⟨0x3FF0000000000000⟩, ⟨0x4000000000000000⟩]) ∧
  decode 128 (.control [0x0301000000000000]) = .ok (.desc .shape) ∧
  decode 128 (.control [0x040B000000000000]) = .ok (.stat .rejects) ∧
  decode 128 (.request 0x0000000000000080) = .ok .render ∧
  decode 128 (.control [0x0500000100000002, 0, 0]) = .error (.rejected .badOpcode) ∧
  decode 128 (.control [0x0103000000000002, 0x407B800000000000, 0x3FF0000000000000]) = .error (.rejected .badReserved) ∧
  decode 128 (.control [0x020C000000000003, 0, 0, 0]) = .error (.rejected .badLength) ∧
  decode 128 (.control [0x020C000000000001, 0]) = .error (.rejected .badIndex)

/-- 30_encoding.md section 2 (R105, less the checks that are a command's own): the code of a malformed packet, with the
header's fields read arithmetically, in the order BAD_OPCODE, BAD_RESERVED, BAD_LENGTH, BAD_INDEX; a packet that passes decodes. -/
def Obligations.MalformedPacketCodes : Prop :=
  ∀ (q : Nat) (hdr : Word) (payload : List Word),
    let op := hdr.toNat / 2 ^ 56
    let idx := hdr.toNat / 2 ^ 48 % 2 ^ 8
    let rsvd := hdr.toNat / 2 ^ 32 % 2 ^ 16
    let len := hdr.toNat % 2 ^ 32
    let opOk := 1 ≤ op ∧ op ≤ 4
    let rsvdOk := rsvd = 0 ∧ (op = 1 → idx = 0)
    let lenOk := payload.length = len ∧ (op = 1 → len = 2) ∧ (op = 2 → len = 1 ∨ len = q) ∧ (3 ≤ op → len = 0)
    let idxOk := (op = 2 ∨ op = 3 → idx ≤ 11) ∧ (op = 4 → idx ≤ 14)
    let d := decode q (.control (hdr :: payload))
    (¬opOk → d = .error (.rejected .badOpcode)) ∧
    (opOk → ¬rsvdOk → d = .error (.rejected .badReserved)) ∧
    (opOk → rsvdOk → ¬lenOk → d = .error (.rejected .badLength)) ∧
    (opOk → rsvdOk → lenOk → ¬idxOk → d = .error (.rejected .badIndex)) ∧
    (opOk → rsvdOk → lenOk → idxOk → ∃ i, d = .ok i)

/-- 60_exceptions.md section 1 and 30_encoding.md section 3: the numbers of the result codes in the result word. -/
def Obligations.ResultCodeNumbers : Prop :=
  Code.accepted.word = 0 ∧ Code.full.word = 1 ∧ Code.badOpcode.word = 2 ∧ Code.badReserved.word = 3 ∧
    Code.badLength.word = 4 ∧ Code.badIndex.word = 5 ∧ Code.badNote.word = 6

/-! ### The step and the control port -/

/-- 20_memory.md section 1 (R71): a transfer that decodes is run, once it is taken from the outside agents' list. -/
def Obligations.StepRunsDecodedInstruction : Prop :=
  ∀ (s : State) (t : Transfer) (rest : List PortEvent) (i : Instr),
    s.inReset = false → s.inputs = .transfer t :: rest → decode s.cfg.raw.quantum t = .ok i →
      step s = exec i { s with inputs := rest, freeIdx := s.freeIdx + 1 }

/-- 60_exceptions.md section 2 (R302): with no event nothing happens and all state is kept. -/
def Obligations.IdleKeepsState : Prop :=
  ∀ s : State, s.inputs = [] → step s = .next s

/-- R293. A rejection, for whatever cause (malformed packet, BAD_NOTE, FULL), counts in REJECTS and answers its code; every
other piece of the CORE's state is as it was. The words the space check counts, `occupied`, are CQ's, and during a drain a free
value (log 4). -/
def Obligations.RejectionRecordsOnlyRejects : Prop :=
  (∀ (s : State) (words : List Word) (rest : List PortEvent) (c : Code),
    s.inReset = false → s.inputs = .transfer (.control words) :: rest →
      decode s.cfg.raw.quantum (.control words) = .error (.rejected c) →
        step s = .next { s with
          inputs := rest
          freeIdx := s.freeIdx + 1
          rejects := s.rejects + 1
          controlOut := some ⟨c.word, []⟩ }) ∧
  (∀ (s : State) (f u : F64),
    (f.isNaN = true ∨ f.isInf = true ∨ F64.le f F64.zero = true ∨ u.isNaN = true) →
      exec (.noteon f u) s = .next { s with rejects := s.rejects + 1, controlOut := some ⟨6, []⟩ }) ∧
  (∀ (s : State) (f u : F64), freqOk f = true → u.isNaN = false → s.cfg.raw.qcap < s.occupied + 3 →
      exec (.noteon f u) s = .next { s with rejects := s.rejects + 1, controlOut := some ⟨1, []⟩ }) ∧
  (∀ (s : State) (id : ParamId) (x : F64), s.cfg.raw.qcap < s.occupied + 2 →
      exec (.paramK id x) s = .next { s with rejects := s.rejects + 1, controlOut := some ⟨1, []⟩ }) ∧
  (∀ (s : State) (id : ParamId) (xs : List F64), s.cfg.raw.qcap < s.occupied + (1 + xs.length) →
      exec (.paramA id xs) s = .next { s with rejects := s.rejects + 1, controlOut := some ⟨1, []⟩ })

/-- 42_voicebank.md section 1 (R151, control-port part): a finite frequency above 0, a velocity that is no NaN and three free words:
the packet is queued and ACCEPTED, and nothing else changes (`occupied` during a drain: log 4). -/
def Obligations.NoteonIsQueued : Prop :=
  ∀ (s : State) (f u : F64),
    f.isFinite = true → F64.lt F64.zero f = true → u.isNaN = false → s.occupied + 3 ≤ s.cfg.raw.qcap →
      exec (.noteon f u) s = .next { s with cq := s.cq ++ [.noteon f u], controlOut := some ⟨0, []⟩ }

/-- 41_parameters.md section 2 (R132, control-port part): with two free words any value is queued and ACCEPTED
(`occupied` during a drain: log 4). -/
def Obligations.ParamKIsQueued : Prop :=
  ∀ (s : State) (id : ParamId) (x : F64), s.occupied + 2 ≤ s.cfg.raw.qcap →
    exec (.paramK id x) s = .next { s with cq := s.cq ++ [.paramK id x], controlOut := some ⟨0, []⟩ }

/-- 41_parameters.md section 2 (R133, control-port part): with room for the header and the values the packet is queued and
ACCEPTED (`occupied` during a drain: log 4). -/
def Obligations.ParamAIsQueued : Prop :=
  ∀ (s : State) (id : ParamId) (xs : List F64), s.occupied + (1 + xs.length) ≤ s.cfg.raw.qcap →
    exec (.paramA id xs) s = .next { s with cq := s.cq ++ [.paramA id xs], controlOut := some ⟨0, []⟩ }

/-- 41_parameters.md section 2 (R136): DESC answers ACCEPTED and default, min, max in every state, and changes nothing but the
answer. -/
def Obligations.DescAnswersDescriptor : Prop :=
  ∀ (s : State) (id : ParamId),
    exec (.desc id) s = .next { s with
      controlOut := some ⟨0, [(id.default s.cfg).bits, id.min.bits, (id.max s.cfg).bits]⟩ }

/-- 41_parameters.md section 2 (R137) with 10_state.md section 9 (R46): STAT answers ACCEPTED and the register, in every state, and
changes nothing but the answer; all fifteen registers. That a size or a count of 2^64 or more reads modulo 2^64 is the model's
choice (log 14, DESIGN CHOICE). -/
def Obligations.StatAnswersRegister : Prop :=
  ∀ s : State,
    let answers := fun (n : StatReg) (w : Word) => exec (.stat n) s = .next { s with controlOut := some ⟨0, [w]⟩ }
    answers .id 0x00005354524E0007 ∧
    answers .clock s.csr.clock ∧
    answers .cursor s.csr.cursor ∧
    answers .nvoices (BitVec.ofNat 64 s.cfg.raw.numVoices) ∧
    answers .srate s.cfg.raw.sampleRate.bits ∧
    answers .quantum (BitVec.ofNat 64 s.cfg.raw.quantum) ∧
    answers .kernel (BitVec.ofNat 64 s.cfg.raw.kernel) ∧
    answers .rblen (BitVec.ofNat 64 s.cfg.raw.rbLen) ∧
    answers .cout (BitVec.ofNat 64 s.cfg.raw.cOut) ∧
    answers .qcap (BitVec.ofNat 64 s.cfg.raw.qcap) ∧
    answers .qused (BitVec.ofNat 64 s.qused) ∧
    answers .rejects s.rejects ∧
    answers .rbiAvail s.csr.rbiAvail ∧
    answers .rboAvail s.csr.rboAvail ∧
    answers .nactive s.csr.nactive

/-- 60_exceptions.md section 2 (R299): the frame of the five commands of the control port. Whatever they answer, every voice,
parameter, filter cell, ring buffer, memory cell, clock, render-committed status register and output stays as it was. That
the working buffers are kept too is the model's choice (log 10, DESIGN CHOICE). -/
def Obligations.ControlCommandsLeaveRenderState : Prop :=
  ∀ (s t : State) (i : Instr), i ≠ .render → exec i s = .next t →
    t.cfg = s.cfg ∧ t.voices = s.voices ∧ t.cur = s.cur ∧ t.clock = s.clock ∧ t.params = s.params ∧ t.filter = s.filter ∧
    t.rbi = s.rbi ∧ t.rbo = s.rbo ∧ t.csr = s.csr ∧ t.work = s.work ∧ t.phase = s.phase ∧ t.inReset = s.inReset ∧
    t.renderOut = s.renderOut ∧ t.inputs = s.inputs ∧ t.freeIdx = s.freeIdx ∧
    (∀ a : Nat, Memory.read t.rbi.data a = Memory.read s.rbi.data a) ∧
    (∀ a : Nat, Memory.read t.rbo.data a = Memory.read s.rbo.data a)

/-- R277. A render request word other than `zext_64(QUANTUM)`, and a render request during a RENDER or a RESET, is refused, as a
whole RENDER and as the beginning of one. -/
def Obligations.OtherRenderRequestsAreRefused : Prop :=
  ∀ (s : State) (req : Word) (rest : List PortEvent),
    (s.inputs = .transfer (.request req) :: rest ∨ s.inputs = .renderBegin req :: rest) →
      (req.toNat ≠ s.cfg.raw.quantum ∨ 2 ^ 32 ≤ req.toNat ∨ s.phase ≠ .idle ∨ s.inReset = true) →
        ∃ r, step s = .refused r

/-! ### RENDER -/

/-- 47_render.md (R274 to R276) and 30_encoding.md section 3 (R109): with no RENDER in progress and RESET released, RENDER
completes: every word of every channel is written with OUT, liveness is 1, CLOCK advances by QUANTUM, the queue is empty and the
render-committed registers take the new values. That CURSOR, RBI_AVAIL, RBO_AVAIL and NACTIVE take them modulo 2^64 is the
model's choice (log 14, DESIGN CHOICE). -/
def Obligations.RenderCompletes : Prop :=
  ∀ s : State, s.phase = .idle → s.inReset = false →
    ∃ t r, exec .render s = .next t ∧
      t.work.out.length = s.cfg.raw.quantum ∧
      t.renderOut = some r ∧ r.liveness = 1 ∧
      r.samples.length = s.cfg.raw.cOut * s.cfg.raw.quantum ∧
      (∀ c i, c < s.cfg.raw.cOut → i < s.cfg.raw.quantum →
        r.samples[c * s.cfg.raw.quantum + i]? = (t.work.out[i]?).map F64.bits) ∧
      t.clock = s.clock + BitVec.ofNat 64 s.cfg.raw.quantum ∧
      t.cq = [] ∧ t.phase = .idle ∧
      t.csr = {
        clock := t.clock
        cursor := BitVec.ofNat 64 t.cur
        rbiAvail := BitVec.ofNat 64 t.rbi.avail
        rboAvail := BitVec.ofNat 64 t.rbo.avail
        nactive := BitVec.ofNat 64 (t.voices.filter Voice.active).length }

/-- R135. After a RENDER no parameter is a-rate: one that was, once drained, holds its array's last element, and one that was
k-rate is unchanged. Every stage up to the reverb read the registers as the drain left them. -/
def Obligations.RenderRevertsParameters : Prop :=
  ∀ s : State, s.phase = .idle → s.inReset = false →
    ∃ t, exec .render s = .next t ∧ ∀ id : ParamId,
      (((drain s).param id).mode = .a →
        t.param id = { (drain s).param id with
          mode := .k
          kval := at' ((drain s).param id).arr (s.cfg.raw.quantum - 1) }) ∧
      (((drain s).param id).mode = .k → t.param id = (drain s).param id) ∧
      t.work.syn = (synthFrames Config.transcendentals.toTransc s.cfg (drain s).params s.clock s.cfg.raw.quantum 0
        (drain s).voices).syn ∧
      t.work.flt = (filterFrames Config.transcendentals.toTransc s.cfg (drain s).params t.work.syn 0 s.filter).flt ∧
      t.work.cru = crush (drain s).params s.cfg.raw.quantum t.work.flt ∧
      t.work.out = (s.engine.feed s.cfg (drain s).params t.work.cru).output s.cfg

/-- R273. The effect chain of a RENDER, on the state its drain leaves: FilterStage over SYN, Bitcrusher over FLT, ReverbEngine over
CRU, and no other path to OUT. -/
def Obligations.RenderChainsTheStages : Prop :=
  ∀ s : State, s.phase = .idle → s.inReset = false →
    ∃ t, exec .render s = .next t ∧
      t.work.syn = ((drain s).synth Config.transcendentals.toTransc).syn ∧
      t.work.flt = (filterFrames Config.transcendentals.toTransc s.cfg (drain s).params t.work.syn 0 s.filter).flt ∧
      t.filter = (filterFrames Config.transcendentals.toTransc s.cfg (drain s).params t.work.syn 0 s.filter).cells ∧
      t.work.cru = crush (drain s).params s.cfg.raw.quantum t.work.flt ∧
      t.work.out = (s.engine.feed s.cfg (drain s).params t.work.cru).output s.cfg

/-- 47_render.md section R270 ("State written"): the frame of RENDER. Nothing of the control port's state but the queue changes, the
cursor is as the drain leaves it, and of a voice only the phase changes after the drain: the voices are those that the synthesis
(SynthesisSumsEachFrame) leaves, every active voice's phase advanced once a frame (R272; 42_voicebank.md R156). -/
def Obligations.RenderLeavesControlState : Prop :=
  ∀ s t : State, exec .render s = .next t →
    t.cfg = s.cfg ∧ t.rejects = s.rejects ∧ t.inReset = s.inReset ∧ t.controlOut = s.controlOut ∧ t.inputs = s.inputs ∧
    t.freeIdx = s.freeIdx ∧ t.phase = s.phase ∧ t.cur = (drain s).cur ∧
    t.voices = (synthFrames Config.transcendentals.toTransc s.cfg (drain s).params s.clock s.cfg.raw.quantum 0
      (drain s).voices).voices ∧
    t.voices = (List.map fun v : Voice =>
        if v.active then { v with phase := (v.phase.add (v.freq.div s.cfg.raw.sampleRate)).frac }
        else v)^[s.cfg.raw.quantum] (drain s).voices ∧
    t.voices.map (fun v => (v.freq, v.vel, v.trig, v.active)) =
      (drain s).voices.map (fun v => (v.freq, v.vel, v.trig, v.active)) ∧
    (∀ (i : Nat) (v : Voice), (drain s).voices[i]? = some v → v.active = false → t.voices[i]? = some v)

/-- 46_reverb.md sections 1 and 4: the memory frame of RENDER. RBI's cells change only among the QUANTUM from its write index, RBO's only
among the KERNEL from its write index and only if a kernel runs. That DRY, COMB and PROC are kept when no kernel runs is the model's
choice (log 10, DESIGN CHOICE). -/
def Obligations.RenderWritesOnlyPushedCells : Prop :=
  ∀ s t : State, RingInv s → s.work.dry.length = s.cfg.raw.kernel → exec .render s = .next t →
    (∀ a : Nat, (∀ k < s.cfg.raw.quantum, a ≠ (s.rbi.w + k) % s.cfg.raw.rbLen) →
      Memory.read t.rbi.data a = Memory.read s.rbi.data a) ∧
    (∀ a : Nat, s.cfg.raw.kernel ≤ s.rbi.avail + s.cfg.raw.quantum →
      (∀ k < s.cfg.raw.kernel, a ≠ (s.rbo.w + k) % s.cfg.raw.rbLen) →
        Memory.read t.rbo.data a = Memory.read s.rbo.data a) ∧
    (s.rbi.avail + s.cfg.raw.quantum < s.cfg.raw.kernel →
      (∀ a : Nat, Memory.read t.rbo.data a = Memory.read s.rbo.data a) ∧
      t.work.dry = s.work.dry ∧ t.work.combs = s.work.combs ∧ t.work.proc = s.work.proc)

/-! ### The drain -/

/-- 20_memory.md section 3 (R78) and 47_render.md (R271): the head packet is applied first, and every later packet sees its effects. -/
def Obligations.DrainAppliesInOrder : Prop :=
  ∀ (s : State) (p : Queued) (ps : List Queued), s.cq = p :: ps →
    drain s = drain { applyQueued { s with cq := [] } p with cq := ps }

/-- R152. The drain of a NOTEON: the lowest active voice of that frequency is triggered again, else the voice at CUR is taken
whatever it holds; the gain is the square of the clamped velocity; the cursor advances in both branches; nothing else changes. -/
def Obligations.DrainedNoteTriggers : Prop :=
  ∀ (s : State) (f u : F64), s.cq = [.noteon f u] →
    let x := F64.clamp u F64.zero F64.one
    let next := (s.cur + 1) % s.cfg.raw.numVoices
    (∀ (m : Nat) (v : Voice), s.voices[m]? = some v → v.active = true → F64.eq v.freq f = true →
      (∀ (j : Nat) (w : Voice), j < m → s.voices[j]? = some w → w.active = true → F64.eq w.freq f = false) →
        drain s = { s with
          cq := []
          cur := next
          voices := s.voices.set m { v with phase := F64.zero, trig := s.clock, vel := x.mul x } }) ∧
    ((∀ v ∈ s.voices, v.active = true → F64.eq v.freq f = false) →
        drain s = { s with
          cq := []
          cur := next
          voices := s.voices.set s.cur ⟨F64.zero, f, x.mul x, s.clock, true⟩ })

/-- 41_parameters.md section 2 (R132, drain part) and section 3 (R138): a k-rate PARAM writes mode and k-rate value of its own register,
leaves its array, and leaves every other register and every other piece of state. -/
def Obligations.DrainedParamKWrites : Prop :=
  ∀ (s : State) (id : ParamId) (x : F64), s.cq = [.paramK id x] →
    drain s = { s with cq := [], params := (drain s).params } ∧
    (drain s).param id = ⟨.k, id.norm s.cfg x, (s.param id).arr⟩ ∧
    ∀ other : ParamId, other ≠ id → (drain s).param other = s.param other

/-- 41_parameters.md section 2 (R133, drain part) and section 3 (R138): an a-rate PARAM writes mode and array of its own register, each
element normalised, leaves its k-rate value, and leaves every other register and every other piece of state. -/
def Obligations.DrainedParamAWrites : Prop :=
  ∀ (s : State) (id : ParamId) (xs : List F64), s.cq = [.paramA id xs] →
    drain s = { s with cq := [], params := (drain s).params } ∧
    (drain s).param id = ⟨.a, (s.param id).kval, xs.map (id.norm s.cfg)⟩ ∧
    ∀ other : ParamId, other ≠ id → (drain s).param other = s.param other

/-! ### Parameters -/

/-- R131. Normalisation answers a legal value; a NaN becomes the default; a value below the minimum or above the maximum that bound, an
infinity too; a value within the bounds (−0.0 included) is unchanged. -/
def Obligations.NormalisedValuesAreLegal : Prop :=
  ∀ (c : Config) (id : ParamId) (x : F64),
    LegalValue c id (id.norm c x) ∧
    (x.isNaN = true → id.norm c x = id.default c) ∧
    (x.isInf = true → id.norm c x = if x.sign then id.min else id.max c) ∧
    (F64.lt x id.min = true → id.norm c x = id.min) ∧
    (F64.lt (id.max c) x = true → id.norm c x = id.max c) ∧
    (F64.le id.min x = true → F64.le x (id.max c) = true → id.norm c x = x)

/-- 41_parameters.md section 2 (R134): resolution is a lookup: the k-rate value in mode K, the frame's element in mode A, no interpolation, and always legal. -/
def Obligations.ResolvedValuesAreLegal : Prop :=
  ∀ (s : State) (id : ParamId) (i : Nat), ParamInv s → i < s.cfg.raw.quantum →
    ((s.param id).mode = .k → resolve s.params id i = (s.param id).kval) ∧
    ((s.param id).mode = .a → (s.param id).arr[i]? = some (resolve s.params id i)) ∧
    LegalValue s.cfg id (resolve s.params id i)

/-- 41_parameters.md section 1 (R130): the parameter table, as default, minimum and maximum of ids 0 to 11 in every instance, NYQ half its
rate; it is consistent (R130, last sentence before its decision). -/
def Obligations.DescriptorsAreConsistent : Prop :=
  (∀ c : Config,
    let nyq := (c.raw.sampleRate.mul F64.half).bits
    (List.finRange 12).map (fun k => let id := ParamId.ofIndex k; ((id.default c).bits, id.min.bits, (id.max c).bits)) =
      [(0x3FD0000000000000, 0x3F50624DD2F1A9FC, 0x4024000000000000), (0x3FF0000000000000, 0, 0x4000000000000000),
        (0x3FE0000000000000, 0x3F847AE147AE147B, 0x3FEFAE147AE147AE), (0, 0, 0x3FF0000000000000), (0, 0, 0x4024000000000000),
        (nyq, 0, nyq), (0, 0, nyq), (0x3FF0000000000000, 0, 0x4059000000000000),
        (0x3FF0000000000000, 0x3FF0000000000000, 0x4060000000000000), (0, 0, 0x3FF0000000000000),
        (0x403E000000000000, 0x3FF0000000000000, 0x4059000000000000), (0x3FE0000000000000, 0, 0x3FEE666666666666)]) ∧
  ∀ (c : Config) (id : ParamId),
    id.min.isFinite = true ∧ (id.default c).isFinite = true ∧ (id.max c).isFinite = true ∧
    F64.le id.min (id.default c) = true ∧ F64.le (id.default c) (id.max c) = true

/-! ### Invariants that every step keeps -/

/-- 10_state.md section 8 (R44): CQ never holds more than QCAP words, and only validated packets. -/
def Obligations.StepKeepsQueueInv : Prop :=
  ∀ s t : State, QueueInv s → step s = .next t → QueueInv t

/-- 10_state.md section 5 (R38): every stored parameter value stays finite and within its bounds. -/
def Obligations.StepKeepsParamInv : Prop :=
  ∀ s t : State, ParamInv s → step s = .next t → ParamInv t

/-- 10_state.md section 3 (R34, less the phase) and section 4 (R37): the voice register file and the cursor. -/
def Obligations.StepKeepsVoiceInv : Prop :=
  ∀ s t : State, VoiceInv s → step s = .next t → VoiceInv t

/-- 10_state.md section 3 (R34, the phase) and 42_voicebank.md section 3 (R156): every phase stays in [0, 1), in an instance
whose SAMPLE_RATE is at least 1 (log 23). -/
def Obligations.StepKeepsPhaseInv : Prop :=
  ∀ s t : State, PhaseInv s → step s = .next t → PhaseInv t

/-- 10_state.md section 7 (R42): both ring buffers stay within their capacity, their indices consistent and their memory
canonical. -/
def Obligations.StepKeepsRingInv : Prop :=
  ∀ s t : State, RingInv s → step s = .next t → RingInv t

/-- 46_reverb.md section 4 (R243): the two ring buffers together hold less than one kernel between RENDERs, so no push overflows. -/
def Obligations.StepKeepsOccupancyInv : Prop :=
  ∀ s t : State, OccupancyInv s → step s = .next t → OccupancyInv t

/-- 70_reset_and_hazards.md section 1 (R320): the reset state of every instance meets every invariant. -/
def Obligations.ResetMeetsInvariants : Prop :=
  ∀ c : Config,
    ParamInv (State.ofConfig c) ∧ VoiceInv (State.ofConfig c) ∧ RingInv (State.ofConfig c) ∧ OccupancyInv (State.ofConfig c) ∧
    (F64.le F64.one c.raw.sampleRate = true → PhaseInv (State.ofConfig c))

/-- 10_state.md section 1 (R31) and 00_scope.md section 3 (R6): no step changes the configuration. -/
def Obligations.ConfigurationNeverChanges : Prop :=
  ∀ s t : State, step s = .next t → t.cfg = s.cfg

/-- 42_voicebank.md section 4 (R158, first clause): no step but the release of RESET makes an active voice inactive. That the
assertion of RESET does not is the model's choice (log 12, DESIGN CHOICE): R158 excepts RESET, and R320 fixes the state at the release. -/
def Obligations.VoicesStayActive : Prop :=
  ∀ s t : State, step s = .next t → (∀ rest, s.inputs ≠ .resetLevel false :: rest) →
    ∀ (i : Nat) (v : Voice), s.voices[i]? = some v → v.active = true →
      ∃ w, t.voices[i]? = some w ∧ w.active = true

/-! ### Overlap of the control port with a RENDER -/

/-- 20_memory.md section 3 (R80): from the end of the drain to the end of the RENDER no step but the RENDER's own end changes a
parameter register, voice, cursor, filter cell, ring buffer or the clock; and a control transaction does not change what the
RENDER then does or answers, which is the spec's own inference ("derived: from rule R79 and rule R78"). -/
def Obligations.OverlapLeavesRenderOutput : Prop :=
  (∀ (s t : State) (e : PortEvent) (rest : List PortEvent),
    s.phase = .rendering → s.inReset = false → s.inputs = e :: rest → e ≠ .renderEnd → step s = .next t →
      t.params = s.params ∧ t.voices = s.voices ∧ t.cur = s.cur ∧ t.filter = s.filter ∧ t.rbi = s.rbi ∧ t.rbo = s.rbo ∧
      t.clock = s.clock ∧ t.phase = s.phase) ∧
  (∀ (T : Transc) (s t : State) (words : List Word),
    serve (.transfer (.control words)) s = .next t →
      renderFinish T t =
        { renderFinish T s with cq := t.cq, rejects := t.rejects, controlOut := t.controlOut })

/-- The model's own account of a RENDER in stages (log 3, DESIGN CHOICE): with no transaction between, begin, end of drain and end
do what RENDER does in one step, but for the counter of the free values. -/
def Obligations.StagedRenderAgrees : Prop :=
  ∀ (s : State) (req : Word) (rest : List PortEvent),
    decodeRequest s.cfg.raw.quantum req = some .render → s.phase = .idle → s.inReset = false →
      ∃ t u,
        Host.Core.run core 3 { s with inputs := .renderBegin req :: .drainEnd :: .renderEnd :: rest } = .next t ∧
        step { s with inputs := .transfer (.request req) :: rest } = .next u ∧
        t = { u with freeIdx := s.freeIdx + 3 }

/-- 20_memory.md section 3 (R81, render-committed registers): they change only when a RENDER completes or RESET is released.
That the assertion of RESET does not change them is the model's choice (log 12, DESIGN CHOICE). -/
def Obligations.CommittedRegistersChangeAtRenderEnd : Prop :=
  ∀ (s t : State) (e : PortEvent) (rest : List PortEvent), s.inputs = e :: rest → step s = .next t →
    (∀ w, e ≠ .transfer (.request w)) → e ≠ .renderEnd → e ≠ .resetLevel false →
      t.csr = s.csr

/-- 20_memory.md section 3 (R81) and 10_state.md section 8 (R44): outside a drain QUSED and the words the space check counts are the
words in CQ; during one QUSED lies between the words before it and those accepted since, and the space check counts those accepted
since and no more than the drain found beside them; neither is ever above QCAP. It holds of every value of the model's counter of
free values (log 4). -/
def Obligations.QueueReadBounds : Prop :=
  ∀ s : State,
    let words := (s.cq.map Queued.size).sum
    ((s.phase = .idle ∨ s.phase = .rendering) → s.qused = words ∧ s.occupied = words) ∧
    (∀ n, s.phase = .draining n →
      min n words ≤ s.qused ∧ s.qused ≤ max n words ∧ words ≤ s.occupied ∧ s.occupied ≤ words + n) ∧
    (QueueInv s → s.qused ≤ s.cfg.raw.qcap ∧ s.occupied ≤ s.cfg.raw.qcap)

/-! ### RESET -/

/-- 70_reset_and_hazards.md section 1 (R320, the release; the values are those of 10_state.md R35 to R46, the working buffers and the last
answers the model's, log 10, log 11): released, the input leaves the reset state, and what that is. -/
def Obligations.ResetRestoresEveryValue : Prop :=
  ∀ (s : State) (rest : List PortEvent), s.inputs = .resetLevel false :: rest → s.inReset = true →
    ∃ t, step s = .next t ∧ t.inReset = false ∧ t.phase = .idle ∧ t.cfg = s.cfg ∧ t.inputs = rest ∧
      t.voices = List.replicate s.cfg.raw.numVoices ⟨F64.zero, F64.zero, F64.zero, 0, false⟩ ∧
      t.cur = 0 ∧ t.clock = 0 ∧
      (∀ id : ParamId, t.param id = ⟨.k, id.default s.cfg, List.replicate s.cfg.raw.quantum F64.zero⟩) ∧
      t.filter = ⟨F64.zero, F64.zero⟩ ∧
      t.rbi = ⟨[], 0, 0, 0⟩ ∧ t.rbo = ⟨[], 0, 0, 0⟩ ∧ (∀ a, Memory.read t.rbi.data a = F64.zero) ∧
      t.cq = [] ∧ t.rejects = 0 ∧ t.csr = ⟨0, 0, 0, 0, 0⟩ ∧
      t = { State.ofConfig s.cfg with inputs := rest, freeIdx := s.freeIdx + 1 }

/-- 70_reset_and_hazards.md section 1 (R320, R321): while RESET is asserted a control transfer is not served (that its answer is
none is the model's, log 12); RESET during a RENDER is refused; asserted between RENDERs, RESET leaves every piece of state as it
was until the release (the model's choice, log 12: R320 fixes the state only at the release). -/
def Obligations.AssertedResetServesNothing : Prop :=
  (∀ (s : State) (words : List Word) (rest : List PortEvent),
    s.inputs = .transfer (.control words) :: rest → s.inReset = true →
      step s = .next { s with inputs := rest, freeIdx := s.freeIdx + 1, controlOut := none }) ∧
  (∀ (s : State) (rest : List PortEvent), s.inputs = .resetLevel true :: rest → s.phase ≠ .idle →
      step s = .refused .resetDuringRender) ∧
  (∀ (s : State) (rest : List PortEvent), s.inputs = .resetLevel true :: rest → s.phase = .idle →
      step s = .next { s with inputs := rest, freeIdx := s.freeIdx + 1, inReset := true })

/-! ### Voices and oscillator -/

/-- 42_voicebank.md section 1 (R150): the gain of any velocity that is a number is in [0, 1]. -/
def Obligations.NoteGainInUnitInterval : Prop :=
  ∀ u : F64, u.isNaN = false →
    noteGain u = (F64.clamp u F64.zero F64.one).mul (F64.clamp u F64.zero F64.one) ∧
    F64.le F64.zero (noteGain u) = true ∧ F64.le (noteGain u) F64.one = true

/-- 47_render.md (R272), 42_voicebank.md sections 2 and 3 (R153 to R156) and 43_oscillator.md sections 3 to 5 (R186 to R189): frame `k`
sums the voices after `k` advances, from +0.0, the active ones by ascending index, each the oscillator's output times gain times
envelope at its elapsed time; each frame, the last too, is followed by one advance of every active voice. -/
def Obligations.SynthesisSumsEachFrame : Prop :=
  ∀ (T : Transc) (c : Config) (P : Vector ParamReg 12) (clock : Word) (n i : Nat) (vs : List Voice),
    let seconds := fun (j : Nat) (v : Voice) =>
      (F64.ofNat (((clock.toNat : Int) + j - v.trig.toNat) % 2 ^ 64).toNat).div c.raw.sampleRate
    let envelope := fun (t d : F64) => T.exp (t.div d).neg
    let played := fun (j : Nat) (v : Voice) =>
      v.phase.mul (F64.one.add ((resolve P .phaseDrop j).mul (envelope (seconds j v) c.raw.fastDecay)))
    let wave := fun (j : Nat) (p : F64) => morph T p (resolve P .shape j) (resolve P .pulseWidth j)
    let osc := fun (j : Nat) (v : Voice) =>
      let p := played j v
      let s := resolve P .detuneSpread j
      if F64.eq s F64.zero then wave j p
      else (((wave j p).add (wave j (p.mul (F64.one.add (c.raw.detuneK.mul s))))).add
        (wave j (p.mul (F64.one.sub (c.raw.detuneK.mul s))))).div F64.three
    let frame := fun (j : Nat) (ws : List Voice) =>
      (ws.filter Voice.active).foldl
        (fun acc v => acc.add (((osc j v).mul v.vel).mul (envelope (seconds j v) (resolve P .decay j)))) F64.zero
    let next := fun (v : Voice) =>
      if v.active then { v with phase := (v.phase.add (v.freq.div c.raw.sampleRate)).frac } else v
    let after := fun k => (List.map next)^[k] vs
    (synthFrames T c P clock n i vs).syn = (List.range n).map (fun k => frame (i + k) (after k)) ∧
    (synthFrames T c P clock n i vs).voices = after n

/-- 42_voicebank.md section 2 (R153): `env(0, d) = 1` for every legal decay and all functions with the properties of R10. -/
def Obligations.EnvelopeStartsAtOne : Prop :=
  ∀ (T : Transc) (c : Config) (d : F64), T.Lawful → LegalValue c .decay d → env T F64.zero d = F64.one

/-- 43_oscillator.md section 5 (R189) with sections 1 to 4: at phase 0 and elapsed time 0 the output is exactly −1.0 for all legal
parameters. The premise on the exponent is R183's, which the properties of R10 do not force (log 9); for DETUNE_K
above 1 a detuned phase is −0.0, and its `frac` rests on the model's `floor` (log 7). -/
def Obligations.OscillatorStartsAtMinusOne : Prop :=
  ∀ (T : Transc) (c : Config) (pd s sh pw : F64), T.Lawful →
    LegalValue c .phaseDrop pd → LegalValue c .detuneSpread s → LegalValue c .shape sh → LegalValue c .pulseWidth pw →
    F64.lt F64.zero (warpExponent T pw) = true →
      oscOut T c F64.zero pd s sh pw F64.zero = F64.negOne

/-- 43_oscillator.md sections 1 and 2 (R180 to R184): the waveforms and the morph between them; the morph is exactly the warped saw at
shape 0, the saw at 1, the pulse at 2 (the premise on the exponent: log 9). -/
def Obligations.MorphEndpoints : Prop :=
  (∀ (T : Transc) (p sh pw : F64),
    saw p = (F64.two.mul p.frac).sub F64.one ∧
    square p pw = (if F64.lt pw p.frac then F64.one else F64.negOne) ∧
    wsaw T p pw = (F64.two.mul (T.pow p.frac ((T.ln F64.half).div (T.ln pw)))).sub F64.one ∧
    (F64.lt sh F64.one = true → morph T p sh pw = ((F64.one.sub sh).mul (wsaw T p pw)).add (sh.mul (saw p))) ∧
    (F64.lt sh F64.one = false →
      morph T p sh pw = ((F64.two.sub sh).mul (saw p)).add ((sh.sub F64.one).mul (square p pw)))) ∧
  ∀ (T : Transc) (p pw : F64), T.Lawful → p.isFinite = true → F64.lt F64.zero (warpExponent T pw) = true →
    morph T p F64.zero pw = wsaw T p pw ∧ morph T p F64.one pw = saw p ∧ morph T p F64.two pw = square p pw

/-! ### Filter and bitcrusher -/

/-- R201. A cutoff of 0 of either sign gives a0 = 0, b1 = 1, and a finite input leaves the cell: the same value, bit for bit unless the
cell is −0.0, which becomes +0.0 with an input of positive sign. -/
def Obligations.ZeroCutoffFreezes : Prop :=
  ∀ (T : Transc) (c : Config) (fc x z : F64), fc.isZero = true → x.isFinite = true → z.isFinite = true →
    coeff T c fc = ⟨F64.zero, F64.one⟩ ∧
    F64.eq (onePole (coeff T c fc) x z) z = true ∧
    (z ≠ F64.neg F64.zero → onePole (coeff T c fc) x z = z) ∧
    (z = F64.neg F64.zero → onePole (coeff T c fc) x z = if x.sign then z else F64.zero)

/-- 44_filter.md section 2 (R202): for all functions with the properties of R10 the saturation is at most 1.0, odd, and silent at gain
0. -/
def Obligations.SaturationBounds : Prop :=
  ∀ (T : Transc) (x g : F64), T.Lawful → (g.mul x).isNaN = false →
    F64.le (saturate T x g).abs F64.one = true ∧
    saturate T x.neg g = (saturate T x g).neg ∧
    (g.isZero = true → (saturate T x g).isZero = true)

/-- 44_filter.md sections 1 to 3 (R200, R202 to R205): the coefficients of a cutoff that is not 0 and the saturation; a frame's output, Z_LP and Z_HP from the cells before it, at either place of the saturation;
a block starts from the cells it is given, frame `k` is filtered with the cells that the frames before it leave, and its own cells
feed the next frame. -/
def Obligations.FilterBlockFollowsRecursion : Prop :=
  ∀ (T : Transc) (c : Config) (P : Vector ParamReg 12),
    (∀ fc : F64, F64.eq fc F64.zero = false →
      let b1 := T.exp (((F64.negTwo.mul F64.pi).mul fc).div c.raw.sampleRate)
      coeff T c fc = ⟨F64.one.sub b1, b1⟩) ∧
    (∀ x g : F64, saturate T x g = (F64.two.div F64.pi).mul (T.atan (g.mul x))) ∧
    (∀ (x : F64) (n : Nat) (w : FilterCells),
      let g := resolve P .satGain n
      let x' := if c.raw.satPos = .pre then saturate T x g else x
      let lp := coeff T c (resolve P .lpCutoff n)
      let zLP := (x'.mul lp.a0).add (w.zLP.mul lp.b1)
      let hp := coeff T c (resolve P .hpCutoff n)
      let zHP := (zLP.mul hp.a0).add (w.zHP.mul hp.b1)
      let h := zLP.sub zHP
      filterFrame T c P x n w = ⟨if c.raw.satPos = .post then saturate T h g else h, ⟨zLP, zHP⟩⟩) ∧
    ∀ (xs : List F64) (i : Nat) (z : FilterCells),
      let cellsAt := fun k => (filterFrames T c P (xs.take k) i z).cells
      (filterFrames T c P xs i z).flt.length = xs.length ∧
      cellsAt 0 = z ∧
      (filterFrames T c P xs i z).cells = cellsAt xs.length ∧
      ∀ (k : Nat) (x : F64), xs[k]? = some x →
        (filterFrames T c P xs i z).flt[k]? = some (filterFrame T c P x (i + k) (cellsAt k)).out ∧
        cellsAt (k + 1) = (filterFrame T c P x (i + k) (cellsAt k)).cells

/-- 45_bitcrusher.md (R220 to R222) and 00_scope.md section 4 (R11, roundHalfUp): the hold factor is the parameter rounded to the nearest
integer, a tie to the larger, and clamped to 1 to 128; the first group starts at frame 0 and each next one after as many frames as the hold factor at the
group's own first frame says; every frame stands in a group and holds the group's first frame. This is for factors that vary
from group to group (a-rate) too; at a factor that is the same at every frame, frame `j` holds frame `j / h * h`, and factor 1 is
the identity. -/
def Obligations.CrushHoldsFirstFrame : Prop :=
  ∀ (P : Vector ParamReg 12) (flt : List F64),
    let cru := crush P flt.length flt
    let start := fun m => (fun g => g + holdFactor P g)^[m] 0
    (∀ g, (holdFactor P g : Int) = max 1 (min (resolve P .crushFactor g).roundHalfUp 128)) ∧
    (∀ x : F64, x.isFinite = true →
      (2 * x.roundHalfUp - 1) * F64.unit ≤ 2 * x.signedUnits ∧ 2 * x.signedUnits < (2 * x.roundHalfUp + 1) * F64.unit) ∧
    (∀ g, 1 ≤ holdFactor P g ∧ holdFactor P g ≤ 128) ∧
    cru.length = flt.length ∧
    (∀ j < flt.length, ∃ m, start m ≤ j ∧ j < start (m + 1)) ∧
    (∀ m j, start m ≤ j → j < start (m + 1) → j < flt.length → cru[j]? = flt[start m]?) ∧
    ∀ h, (∀ g < flt.length, holdFactor P g = h) →
      (∀ j < flt.length, cru[j]? = flt[j / h * h]?) ∧ (h = 1 → cru = flt)

/-! ### Ring buffers and reverb -/

/-- R230. A push moves the write index by the frames pushed, modulo RB_LEN, and makes that many more available, RB_LEN at most; the unread
frames are the old ones and the new, less the oldest that do not fit; the buffer stays sound, its read index `w - avail` with it. -/
def Obligations.PushKeepsNewestFrames : Prop :=
  ∀ (len : Nat) (rb : RingBuffer) (xs : List F64), RingBuffer.Sound len rb →
    RingBuffer.Sound len (rb.push len xs) ∧
    (rb.push len xs).w = (rb.w + xs.length) % len ∧
    (rb.push len xs).avail = min (rb.avail + xs.length) len ∧
    (rb.push len xs).unread len = (rb.unread len ++ xs).drop (rb.avail + xs.length - len)

/-- R231. A pull fills the first positions with the oldest unread frames, never more than are available, leaves the other positions,
moves the read index past the frames read, and leaves the later frames unread. -/
def Obligations.PullReadsOldestFrames : Prop :=
  ∀ (len n : Nat) (rb : RingBuffer) (dst : List F64), RingBuffer.Sound len rb → dst.length = n →
    rb.pulled len dst n = (rb.unread len).take n ++ dst.drop rb.avail ∧
    (rb.pulled len dst n).length = n ∧
    (rb.afterPull len n).unread len = (rb.unread len).drop n ∧
    (rb.afterPull len n).avail = rb.avail - n ∧
    (rb.afterPull len n).r = (rb.r + min n rb.avail) % len ∧
    (rb.afterPull len n).w = rb.w ∧
    (∀ a : Nat, Memory.read (rb.afterPull len n).data a = Memory.read rb.data a) ∧
    RingBuffer.Sound len (rb.afterPull len n)

/-- 46_reverb.md section 1 (R232), for the case its sentence needs, a buffer with nothing unread: a push and a pull of as many frames
return them, bit for bit, in order. -/
def Obligations.PushThenPullReturnsPushed : Prop :=
  ∀ (len : Nat) (rb : RingBuffer) (xs dst : List F64), RingBuffer.Sound len rb → rb.avail = 0 → xs.length ≤ len →
    dst.length = xs.length → (rb.push len xs).pulled len dst xs.length = xs

/-- R235. The comb duplicates its input and adds to each later frame its own output `d` frames before, scaled: `c[i] = x[i] + g × c[i − d]`;
with `d` at or above the length it is the identity. -/
def Obligations.CombIsRecursive : Prop :=
  ∀ (x : List F64) (d : Nat) (g : F64), 1 ≤ d →
    (comb x d g).length = x.length ∧
    (∀ i < x.length, i < d → (comb x d g)[i]? = x[i]?) ∧
    (∀ i, i + d < x.length → at' (comb x d g) (i + d) = (at' x (i + d)).add ((at' (comb x d g) i).mul g)) ∧
    (x.length ≤ d → comb x d g = x)

/-- 46_reverb.md section 3 (R239), over finite samples: with a peak of 0 nothing changes; else every sample is divided by the peak, the
sample that set it becomes exactly ±1.0 and no magnitude exceeds 1.0, which is the spec's own inference ("derived: from IEEE
division being monotone"). -/
def Obligations.NormalisedPeakIsOne : Prop :=
  ∀ p : List F64, (∀ x ∈ p, x.isFinite = true) →
    ((peak p).isZero = true ↔ ∀ x ∈ p, x.isZero = true) ∧
    ((peak p).isZero = true → normalise p = p) ∧
    ((peak p).isZero = false →
      normalise p = p.map (fun x => x.div (peak p)) ∧
      (∃ x ∈ normalise p, x.abs = F64.one) ∧
      ∀ x ∈ normalise p, F64.le x.abs F64.one = true)

/-- 46_reverb.md section 4 (R244, first sentence): a kernel over zeros of either sign gives zeros, for all legal parameters. -/
def Obligations.SilentKernelStaysSilent : Prop :=
  ∀ (c : Config) (P : Vector ParamReg 12) (dry : List F64),
    LegalValue c .reverbMix (resolve P .reverbMix 0) → LegalValue c .reverbDecay (resolve P .reverbDecay 0) →
    (∀ x ∈ dry, x.isZero = true) → ∀ y ∈ kernelProc c P dry (combBank c P dry), y.isZero = true

/-- 46_reverb.md section 4 (R241): the ReverbEngine of a RENDER, in terms of unread frames: CRU joins RBI; if that makes a kernel's frames, exactly one kernel is
pulled, run and pushed; OUT is what RBO then holds, up to QUANTUM frames, +0.0 beyond. The kernel step by step, from 46_reverb.md
sections 2 and 3 (R233, R234, R236 to R238): the combs' delays and decays from frame 0, the mix of every frame, and two allpass stages,
every frame of a stage from that stage's own results before it and its input from it on, terms outside the buffer left out (that for a negative
AP_DELAY_MS the first term is left out too is the model's reading: log 19, DEDUCED). -/
def Obligations.ReverbQuantumFollowsRule : Prop :=
  ∀ s : State, RingInv s → OccupancyInv s → s.phase = .idle → s.inReset = false →
    ∃ t, exec .render s = .next t ∧
      let len := s.cfg.raw.rbLen
      let q := s.cfg.raw.quantum
      let now := fun (id : ParamId) => resolve (drain s).params id 0
      let samples := fun (ms : F64) => ((ms.div F64.thousand).mul s.cfg.raw.sampleRate).roundHalfUp
      let allpassed := fun (p y : List F64) =>
        y.length = p.length ∧ ∀ i < p.length,
          let inside := fun (j : Int) => 0 ≤ j ∧ j < (p.length : Int)
          let back : Int := i - samples s.cfg.raw.apDelayMs
          let ahead : Int := i + s.cfg.raw.apLook - samples s.cfg.raw.apDelayMs
          let x := if inside back then
              (at' p i).add (s.cfg.raw.apDecay.neg.mul (if back < i then at' y back.toNat else at' p back.toNat))
            else at' p i
          at' y i = if inside ahead then
              x.add (s.cfg.raw.apDecay.mul
                (if ahead < i then at' y ahead.toNat else if ahead = i then x else at' p ahead.toNat))
            else x
      let fed := s.rbi.unread len ++ t.work.cru
      let kernelRuns := s.cfg.raw.kernel ≤ fed.length
      let held := s.rbo.unread len ++ (if kernelRuns then t.work.proc else [])
      (kernelRuns →
        t.work.dry = fed.take s.cfg.raw.kernel ∧
        t.work.combs = combBank s.cfg (drain s).params t.work.dry ∧
        t.work.proc = kernelProc s.cfg (drain s).params t.work.dry t.work.combs ∧
        t.work.combs = (List.finRange 4).map (fun j =>
          comb t.work.dry (max 1 (samples ((now .reverbDelayMs).add s.cfg.raw.combDelayOffsetMs[j]))).toNat
            ((now .reverbDecay).add s.cfg.raw.combDecayOffset[j])) ∧
        (∃ mixed first second : List F64,
          mixed.length = s.cfg.raw.kernel ∧
          (∀ i < s.cfg.raw.kernel,
            let c := fun (j : Nat) => at' (t.work.combs.getD j []) i
            at' mixed i = ((F64.one.sub (now .reverbMix)).mul (at' t.work.dry i)).add
              ((now .reverbMix).mul ((((c 0).add (c 1)).add (c 2)).add (c 3)))) ∧
          allpassed mixed first ∧ allpassed first second ∧ t.work.proc = normalise second) ∧
        t.rbi.unread len = fed.drop s.cfg.raw.kernel) ∧
      (¬kernelRuns → t.rbi.unread len = fed) ∧
      t.work.out = held.take q ++ List.replicate (q - held.length) F64.zero ∧
      t.rbo.unread len = held.drop q

/-! ### Arithmetic -/

/-- 00_scope.md section 4 (R9, roundTiesToEven): the one rounding of the model, and every operation rounds its exact result with it once.
A result that does not overflow is the nearest representable magnitude, and the even one of two nearest; it overflows exactly from
half a unit in the last place above the largest finite magnitude on. Sums, differences, products and quotients of finite operands and
`toF64` are the exact values so rounded; an exact zero sum is +0.0 unless both operands are negative. The operands that are not
finite are IEEE 754's, and the comparisons are those of the exact values, false with a NaN. A finite value is counted in units of
2^-1074. -/
def Obligations.RoundingIsNearestEven : Prop :=
  (∀ x : F64, x.bits.toNat = (if x.sign then 2 ^ 63 else 0) + x.mag ∧ x.mag < 2 ^ 63) ∧
  (∀ m : Nat, F64.unitsOfMag m =
    if m < 2 ^ 52 then m else (2 ^ 52 + m % 2 ^ 52) * 2 ^ (m / 2 ^ 52 - 1)) ∧
  (∀ x : F64, x.signedUnits = (if x.sign then -1 else 1) * (F64.unitsOfMag x.mag : Int)) ∧
  (∀ x : F64, x.neg.sign = !x.sign ∧ x.neg.mag = x.mag ∧ x.abs.sign = false ∧ x.abs.mag = x.mag) ∧
  (∀ n : Nat, (F64.ofNat n).sign = false ∧ (F64.ofNat n).mag = F64.magOfRatio (n * F64.unit) 1) ∧
  (∀ x y : F64, x.isFinite = true → y.isFinite = true →
    let sum := x.signedUnits + y.signedUnits
    let diff := x.signedUnits - y.signedUnits
    ((x.add y).sign = if sum = 0 then x.sign && y.sign else decide (sum < 0)) ∧
    (x.add y).mag = F64.magOfRatio sum.natAbs 1 ∧
    ((x.sub y).sign = if diff = 0 then x.sign && !y.sign else decide (diff < 0)) ∧
    (x.sub y).mag = F64.magOfRatio diff.natAbs 1 ∧
    (x.mul y).sign = (x.sign != y.sign) ∧
    (x.mul y).mag = F64.magOfRatio (F64.unitsOfMag x.mag * F64.unitsOfMag y.mag) F64.unit ∧
    (y.mag ≠ 0 →
      (x.div y).sign = (x.sign != y.sign) ∧
      (x.div y).mag = F64.magOfRatio (F64.unitsOfMag x.mag * F64.unit) (F64.unitsOfMag y.mag)) ∧
    F64.lt x y = decide (x.signedUnits < y.signedUnits) ∧
    F64.le x y = decide (x.signedUnits ≤ y.signedUnits) ∧
    F64.eq x y = decide (x.signedUnits = y.signedUnits)) ∧
  (∀ x y : F64, (x.isNaN = true ∨ y.isNaN = true) →
    (x.add y).isNaN = true ∧ (x.sub y).isNaN = true ∧ (x.mul y).isNaN = true ∧ (x.div y).isNaN = true ∧
    F64.lt x y = false ∧ F64.le x y = false ∧ F64.eq x y = false) ∧
  (∀ x y : F64, x.isInf = true →
    (y.isFinite = true → x.add y = x ∧ y.add x = x ∧ x.sub y = x ∧ y.sub x = x.neg ∧
      (y.mag ≠ 0 → (x.mul y).isInf = true ∧ (x.mul y).sign = (x.sign != y.sign) ∧
        (y.mul x).isInf = true ∧ (y.mul x).sign = (y.sign != x.sign)) ∧
      (y.mag = 0 → (x.mul y).isNaN = true ∧ (y.mul x).isNaN = true) ∧
      (x.div y).isInf = true ∧ (x.div y).sign = (x.sign != y.sign) ∧
      (y.div x).mag = 0 ∧ (y.div x).sign = (y.sign != x.sign) ∧
      F64.lt x y = x.sign ∧ F64.lt y x = !x.sign) ∧
    (y.isInf = true → (x.div y).isNaN = true ∧ (x.mul y).isInf = true ∧ (x.mul y).sign = (x.sign != y.sign) ∧
      (x.sign = y.sign → x.add y = x ∧ (x.sub y).isNaN = true) ∧
      (x.sign ≠ y.sign → (x.add y).isNaN = true ∧ x.sub y = x))) ∧
  (∀ x y : F64, x.isFinite = true → y.mag = 0 →
    (x.mag = 0 → (x.div y).isNaN = true) ∧
    (x.mag ≠ 0 → (x.div y).isInf = true ∧ (x.div y).sign = (x.sign != y.sign))) ∧
  ∀ num den : Nat, 0 < den →
    (F64.magOfRatio num den = F64.infMag ↔ (2 ^ 54 - 1) * 2 ^ 2044 * den ≤ num) ∧
    (F64.magOfRatio num den < F64.infMag →
      ∀ m < F64.infMag,
        let dist := fun k => ((F64.unitsOfMag k : Int) * den - num).natAbs
        dist (F64.magOfRatio num den) ≤ dist m ∧
        (dist (F64.magOfRatio num den) = dist m → m ≠ F64.magOfRatio num den → F64.magOfRatio num den % 2 = 0))

/-- 00_scope.md section 4 (R11, `floor`, `frac`): for every finite value `floor` is the largest integer that is not larger, exactly, and
`frac` is the difference, 0.0 where that rounds to 1.0, and in [0, 1). -/
def Obligations.FracInUnitInterval : Prop :=
  ∀ x : F64, x.isFinite = true →
    x.floor.isFinite = true ∧ (F64.unit : Int) ∣ x.floor.signedUnits ∧
    x.floor.signedUnits ≤ x.signedUnits ∧ x.signedUnits < x.floor.signedUnits + F64.unit ∧
    x.frac = (if F64.eq (x.sub x.floor) F64.one then F64.zero else x.sub x.floor) ∧
    F64.le F64.zero x.frac = true ∧ F64.lt x.frac F64.one = true
end

