-- ==== Sys2Proof/Laws/Decode.lean ====
section
/-! SUPPORT. The fields of a header, the indices of parameters and status registers, and the serialised byte order. -/

namespace Sys2Proof

@[simp] theorem ParamId.ofNat?_toNat (id : ParamId) : ParamId.ofNat? id.toNat = some id := by cases id <;> rfl

theorem ParamId.toNat_le (id : ParamId) : id.toNat ≤ 11 := by cases id <;> decide

theorem ParamId.toNat_of_ofNat? {n : Nat} {id : ParamId} (h : ParamId.ofNat? n = some id) : id.toNat = n := by
  unfold ParamId.ofNat? at h
  split at h <;> simp_all <;> subst h <;> rfl

@[simp] theorem StatReg.ofNat?_toNat (n : StatReg) : StatReg.ofNat? n.toNat = some n := by cases n <;> rfl

theorem StatReg.toNat_le (n : StatReg) : n.toNat ≤ 14 := by cases n <;> decide

theorem StatReg.toNat_of_ofNat? {k : Nat} {n : StatReg} (h : StatReg.ofNat? k = some n) : n.toNat = k := by
  unfold StatReg.ofNat? at h
  split at h <;> simp_all <;> subst h <;> rfl

/-- A header's fields come back from its word. -/
@[simp] theorem Header.ofWord_toWord (h : Header) : Header.ofWord h.toWord = h := by
  obtain ⟨op, idx, rsvd, len⟩ := h
  simp only [Header.ofWord, Header.toWord, Header.mk.injEq]
  refine ⟨?_, ?_, ?_, ?_⟩ <;> ext i hi <;> simp only [BitVec.getElem_extractLsb', BitVec.getLsbD_append] <;>
    repeat' split
  all_goals first
    | omega
    | (rw [← BitVec.getLsbD_eq_getElem hi]; congr 1; omega)

/-- A word is the word of its own fields. -/
@[simp] theorem Header.toWord_ofWord (w : Word) : (Header.ofWord w).toWord = w := by
  simp only [Header.ofWord, Header.toWord]
  ext i hi
  simp only [BitVec.getElem_append, BitVec.getElem_extractLsb']
  grind

/-- Serialising a word and reading it back. -/
theorem wordsOfBytes_bytesOfWords (ws : List Word) : wordsOfBytes (bytesOfWords ws) = some ws := by
  induction ws with
  | nil => rfl
  | cons w ws ih =>
    have h : bytesOfWords (w :: ws) = w.extractLsb' 0 8 :: w.extractLsb' 8 8 :: w.extractLsb' 16 8 :: w.extractLsb' 24 8 ::
        w.extractLsb' 32 8 :: w.extractLsb' 40 8 :: w.extractLsb' 48 8 :: w.extractLsb' 56 8 :: bytesOfWords ws := rfl
    rw [h, wordsOfBytes, ih]
    simp only [Option.some.injEq, List.cons.injEq, and_true, wordOfBytes]
    ext i hi
    simp only [BitVec.getElem_append, BitVec.getElem_extractLsb']
    grind

/-- What a packet that decodes to an a-rate PARAM carries: QUANTUM values (30_encoding.md R103). -/
theorem paramA_length_of_decode {q : Nat} {t : Transfer} {id : ParamId} {xs : List F64}
    (h : decode q t = .ok (.paramA id xs)) : xs.length = q := by
  cases t with
  | request w =>
    simp only [decode, decodeRequest] at h
    split at h
    · next hi =>
      split at hi <;> simp_all
    · simp at h
  | control ws =>
    cases ws with
    | nil => simp [decode] at h
    | cons hdr payload =>
      simp only [decode] at h
      split at h
      · next i hi =>
        injection h with h
        subst h
        unfold decodePacket at hi
        split at hi
        · simp at hi
        · next hc =>
          unfold instrOf at hi
          split at hi
          · split at hi <;> simp at hi
          · split at hi
            · next hop =>
              split at hi
              · simp only [Except.ok.injEq] at hi
                unfold paramInstr at hi
                split at hi
                · simp at hi
                · next hne =>
                  simp only [Instr.paramA.injEq] at hi
                  rw [← hi.2, List.length_map]
                  unfold headerFault at hc
                  repeat' split at hc
                  all_goals first
                    | (simp at hc; done)
                    | skip
                  next hn _ hp _ _ _ =>
                    have hn : payload.length = (Header.ofWord hdr).len.toNat := by omega
                    by_contra hq
                    have hl : (Header.ofWord hdr).len = 1 := by
                      by_contra h1
                      exact hp ⟨hop, h1, by omega⟩
                    rw [hl] at hn
                    obtain ⟨a, rfl⟩ := List.length_eq_one_iff.1 (show payload.length = 1 from hn)
                    exact hne a rfl
              · simp at hi
            · split at hi <;> split at hi <;> simp at hi
      · simp at h

end Sys2Proof
end

