-- ==== Sys2Proof/Laws/Float.lean ====
section
/-! SUPPORT. Lemmas about the binary64 arithmetic of Machine/Float.lean. The central ones are `magOfRatio_spec`, which places an exact
value between two neighbouring magnitudes and says which the rounding takes, and `lt_magOfRatio_iff`, from which
monotonicity and exactness follow. -/

namespace Sys2Proof.F64

/-! ### Sign and magnitude -/

@[simp] theorem sign_mk' (s : Bool) (m : Nat) (h : m < 2 ^ 63) : (ofSignMag s m).sign = s := sign_ofSignMag s m h

@[simp] theorem mag_mk' (s : Bool) (m : Nat) (h : m < 2 ^ 63) : (ofSignMag s m).mag = m := mag_ofSignMag s m h

/-- A value is its sign and its magnitude. -/
theorem ofSignMag_sign_mag (x : F64) : ofSignMag x.sign x.mag = x := by
  obtain ⟨w⟩ := x
  have hw := w.isLt
  simp only [ofSignMag, sign, mag]
  congr 1
  apply BitVec.eq_of_toNat_eq
  simp only [BitVec.toNat_ofNat]
  by_cases h : 2 ^ 63 ≤ w.toNat <;> simp only [h, decide_true, decide_false] <;> simp <;> omega

theorem ext_sign_mag {x y : F64} (hs : x.sign = y.sign) (hm : x.mag = y.mag) : x = y := by
  rw [← ofSignMag_sign_mag x, ← ofSignMag_sign_mag y, hs, hm]

theorem infMag_lt : infMag < 2 ^ 63 := by decide

@[simp] theorem neg_sign (x : F64) : x.neg.sign = !x.sign := sign_ofSignMag _ _ x.mag_lt

@[simp] theorem neg_mag (x : F64) : x.neg.mag = x.mag := mag_ofSignMag _ _ x.mag_lt

@[simp] theorem abs_sign (x : F64) : x.abs.sign = false := sign_ofSignMag _ _ x.mag_lt

@[simp] theorem abs_mag (x : F64) : x.abs.mag = x.mag := mag_ofSignMag _ _ x.mag_lt

@[simp] theorem neg_neg' (x : F64) : x.neg.neg = x := ext_sign_mag (by simp) (by simp)

/-! ### Classes -/

theorem isFinite_iff (x : F64) : x.isFinite = true ↔ x.mag < infMag := by simp [isFinite]

theorem not_isNaN_of_isFinite {x : F64} (h : x.isFinite = true) : x.isNaN = false := by
  simp only [isFinite, isNaN, decide_eq_true_eq, decide_eq_false_iff_not] at *
  omega

theorem not_isInf_of_isFinite {x : F64} (h : x.isFinite = true) : x.isInf = false := by
  simp only [isFinite, isInf, decide_eq_true_eq, decide_eq_false_iff_not] at *
  omega

theorem isFinite_of_isZero {x : F64} (h : x.isZero = true) : x.isFinite = true := by
  simp only [isZero, isFinite, decide_eq_true_eq] at *
  rw [h]
  decide

@[simp] theorem zero_sign : zero.sign = false := by decide
@[simp] theorem zero_mag : zero.mag = 0 := by decide
@[simp] theorem one_sign : one.sign = false := by decide
@[simp] theorem one_mag : one.mag = 1023 * 2 ^ 52 := by decide

@[simp] theorem neg_isNaN (x : F64) : x.neg.isNaN = x.isNaN := by simp [isNaN]
@[simp] theorem neg_isInf (x : F64) : x.neg.isInf = x.isInf := by simp [isInf]
@[simp] theorem neg_isFinite (x : F64) : x.neg.isFinite = x.isFinite := by simp [isFinite]

/-- Whatever the free bits of a NaN are, it is one (log 5). -/
@[simp] theorem nan_isNaN (op : Config.FloatOp) (x y : F64) : (nan op x y).isNaN = true := by
  have h : infMag + 2 ^ 51 + (Config.freeNaN op x y).toNat % 2 ^ 51 < 2 ^ 63 := by
    unfold infMag
    omega
  simp only [nan, isNaN, mag_mk' _ _ h, decide_eq_true_eq]
  omega

/-! ### Order -/

theorem le_iff (x y : F64) : le x y = true ↔ x.isNaN = false ∧ y.isNaN = false ∧ x.key ≤ y.key := by
  simp [le, and_assoc]

theorem lt_iff (x y : F64) : lt x y = true ↔ x.isNaN = false ∧ y.isNaN = false ∧ x.key < y.key := by
  simp [lt, and_assoc]

theorem eq_iff (x y : F64) : eq x y = true ↔ x.isNaN = false ∧ y.isNaN = false ∧ x.key = y.key := by
  simp [eq, and_assoc]

theorem key_of_pos {x : F64} (h : x.sign = false) : x.key = x.mag := by simp [key, h]

theorem key_of_neg {x : F64} (h : x.sign = true) : x.key = -(x.mag : Int) := by simp [key, h]

/-! ### Magnitudes in units -/

/-- The units of a magnitude written as binade and significand. -/
theorem unitsOfMag_eq (k f : Nat) (hf : f ≤ 2 ^ 53) (h : k = 0 ∨ 2 ^ 52 ≤ f) :
    unitsOfMag (k * 2 ^ 52 + f) = f * 2 ^ k := by
  unfold unitsOfMag
  rcases Nat.lt_or_ge f (2 ^ 52) with hlt | hge
  · obtain rfl : k = 0 := by omega
    have h1 : (0 * 2 ^ 52 + f) / 2 ^ 52 = 0 := by omega
    have h2 : (0 * 2 ^ 52 + f) % 2 ^ 52 = f := by omega
    rw [if_pos h1, h2, Nat.pow_zero, Nat.mul_one]
  · rcases Nat.lt_or_ge f (2 ^ 53) with hlt | hge'
    · have h1 : (k * 2 ^ 52 + f) / 2 ^ 52 = k + 1 := by omega
      have h2 : 2 ^ 52 + (k * 2 ^ 52 + f) % 2 ^ 52 = f := by omega
      rw [if_neg (by omega), h1, h2, Nat.add_sub_cancel]
    · obtain rfl : f = 2 ^ 53 := by omega
      have h1 : (k * 2 ^ 52 + 2 ^ 53) / 2 ^ 52 = k + 2 := by omega
      have h2 : (k * 2 ^ 52 + 2 ^ 53) % 2 ^ 52 = 0 := by omega
      rw [if_neg (by omega), h1, h2]
      simp only [Nat.add_zero, show k + 2 - 1 = k + 1 from rfl, Nat.pow_succ]
      ring

/-- Every magnitude is a binade and a significand below 2^53. -/
theorem exists_binade (m : Nat) : ∃ k f, m = k * 2 ^ 52 + f ∧ f < 2 ^ 53 ∧ (k = 0 ∨ 2 ^ 52 ≤ f) := by
  rcases Nat.lt_or_ge m (2 ^ 52) with h | h
  · exact ⟨0, m, by omega, by omega, .inl rfl⟩
  · exact ⟨m / 2 ^ 52 - 1, m - (m / 2 ^ 52 - 1) * 2 ^ 52, by omega, by omega, by omega⟩

theorem unitsOfMag_succ_lt (m : Nat) : unitsOfMag m < unitsOfMag (m + 1) := by
  obtain ⟨k, f, rfl, hf, h⟩ := exists_binade m
  rw [unitsOfMag_eq k f (by omega) h, Nat.add_assoc, unitsOfMag_eq k (f + 1) (by omega) (by omega)]
  exact Nat.mul_lt_mul_of_pos_right (Nat.lt_succ_self f) (Nat.two_pow_pos k)

theorem unitsOfMag_strictMono : StrictMono unitsOfMag := strictMono_nat_of_lt_succ unitsOfMag_succ_lt

@[simp] theorem unitsOfMag_zero : unitsOfMag 0 = 0 := by decide

/-! ### Rounding -/

/-- The rounding before the overflow bound. -/
def rawMag (num den : Nat) : Nat :=
  (Nat.log2 (num / den) - 52) * 2 ^ 52 + roundAt (Nat.log2 (num / den) - 52) num den

theorem magOfRatio_eq_min (num den : Nat) : magOfRatio num den = min (rawMag num den) infMag := rfl

/-- The exact value lies between two neighbouring magnitudes, and the rounding takes the nearer, the even one at a tie. -/
theorem rawMag_spec (num den : Nat) (hd : 0 < den) :
    ∃ a, unitsOfMag a * den ≤ num ∧ num < unitsOfMag (a + 1) * den ∧
      rawMag num den =
        if (unitsOfMag a + unitsOfMag (a + 1)) * den < 2 * num ∨
            ((unitsOfMag a + unitsOfMag (a + 1)) * den = 2 * num ∧ a % 2 = 1) then a + 1 else a := by
  set k := Nat.log2 (num / den) - 52 with hk
  set f := num / (den * 2 ^ k) with hf
  have hpk : 0 < 2 ^ k := Nat.two_pow_pos k
  have hd' : 0 < den * 2 ^ k := Nat.mul_pos hd hpk
  have hfq : f = num / den / 2 ^ k := by rw [hf, Nat.div_div_eq_div_mul]
  have hrange : f < 2 ^ 53 ∧ (k = 0 ∨ 2 ^ 52 ≤ f) := by
    rcases Nat.eq_zero_or_pos k with h0 | hpos
    · refine ⟨?_, .inl h0⟩
      rw [hfq, h0, Nat.pow_zero, Nat.div_one]
      rcases Nat.eq_zero_or_pos (num / den) with hz | hz
      · omega
      · exact lt_of_lt_of_le Nat.lt_log2_self (Nat.pow_le_pow_right (by decide) (by omega))
    · have hq : num / den ≠ 0 := by
        intro h
        rw [hk, h] at hpos
        simp at hpos
      have hl : Nat.log2 (num / den) = k + 52 := by omega
      have h1 : 2 ^ (k + 52) ≤ num / den := hl ▸ Nat.log2_self_le hq
      have h2 : num / den < 2 ^ (k + 52 + 1) := hl ▸ Nat.lt_log2_self
      refine ⟨?_, .inr ?_⟩
      · rw [hfq, Nat.div_lt_iff_lt_mul hpk, ← Nat.pow_add]
        exact lt_of_lt_of_eq h2 (by congr 1; omega)
      · rw [hfq, Nat.le_div_iff_mul_le hpk, ← Nat.pow_add]
        exact le_of_eq_of_le (by congr 1; omega) h1
  refine ⟨k * 2 ^ 52 + f, ?_⟩
  have hua := unitsOfMag_eq k f (by omega) hrange.2
  have hub := unitsOfMag_eq k (f + 1) (by omega) (by omega)
  rw [← Nat.add_assoc] at hub
  have hdm : den * 2 ^ k * f + num % (den * 2 ^ k) = num := Nat.div_add_mod num (den * 2 ^ k)
  have hr : num % (den * 2 ^ k) < den * 2 ^ k := Nat.mod_lt _ hd'
  have e1 : f * 2 ^ k * den = den * 2 ^ k * f := by ring
  have e2 : (f + 1) * 2 ^ k * den = den * 2 ^ k * f + den * 2 ^ k := by ring
  have e3 : (f * 2 ^ k + (f + 1) * 2 ^ k) * den = 2 * (den * 2 ^ k * f) + den * 2 ^ k := by ring
  rw [hua, hub, e1, e2, e3]
  refine ⟨by omega, by omega, ?_⟩
  have hpar : (k * 2 ^ 52 + f) % 2 = f % 2 := by omega
  rw [hpar]
  unfold rawMag roundAt
  simp only [← hk, ← hf]
  generalize num % (den * 2 ^ k) = r at *
  generalize den * 2 ^ k * f = A at *
  generalize den * 2 ^ k = D at *
  by_cases hc : D < 2 * r ∨ 2 * r = D ∧ f % 2 = 1
  · rw [if_pos hc, if_pos (by omega)]
    omega
  · rw [if_neg hc, if_neg (by omega)]

/-- A magnitude is below the rounding exactly if the exact value is past the middle between it and the next one (at the middle, if it
is odd). -/
theorem lt_rawMag_iff (num den m : Nat) (hd : 0 < den) :
    m < rawMag num den ↔
      (unitsOfMag m + unitsOfMag (m + 1)) * den < 2 * num ∨
        ((unitsOfMag m + unitsOfMag (m + 1)) * den = 2 * num ∧ m % 2 = 1) := by
  obtain ⟨a, hlo, hhi, hraw⟩ := rawMag_spec num den hd
  rcases Nat.lt_trichotomy m a with h | rfl | h
  · have h1 : unitsOfMag m < unitsOfMag a := unitsOfMag_strictMono h
    have h2 : unitsOfMag (m + 1) ≤ unitsOfMag a := unitsOfMag_strictMono.monotone h
    have h3 : unitsOfMag m * den < unitsOfMag a * den := Nat.mul_lt_mul_of_pos_right h1 hd
    have h4 : unitsOfMag (m + 1) * den ≤ unitsOfMag a * den := Nat.mul_le_mul_right den h2
    have h5 : (unitsOfMag m + unitsOfMag (m + 1)) * den = unitsOfMag m * den + unitsOfMag (m + 1) * den := Nat.add_mul ..
    constructor
    · intro _; left; omega
    · intro _; rw [hraw]; split <;> omega
  · rw [hraw]; split <;> simp_all
  · have h1 : unitsOfMag (a + 1) ≤ unitsOfMag m := unitsOfMag_strictMono.monotone h
    have h3 : unitsOfMag (a + 1) * den ≤ unitsOfMag m * den := Nat.mul_le_mul_right den h1
    have h4 : unitsOfMag m * den < unitsOfMag (m + 1) * den :=
      Nat.mul_lt_mul_of_pos_right (unitsOfMag_succ_lt m) hd
    have h5 : (unitsOfMag m + unitsOfMag (m + 1)) * den = unitsOfMag m * den + unitsOfMag (m + 1) * den := Nat.add_mul ..
    constructor
    · intro hm; rw [hraw] at hm; split at hm <;> omega
    · intro hm; omega

theorem magOfRatio_le_infMag (num den : Nat) : magOfRatio num den ≤ infMag := Nat.min_le_right _ _

theorem magOfRatio_lt (num den : Nat) : magOfRatio num den < 2 ^ 63 :=
  lt_of_le_of_lt (magOfRatio_le_infMag num den) infMag_lt

/-- Rounding is monotone in the exact value. -/
theorem rawMag_mono {n₁ d₁ n₂ d₂ : Nat} (h₁ : 0 < d₁) (h₂ : 0 < d₂) (h : n₁ * d₂ ≤ n₂ * d₁) :
    rawMag n₁ d₁ ≤ rawMag n₂ d₂ := by
  by_contra hlt
  rw [Nat.not_le] at hlt
  set m := rawMag n₂ d₂ with hm
  have hno : ¬m < rawMag n₂ d₂ := by omega
  have hyes := (lt_rawMag_iff n₁ d₁ m h₁).1 hlt
  rw [lt_rawMag_iff n₂ d₂ m h₂] at hno
  apply hno
  generalize unitsOfMag m + unitsOfMag (m + 1) = U at *
  have hle : U * d₁ ≤ 2 * n₁ := by omega
  have key : U * d₂ * d₁ ≤ 2 * n₂ * d₁ := by
    calc U * d₂ * d₁ = U * d₁ * d₂ := by ring
      _ ≤ 2 * n₁ * d₂ := Nat.mul_le_mul_right _ hle
      _ = 2 * (n₁ * d₂) := by ring
      _ ≤ 2 * (n₂ * d₁) := Nat.mul_le_mul_left _ h
      _ = 2 * n₂ * d₁ := by ring
  have hU : U * d₂ ≤ 2 * n₂ := Nat.le_of_mul_le_mul_right key h₁
  rcases Nat.lt_or_eq_of_le hU with hl | he
  · exact .inl hl
  · refine .inr ⟨he, ?_⟩
    rcases hyes with hl | ⟨_, ho⟩
    · exfalso
      have : U * d₁ * d₂ < 2 * n₁ * d₂ := Nat.mul_lt_mul_of_pos_right hl h₂
      have : U * d₂ * d₁ < 2 * n₂ * d₁ := by
        calc U * d₂ * d₁ = U * d₁ * d₂ := by ring
          _ < 2 * n₁ * d₂ := this
          _ = 2 * (n₁ * d₂) := by ring
          _ ≤ 2 * (n₂ * d₁) := Nat.mul_le_mul_left _ h
          _ = 2 * n₂ * d₁ := by ring
      rw [he] at this
      omega
    · exact ho

theorem magOfRatio_mono {n₁ d₁ n₂ d₂ : Nat} (h₁ : 0 < d₁) (h₂ : 0 < d₂) (h : n₁ * d₂ ≤ n₂ * d₁) :
    magOfRatio n₁ d₁ ≤ magOfRatio n₂ d₂ := by
  have := rawMag_mono h₁ h₂ h
  rw [magOfRatio_eq_min, magOfRatio_eq_min]
  omega

/-- A representable value rounds to itself. -/
theorem rawMag_exact (m den : Nat) (hd : 0 < den) : rawMag (unitsOfMag m * den) den = m := by
  have h5 : ∀ j, (unitsOfMag j + unitsOfMag (j + 1)) * den = unitsOfMag j * den + unitsOfMag (j + 1) * den :=
    fun _ => Nat.add_mul ..
  apply Nat.le_antisymm
  · by_contra hlt
    rw [Nat.not_le, lt_rawMag_iff _ _ _ hd, h5] at hlt
    have := Nat.mul_lt_mul_of_pos_right (unitsOfMag_succ_lt m) hd
    omega
  · by_contra hlt
    rw [Nat.not_le] at hlt
    obtain ⟨j, rfl⟩ : ∃ j, m = j + 1 := ⟨m - 1, by omega⟩
    have hno : ¬j < rawMag (unitsOfMag (j + 1) * den) den := by omega
    rw [lt_rawMag_iff _ _ _ hd, h5] at hno
    have := Nat.mul_lt_mul_of_pos_right (unitsOfMag_succ_lt j) hd
    omega

theorem magOfRatio_exact (m den : Nat) (hd : 0 < den) (hm : m ≤ infMag) : magOfRatio (unitsOfMag m * den) den = m := by
  rw [magOfRatio_eq_min, rawMag_exact m den hd]
  omega

/-- A value at most a representable one rounds to at most it. -/
theorem magOfRatio_le_of_le {num den m : Nat} (hd : 0 < den) (h : num ≤ unitsOfMag m * den) : magOfRatio num den ≤ m := by
  have h1 := rawMag_mono hd hd (Nat.mul_le_mul_right den h)
  rw [rawMag_exact m den hd] at h1
  rw [magOfRatio_eq_min]
  omega

/-- A value at least a representable one rounds to at least it. -/
theorem le_magOfRatio_of_le {num den m : Nat} (hd : 0 < den) (hm : m ≤ infMag) (h : unitsOfMag m * den ≤ num) :
    m ≤ magOfRatio num den := by
  have h1 := rawMag_mono hd hd (Nat.mul_le_mul_right den h)
  rw [rawMag_exact m den hd] at h1
  rw [magOfRatio_eq_min]
  omega

@[simp] theorem magOfRatio_zero (den : Nat) : magOfRatio 0 den = 0 := by simp [magOfRatio, roundAt]

/-- How many units 1.0 has. -/
theorem unitsOfMag_one : unitsOfMag (1023 * 2 ^ 52) = unit := by
  have h := unitsOfMag_eq 1022 (2 ^ 52) (by decide) (.inr (Nat.le_refl _))
  rw [show 1022 * 2 ^ 52 + 2 ^ 52 = 1023 * 2 ^ 52 by norm_num] at h
  rw [h, ← Nat.pow_add, unit]

theorem unit_pos : 0 < unit := by
  unfold unit
  exact Nat.pow_pos (by decide)

/-- Every whole number up to 2^53 is a value of the format, which `floor` answers with exactly. -/
theorem exists_mag_of_whole (n : Nat) (hn : n ≤ 2 ^ 53) : ∃ m < infMag, unitsOfMag m = n * unit := by
  rcases Nat.eq_zero_or_pos n with rfl | hp
  · exact ⟨0, by decide, by simp⟩
  have hlo : 2 ^ Nat.log2 n ≤ n := Nat.log2_self_le hp.ne'
  have hhi : n < 2 ^ (Nat.log2 n + 1) := Nat.lt_log2_self
  have hl : Nat.log2 n ≤ 53 := by
    by_contra h
    have : 2 ^ 54 ≤ 2 ^ Nat.log2 n := Nat.pow_le_pow_right (by decide) (by omega)
    omega
  generalize Nat.log2 n = l at *
  rcases Nat.lt_or_ge 52 l with h | h
  · have e : n = 2 ^ 53 := by
      have : l = 53 := by omega
      subst this; omega
    refine ⟨1075 * 2 ^ 52 + 2 ^ 52, by decide, ?_⟩
    rw [unitsOfMag_eq _ _ (by decide) (.inr (Nat.le_refl _)), e, unit, ← Nat.pow_add, ← Nat.pow_add]
  · have h1 : 2 ^ 52 ≤ n * 2 ^ (52 - l) := by
      calc 2 ^ 52 = 2 ^ l * 2 ^ (52 - l) := by rw [← Nat.pow_add]; congr 1; omega
        _ ≤ _ := Nat.mul_le_mul_right _ hlo
    have h2 : n * 2 ^ (52 - l) < 2 ^ 53 := by
      calc n * 2 ^ (52 - l) < 2 ^ (l + 1) * 2 ^ (52 - l) := Nat.mul_lt_mul_of_pos_right hhi (Nat.two_pow_pos _)
        _ = _ := by rw [← Nat.pow_add]; congr 1; omega
    refine ⟨(1074 - (52 - l)) * 2 ^ 52 + n * 2 ^ (52 - l), ?_, ?_⟩
    · unfold infMag; omega
    · rw [unitsOfMag_eq _ _ h2.le (.inr h1), unit, Nat.mul_assoc, ← Nat.pow_add]
      congr 2; omega

/-! ### The operations on finite values -/

/-- The IEEE order of two values is that of their exact values. -/
theorem key_lt_iff (x y : F64) : x.key < y.key ↔ x.signedUnits < y.signedUnits := by
  have hxy := unitsOfMag_strictMono.lt_iff_lt (a := x.mag) (b := y.mag)
  have hyx := unitsOfMag_strictMono.lt_iff_lt (a := y.mag) (b := x.mag)
  have hx := unitsOfMag_strictMono.lt_iff_lt (a := 0) (b := x.mag)
  have hy := unitsOfMag_strictMono.lt_iff_lt (a := 0) (b := y.mag)
  rw [unitsOfMag_zero] at hx hy
  unfold key signedUnits units
  cases x.sign <;> cases y.sign <;> simp only [if_true, if_false, Bool.false_eq_true] <;> omega

theorem neg_signedUnits (x : F64) : x.neg.signedUnits = -x.signedUnits := by
  cases h : x.sign <;> simp [signedUnits, units, h]

theorem add_finite {x y : F64} (hx : x.isFinite = true) (hy : y.isFinite = true) :
    add x y =
      if x.signedUnits + y.signedUnits = 0 then ofSignMag (x.sign && y.sign) 0
      else ofSignMag (decide (x.signedUnits + y.signedUnits < 0))
        (magOfRatio (x.signedUnits + y.signedUnits).natAbs 1) := by
  simp [add, not_isNaN_of_isFinite, not_isInf_of_isFinite, hx, hy]

theorem mul_finite {x y : F64} (hx : x.isFinite = true) (hy : y.isFinite = true) :
    mul x y = ofSignMag (x.sign != y.sign) (magOfRatio (x.units * y.units) unit) := by
  simp [mul, not_isNaN_of_isFinite, not_isInf_of_isFinite, hx, hy]

theorem div_finite {x y : F64} (hx : x.isFinite = true) (hy : y.isFinite = true) (h : y.isZero = false) :
    div x y = ofSignMag (x.sign != y.sign) (magOfRatio (x.units * unit) y.units) := by
  simp [div, not_isNaN_of_isFinite, not_isInf_of_isFinite, hx, hy, h]

end Sys2Proof.F64
end

