-- ==== Sys2Proof/Laws/Memory.lean ====
section
/-! SUPPORT. The laws of the memory: a read after a write, and the canonical form that every write keeps. -/

namespace Sys2Proof.Machine.Memory

@[simp] theorem read_nil (a : Nat) : read [] a = unlisted := rfl

/-- A cell below every listed one is unlisted. -/
theorem read_below {m : Memory} {a : Nat} (h : ∀ c ∈ m, a < c.1) : read m a = unlisted := by
  induction m with
  | nil => rfl
  | cons c m ih =>
    have h1 := h c (by simp)
    rw [read, if_neg (by omega)]
    exact ih fun d hd => h d (by simp [hd])

theorem read_write_same (m : Memory) (a : Nat) (x : F64) (h : m.Pairwise (fun c d => c.1 < d.1)) :
    read (write m a x) a = x := by
  induction m with
  | nil => unfold write; split <;> simp_all [read]
  | cons c m ih =>
    obtain ⟨k, v⟩ := c
    rw [List.pairwise_cons] at h
    unfold write
    split
    · next hak =>
      split
      · next hx =>
        rw [hx]
        apply read_below
        intro c hc
        rcases List.mem_cons.1 hc with rfl | hc
        · exact hak
        · exact Nat.lt_trans hak (h.1 c hc)
      · simp [read]
    · split
      · next hak =>
        split
        · next hx =>
          rw [hx]
          apply read_below
          intro c hc
          have := h.1 c hc
          omega
        · simp [read]
      · next hna hne =>
        rw [read, if_neg (by omega)]
        exact ih h.2

theorem read_write_other (m : Memory) (a b : Nat) (x : F64) (hab : b ≠ a) : read (write m a x) b = read m b := by
  induction m with
  | nil =>
    unfold write
    split
    · rfl
    · simp [read, Ne.symm hab]
  | cons c m ih =>
    obtain ⟨k, v⟩ := c
    unfold write
    split
    · split
      · rfl
      · rw [read, if_neg (by omega)]
    · split
      · next hak =>
        subst hak
        split
        · rw [read, if_neg (by omega)]
        · rw [read, if_neg (by omega), read, if_neg (by omega)]
      · simp only [read]
        rw [ih]

theorem mem_write_key {m : Memory} {a : Nat} {x : F64} {c : Nat × F64} (h : c ∈ write m a x) : c = (a, x) ∨ c ∈ m := by
  induction m with
  | nil => unfold write at h; split at h <;> simp_all
  | cons d m ih =>
    obtain ⟨k, v⟩ := d
    unfold write at h
    split at h
    · split at h
      · exact .inr h
      · rcases List.mem_cons.1 h with h | h
        · exact .inl h
        · exact .inr h
    · split at h
      · split at h
        · exact .inr (by simp [h])
        · rcases List.mem_cons.1 h with h | h
          · exact .inl h
          · exact .inr (by simp [h])
      · rcases List.mem_cons.1 h with h | h
        · exact .inr (by simp [h])
        · rcases ih h with h | h
          · exact .inl h
          · exact .inr (by simp [h])

/-- Every write keeps the canonical form. -/
theorem write_wf (m : Memory) (a : Nat) (x : F64) (h : wf m) : wf (write m a x) := by
  obtain ⟨hs, hz⟩ := h
  induction m with
  | nil => unfold write; split <;> simp_all [wf]
  | cons c m ih =>
    obtain ⟨k, v⟩ := c
    rw [List.pairwise_cons] at hs
    have hzm : ∀ c ∈ m, c.2 ≠ unlisted := fun c hc => hz c (by simp [hc])
    have hv : v ≠ unlisted := hz (k, v) (by simp)
    obtain ⟨ihs, ihz⟩ := ih hs.2 hzm
    unfold write
    split
    · next hak =>
      split
      · exact ⟨List.pairwise_cons.2 hs, hz⟩
      · next hx =>
        refine ⟨List.pairwise_cons.2 ⟨?_, List.pairwise_cons.2 hs⟩, ?_⟩
        · intro c hc
          rcases List.mem_cons.1 hc with rfl | hc
          · exact hak
          · exact Nat.lt_trans hak (hs.1 c hc)
        · intro c hc
          rcases List.mem_cons.1 hc with rfl | hc
          · exact hx
          · exact hz c hc
    · split
      · next hak =>
        subst hak
        split
        · exact ⟨hs.2, hzm⟩
        · next hx =>
          refine ⟨List.pairwise_cons.2 hs, ?_⟩
          intro c hc
          rcases List.mem_cons.1 hc with rfl | hc
          · exact hx
          · exact hzm c hc
      · next hlt hne =>
        refine ⟨List.pairwise_cons.2 ⟨?_, ihs⟩, ?_⟩
        · intro c hc
          rcases mem_write_key hc with rfl | hc
          · show k < a
            omega
          · exact hs.1 c hc
        · intro c hc
          rcases List.mem_cons.1 hc with rfl | hc
          · exact hv
          · exact ihz c hc

/-- A write inside the capacity lists no cell outside it. -/
theorem write_bound {m : Memory} {a len : Nat} {x : F64} (h : ∀ c ∈ m, c.1 < len) (ha : a < len) :
    ∀ c ∈ write m a x, c.1 < len := by
  intro c hc
  rcases mem_write_key hc with rfl | hc
  · exact ha
  · exact h c hc

end Sys2Proof.Machine.Memory
end

