-- ==== Sys2Proof/Laws/State.lean ====
section
/-! SUPPORT. One lemma per field per named update of the state, true by rfl, so that no proof unfolds an update. -/

namespace Sys2Proof.Machine

variable (s : State)

@[simp] theorem State.setParam_cfg (id : ParamId) (p : ParamReg) : (s.setParam id p).cfg = s.cfg := rfl
@[simp] theorem State.setParam_voices (id : ParamId) (p : ParamReg) : (s.setParam id p).voices = s.voices := rfl
@[simp] theorem State.setParam_cur (id : ParamId) (p : ParamReg) : (s.setParam id p).cur = s.cur := rfl
@[simp] theorem State.setParam_clock (id : ParamId) (p : ParamReg) : (s.setParam id p).clock = s.clock := rfl
@[simp] theorem State.setParam_params (id : ParamId) (p : ParamReg) : (s.setParam id p).params = s.params.set id.index p := rfl
@[simp] theorem State.setParam_filter (id : ParamId) (p : ParamReg) : (s.setParam id p).filter = s.filter := rfl
@[simp] theorem State.setParam_rbi (id : ParamId) (p : ParamReg) : (s.setParam id p).rbi = s.rbi := rfl
@[simp] theorem State.setParam_rbo (id : ParamId) (p : ParamReg) : (s.setParam id p).rbo = s.rbo := rfl
@[simp] theorem State.setParam_cq (id : ParamId) (p : ParamReg) : (s.setParam id p).cq = s.cq := rfl
@[simp] theorem State.setParam_rejects (id : ParamId) (p : ParamReg) : (s.setParam id p).rejects = s.rejects := rfl
@[simp] theorem State.setParam_csr (id : ParamId) (p : ParamReg) : (s.setParam id p).csr = s.csr := rfl
@[simp] theorem State.setParam_work (id : ParamId) (p : ParamReg) : (s.setParam id p).work = s.work := rfl
@[simp] theorem State.setParam_phase (id : ParamId) (p : ParamReg) : (s.setParam id p).phase = s.phase := rfl
@[simp] theorem State.setParam_inReset (id : ParamId) (p : ParamReg) : (s.setParam id p).inReset = s.inReset := rfl
@[simp] theorem State.setParam_controlOut (id : ParamId) (p : ParamReg) : (s.setParam id p).controlOut = s.controlOut := rfl
@[simp] theorem State.setParam_renderOut (id : ParamId) (p : ParamReg) : (s.setParam id p).renderOut = s.renderOut := rfl
@[simp] theorem State.setParam_inputs (id : ParamId) (p : ParamReg) : (s.setParam id p).inputs = s.inputs := rfl
@[simp] theorem State.setParam_freeIdx (id : ParamId) (p : ParamReg) : (s.setParam id p).freeIdx = s.freeIdx := rfl

@[simp] theorem State.reply_cfg (c : Code) (ws : List Word) : (s.reply c ws).cfg = s.cfg := rfl
@[simp] theorem State.reply_voices (c : Code) (ws : List Word) : (s.reply c ws).voices = s.voices := rfl
@[simp] theorem State.reply_cur (c : Code) (ws : List Word) : (s.reply c ws).cur = s.cur := rfl
@[simp] theorem State.reply_clock (c : Code) (ws : List Word) : (s.reply c ws).clock = s.clock := rfl
@[simp] theorem State.reply_params (c : Code) (ws : List Word) : (s.reply c ws).params = s.params := rfl
@[simp] theorem State.reply_filter (c : Code) (ws : List Word) : (s.reply c ws).filter = s.filter := rfl
@[simp] theorem State.reply_rbi (c : Code) (ws : List Word) : (s.reply c ws).rbi = s.rbi := rfl
@[simp] theorem State.reply_rbo (c : Code) (ws : List Word) : (s.reply c ws).rbo = s.rbo := rfl
@[simp] theorem State.reply_cq (c : Code) (ws : List Word) : (s.reply c ws).cq = s.cq := rfl
@[simp] theorem State.reply_rejects (c : Code) (ws : List Word) : (s.reply c ws).rejects = s.rejects := rfl
@[simp] theorem State.reply_csr (c : Code) (ws : List Word) : (s.reply c ws).csr = s.csr := rfl
@[simp] theorem State.reply_work (c : Code) (ws : List Word) : (s.reply c ws).work = s.work := rfl
@[simp] theorem State.reply_phase (c : Code) (ws : List Word) : (s.reply c ws).phase = s.phase := rfl
@[simp] theorem State.reply_inReset (c : Code) (ws : List Word) : (s.reply c ws).inReset = s.inReset := rfl
@[simp] theorem State.reply_controlOut (c : Code) (ws : List Word) : (s.reply c ws).controlOut = some ⟨c.word, ws⟩ := rfl
@[simp] theorem State.reply_renderOut (c : Code) (ws : List Word) : (s.reply c ws).renderOut = s.renderOut := rfl
@[simp] theorem State.reply_inputs (c : Code) (ws : List Word) : (s.reply c ws).inputs = s.inputs := rfl
@[simp] theorem State.reply_freeIdx (c : Code) (ws : List Word) : (s.reply c ws).freeIdx = s.freeIdx := rfl

@[simp] theorem State.reject_cfg (c : Code) : (s.reject c).cfg = s.cfg := rfl
@[simp] theorem State.reject_voices (c : Code) : (s.reject c).voices = s.voices := rfl
@[simp] theorem State.reject_cur (c : Code) : (s.reject c).cur = s.cur := rfl
@[simp] theorem State.reject_clock (c : Code) : (s.reject c).clock = s.clock := rfl
@[simp] theorem State.reject_params (c : Code) : (s.reject c).params = s.params := rfl
@[simp] theorem State.reject_filter (c : Code) : (s.reject c).filter = s.filter := rfl
@[simp] theorem State.reject_rbi (c : Code) : (s.reject c).rbi = s.rbi := rfl
@[simp] theorem State.reject_rbo (c : Code) : (s.reject c).rbo = s.rbo := rfl
@[simp] theorem State.reject_cq (c : Code) : (s.reject c).cq = s.cq := rfl
@[simp] theorem State.reject_rejects (c : Code) : (s.reject c).rejects = s.rejects + 1 := rfl
@[simp] theorem State.reject_csr (c : Code) : (s.reject c).csr = s.csr := rfl
@[simp] theorem State.reject_work (c : Code) : (s.reject c).work = s.work := rfl
@[simp] theorem State.reject_phase (c : Code) : (s.reject c).phase = s.phase := rfl
@[simp] theorem State.reject_inReset (c : Code) : (s.reject c).inReset = s.inReset := rfl
@[simp] theorem State.reject_controlOut (c : Code) : (s.reject c).controlOut = some ⟨c.word, []⟩ := rfl
@[simp] theorem State.reject_renderOut (c : Code) : (s.reject c).renderOut = s.renderOut := rfl
@[simp] theorem State.reject_inputs (c : Code) : (s.reject c).inputs = s.inputs := rfl
@[simp] theorem State.reject_freeIdx (c : Code) : (s.reject c).freeIdx = s.freeIdx := rfl

@[simp] theorem State.append_cfg (p : Queued) : (s.append p).cfg = s.cfg := rfl
@[simp] theorem State.append_voices (p : Queued) : (s.append p).voices = s.voices := rfl
@[simp] theorem State.append_cur (p : Queued) : (s.append p).cur = s.cur := rfl
@[simp] theorem State.append_clock (p : Queued) : (s.append p).clock = s.clock := rfl
@[simp] theorem State.append_params (p : Queued) : (s.append p).params = s.params := rfl
@[simp] theorem State.append_filter (p : Queued) : (s.append p).filter = s.filter := rfl
@[simp] theorem State.append_rbi (p : Queued) : (s.append p).rbi = s.rbi := rfl
@[simp] theorem State.append_rbo (p : Queued) : (s.append p).rbo = s.rbo := rfl
@[simp] theorem State.append_cq (p : Queued) : (s.append p).cq = s.cq ++ [p] := rfl
@[simp] theorem State.append_rejects (p : Queued) : (s.append p).rejects = s.rejects := rfl
@[simp] theorem State.append_csr (p : Queued) : (s.append p).csr = s.csr := rfl
@[simp] theorem State.append_work (p : Queued) : (s.append p).work = s.work := rfl
@[simp] theorem State.append_phase (p : Queued) : (s.append p).phase = s.phase := rfl
@[simp] theorem State.append_inReset (p : Queued) : (s.append p).inReset = s.inReset := rfl
@[simp] theorem State.append_controlOut (p : Queued) : (s.append p).controlOut = s.controlOut := rfl
@[simp] theorem State.append_renderOut (p : Queued) : (s.append p).renderOut = s.renderOut := rfl
@[simp] theorem State.append_inputs (p : Queued) : (s.append p).inputs = s.inputs := rfl
@[simp] theorem State.append_freeIdx (p : Queued) : (s.append p).freeIdx = s.freeIdx := rfl

@[simp] theorem State.pop_cfg (rest : List PortEvent) : (s.pop rest).cfg = s.cfg := rfl
@[simp] theorem State.pop_voices (rest : List PortEvent) : (s.pop rest).voices = s.voices := rfl
@[simp] theorem State.pop_cur (rest : List PortEvent) : (s.pop rest).cur = s.cur := rfl
@[simp] theorem State.pop_clock (rest : List PortEvent) : (s.pop rest).clock = s.clock := rfl
@[simp] theorem State.pop_params (rest : List PortEvent) : (s.pop rest).params = s.params := rfl
@[simp] theorem State.pop_filter (rest : List PortEvent) : (s.pop rest).filter = s.filter := rfl
@[simp] theorem State.pop_rbi (rest : List PortEvent) : (s.pop rest).rbi = s.rbi := rfl
@[simp] theorem State.pop_rbo (rest : List PortEvent) : (s.pop rest).rbo = s.rbo := rfl
@[simp] theorem State.pop_cq (rest : List PortEvent) : (s.pop rest).cq = s.cq := rfl
@[simp] theorem State.pop_rejects (rest : List PortEvent) : (s.pop rest).rejects = s.rejects := rfl
@[simp] theorem State.pop_csr (rest : List PortEvent) : (s.pop rest).csr = s.csr := rfl
@[simp] theorem State.pop_work (rest : List PortEvent) : (s.pop rest).work = s.work := rfl
@[simp] theorem State.pop_phase (rest : List PortEvent) : (s.pop rest).phase = s.phase := rfl
@[simp] theorem State.pop_inReset (rest : List PortEvent) : (s.pop rest).inReset = s.inReset := rfl
@[simp] theorem State.pop_controlOut (rest : List PortEvent) : (s.pop rest).controlOut = s.controlOut := rfl
@[simp] theorem State.pop_renderOut (rest : List PortEvent) : (s.pop rest).renderOut = s.renderOut := rfl
@[simp] theorem State.pop_inputs (rest : List PortEvent) : (s.pop rest).inputs = rest := rfl
@[simp] theorem State.pop_freeIdx (rest : List PortEvent) : (s.pop rest).freeIdx = s.freeIdx + 1 := rfl

@[simp] theorem State.trigger_cfg (f g : F64) : (trigger f g s).cfg = s.cfg := rfl
@[simp] theorem State.trigger_voices (f g : F64) : (trigger f g s).voices = triggeredVoices f g s := rfl
@[simp] theorem State.trigger_cur (f g : F64) : (trigger f g s).cur = (s.cur + 1) % s.cfg.raw.numVoices := rfl
@[simp] theorem State.trigger_clock (f g : F64) : (trigger f g s).clock = s.clock := rfl
@[simp] theorem State.trigger_params (f g : F64) : (trigger f g s).params = s.params := rfl
@[simp] theorem State.trigger_filter (f g : F64) : (trigger f g s).filter = s.filter := rfl
@[simp] theorem State.trigger_rbi (f g : F64) : (trigger f g s).rbi = s.rbi := rfl
@[simp] theorem State.trigger_rbo (f g : F64) : (trigger f g s).rbo = s.rbo := rfl
@[simp] theorem State.trigger_cq (f g : F64) : (trigger f g s).cq = s.cq := rfl
@[simp] theorem State.trigger_rejects (f g : F64) : (trigger f g s).rejects = s.rejects := rfl
@[simp] theorem State.trigger_csr (f g : F64) : (trigger f g s).csr = s.csr := rfl
@[simp] theorem State.trigger_work (f g : F64) : (trigger f g s).work = s.work := rfl
@[simp] theorem State.trigger_phase (f g : F64) : (trigger f g s).phase = s.phase := rfl
@[simp] theorem State.trigger_inReset (f g : F64) : (trigger f g s).inReset = s.inReset := rfl
@[simp] theorem State.trigger_controlOut (f g : F64) : (trigger f g s).controlOut = s.controlOut := rfl
@[simp] theorem State.trigger_renderOut (f g : F64) : (trigger f g s).renderOut = s.renderOut := rfl
@[simp] theorem State.trigger_inputs (f g : F64) : (trigger f g s).inputs = s.inputs := rfl
@[simp] theorem State.trigger_freeIdx (f g : F64) : (trigger f g s).freeIdx = s.freeIdx := rfl

@[simp] theorem State.writeK_cfg (id : ParamId) (x : F64) : (writeK id x s).cfg = s.cfg := rfl
@[simp] theorem State.writeK_voices (id : ParamId) (x : F64) : (writeK id x s).voices = s.voices := rfl
@[simp] theorem State.writeK_cur (id : ParamId) (x : F64) : (writeK id x s).cur = s.cur := rfl
@[simp] theorem State.writeK_clock (id : ParamId) (x : F64) : (writeK id x s).clock = s.clock := rfl
@[simp] theorem State.writeK_params (id : ParamId) (x : F64) : (writeK id x s).params = s.params.set id.index { s.param id with mode := .k, kval := id.norm s.cfg x } := rfl
@[simp] theorem State.writeK_filter (id : ParamId) (x : F64) : (writeK id x s).filter = s.filter := rfl
@[simp] theorem State.writeK_rbi (id : ParamId) (x : F64) : (writeK id x s).rbi = s.rbi := rfl
@[simp] theorem State.writeK_rbo (id : ParamId) (x : F64) : (writeK id x s).rbo = s.rbo := rfl
@[simp] theorem State.writeK_cq (id : ParamId) (x : F64) : (writeK id x s).cq = s.cq := rfl
@[simp] theorem State.writeK_rejects (id : ParamId) (x : F64) : (writeK id x s).rejects = s.rejects := rfl
@[simp] theorem State.writeK_csr (id : ParamId) (x : F64) : (writeK id x s).csr = s.csr := rfl
@[simp] theorem State.writeK_work (id : ParamId) (x : F64) : (writeK id x s).work = s.work := rfl
@[simp] theorem State.writeK_phase (id : ParamId) (x : F64) : (writeK id x s).phase = s.phase := rfl
@[simp] theorem State.writeK_inReset (id : ParamId) (x : F64) : (writeK id x s).inReset = s.inReset := rfl
@[simp] theorem State.writeK_controlOut (id : ParamId) (x : F64) : (writeK id x s).controlOut = s.controlOut := rfl
@[simp] theorem State.writeK_renderOut (id : ParamId) (x : F64) : (writeK id x s).renderOut = s.renderOut := rfl
@[simp] theorem State.writeK_inputs (id : ParamId) (x : F64) : (writeK id x s).inputs = s.inputs := rfl
@[simp] theorem State.writeK_freeIdx (id : ParamId) (x : F64) : (writeK id x s).freeIdx = s.freeIdx := rfl

@[simp] theorem State.writeA_cfg (id : ParamId) (xs : List F64) : (writeA id xs s).cfg = s.cfg := rfl
@[simp] theorem State.writeA_voices (id : ParamId) (xs : List F64) : (writeA id xs s).voices = s.voices := rfl
@[simp] theorem State.writeA_cur (id : ParamId) (xs : List F64) : (writeA id xs s).cur = s.cur := rfl
@[simp] theorem State.writeA_clock (id : ParamId) (xs : List F64) : (writeA id xs s).clock = s.clock := rfl
@[simp] theorem State.writeA_params (id : ParamId) (xs : List F64) : (writeA id xs s).params = s.params.set id.index { s.param id with mode := .a, arr := xs.map (id.norm s.cfg) } := rfl
@[simp] theorem State.writeA_filter (id : ParamId) (xs : List F64) : (writeA id xs s).filter = s.filter := rfl
@[simp] theorem State.writeA_rbi (id : ParamId) (xs : List F64) : (writeA id xs s).rbi = s.rbi := rfl
@[simp] theorem State.writeA_rbo (id : ParamId) (xs : List F64) : (writeA id xs s).rbo = s.rbo := rfl
@[simp] theorem State.writeA_cq (id : ParamId) (xs : List F64) : (writeA id xs s).cq = s.cq := rfl
@[simp] theorem State.writeA_rejects (id : ParamId) (xs : List F64) : (writeA id xs s).rejects = s.rejects := rfl
@[simp] theorem State.writeA_csr (id : ParamId) (xs : List F64) : (writeA id xs s).csr = s.csr := rfl
@[simp] theorem State.writeA_work (id : ParamId) (xs : List F64) : (writeA id xs s).work = s.work := rfl
@[simp] theorem State.writeA_phase (id : ParamId) (xs : List F64) : (writeA id xs s).phase = s.phase := rfl
@[simp] theorem State.writeA_inReset (id : ParamId) (xs : List F64) : (writeA id xs s).inReset = s.inReset := rfl
@[simp] theorem State.writeA_controlOut (id : ParamId) (xs : List F64) : (writeA id xs s).controlOut = s.controlOut := rfl
@[simp] theorem State.writeA_renderOut (id : ParamId) (xs : List F64) : (writeA id xs s).renderOut = s.renderOut := rfl
@[simp] theorem State.writeA_inputs (id : ParamId) (xs : List F64) : (writeA id xs s).inputs = s.inputs := rfl
@[simp] theorem State.writeA_freeIdx (id : ParamId) (xs : List F64) : (writeA id xs s).freeIdx = s.freeIdx := rfl

@[simp] theorem State.commit_cfg : (s.commit).cfg = s.cfg := rfl
@[simp] theorem State.commit_voices : (s.commit).voices = s.voices := rfl
@[simp] theorem State.commit_cur : (s.commit).cur = s.cur := rfl
@[simp] theorem State.commit_clock : (s.commit).clock = s.clock := rfl
@[simp] theorem State.commit_params : (s.commit).params = s.params := rfl
@[simp] theorem State.commit_filter : (s.commit).filter = s.filter := rfl
@[simp] theorem State.commit_rbi : (s.commit).rbi = s.rbi := rfl
@[simp] theorem State.commit_rbo : (s.commit).rbo = s.rbo := rfl
@[simp] theorem State.commit_cq : (s.commit).cq = s.cq := rfl
@[simp] theorem State.commit_rejects : (s.commit).rejects = s.rejects := rfl
@[simp] theorem State.commit_csr : (s.commit).csr = s.toCommit := rfl
@[simp] theorem State.commit_work : (s.commit).work = s.work := rfl
@[simp] theorem State.commit_phase : (s.commit).phase = s.phase := rfl
@[simp] theorem State.commit_inReset : (s.commit).inReset = s.inReset := rfl
@[simp] theorem State.commit_controlOut : (s.commit).controlOut = s.controlOut := rfl
@[simp] theorem State.commit_renderOut : (s.commit).renderOut = s.renderOut := rfl
@[simp] theorem State.commit_inputs : (s.commit).inputs = s.inputs := rfl
@[simp] theorem State.commit_freeIdx : (s.commit).freeIdx = s.freeIdx := rfl

@[simp] theorem State.delivered_cfg (sy : Synth) (fi : FilteredBlock) (cru out : List F64) (e : Engine) : (s.delivered sy fi cru out e).cfg = s.cfg := rfl
@[simp] theorem State.delivered_voices (sy : Synth) (fi : FilteredBlock) (cru out : List F64) (e : Engine) : (s.delivered sy fi cru out e).voices = sy.voices := rfl
@[simp] theorem State.delivered_cur (sy : Synth) (fi : FilteredBlock) (cru out : List F64) (e : Engine) : (s.delivered sy fi cru out e).cur = s.cur := rfl
@[simp] theorem State.delivered_clock (sy : Synth) (fi : FilteredBlock) (cru out : List F64) (e : Engine) : (s.delivered sy fi cru out e).clock = s.clock + BitVec.ofNat 64 s.cfg.raw.quantum := rfl
@[simp] theorem State.delivered_params (sy : Synth) (fi : FilteredBlock) (cru out : List F64) (e : Engine) : (s.delivered sy fi cru out e).params = s.params.map (ParamReg.revert s.cfg.raw.quantum) := rfl
@[simp] theorem State.delivered_filter (sy : Synth) (fi : FilteredBlock) (cru out : List F64) (e : Engine) : (s.delivered sy fi cru out e).filter = fi.cells := rfl
@[simp] theorem State.delivered_rbi (sy : Synth) (fi : FilteredBlock) (cru out : List F64) (e : Engine) : (s.delivered sy fi cru out e).rbi = e.rbi := rfl
@[simp] theorem State.delivered_rbo (sy : Synth) (fi : FilteredBlock) (cru out : List F64) (e : Engine) : (s.delivered sy fi cru out e).rbo = e.rbo := rfl
@[simp] theorem State.delivered_cq (sy : Synth) (fi : FilteredBlock) (cru out : List F64) (e : Engine) : (s.delivered sy fi cru out e).cq = s.cq := rfl
@[simp] theorem State.delivered_rejects (sy : Synth) (fi : FilteredBlock) (cru out : List F64) (e : Engine) : (s.delivered sy fi cru out e).rejects = s.rejects := rfl
@[simp] theorem State.delivered_csr (sy : Synth) (fi : FilteredBlock) (cru out : List F64) (e : Engine) : (s.delivered sy fi cru out e).csr = s.csr := rfl
@[simp] theorem State.delivered_work (sy : Synth) (fi : FilteredBlock) (cru out : List F64) (e : Engine) : (s.delivered sy fi cru out e).work = ⟨sy.syn, fi.flt, cru, out, e.dry, e.combs, e.proc⟩ := rfl
@[simp] theorem State.delivered_phase (sy : Synth) (fi : FilteredBlock) (cru out : List F64) (e : Engine) : (s.delivered sy fi cru out e).phase = .idle := rfl
@[simp] theorem State.delivered_inReset (sy : Synth) (fi : FilteredBlock) (cru out : List F64) (e : Engine) : (s.delivered sy fi cru out e).inReset = s.inReset := rfl
@[simp] theorem State.delivered_controlOut (sy : Synth) (fi : FilteredBlock) (cru out : List F64) (e : Engine) : (s.delivered sy fi cru out e).controlOut = s.controlOut := rfl
@[simp] theorem State.delivered_renderOut (sy : Synth) (fi : FilteredBlock) (cru out : List F64) (e : Engine) : (s.delivered sy fi cru out e).renderOut = some ⟨planar s.cfg.raw.cOut out, 1⟩ := rfl
@[simp] theorem State.delivered_inputs (sy : Synth) (fi : FilteredBlock) (cru out : List F64) (e : Engine) : (s.delivered sy fi cru out e).inputs = s.inputs := rfl
@[simp] theorem State.delivered_freeIdx (sy : Synth) (fi : FilteredBlock) (cru out : List F64) (e : Engine) : (s.delivered sy fi cru out e).freeIdx = s.freeIdx := rfl

end Sys2Proof.Machine
end

