-- ==== Sys2Proof/Laws/Ops.lean ====
section
/-! SUPPORT. What each shared operation can do, said once. -/

namespace Sys2Proof.Machine

@[simp] theorem forUpTo_zero {α : Type} (body : Nat → α → α) (a : α) : forUpTo 0 body a = a := rfl

@[simp] theorem forUpTo_succ {α : Type} (n : Nat) (body : Nat → α → α) (a : α) :
    forUpTo (n + 1) body a = body n (forUpTo n body a) := rfl

/-- A property that every pass keeps holds after the loop. -/
theorem forUpTo_induction {α : Type} (Q : α → Prop) (n : Nat) (body : Nat → α → α) (a : α) (h0 : Q a)
    (hs : ∀ i b, i < n → Q b → Q (body i b)) : Q (forUpTo n body a) := by
  induction n with
  | zero => exact h0
  | succ n ih => exact hs n _ (Nat.lt_succ_self n) (ih fun i b hi hb => hs i b (Nat.lt_succ_of_lt hi) hb)

/-- The space check rejects with FULL or appends and accepts (60_exceptions.md R291). -/
theorem State.offer_cases (s : State) (p : Queued) :
    (s.cfg.raw.qcap < s.occupied + p.size ∧ s.offer p = s.reject .full) ∨
    (s.occupied + p.size ≤ s.cfg.raw.qcap ∧ s.offer p = (s.append p).reply .accepted []) := by
  unfold State.offer
  split
  · next h => exact .inl ⟨h, rfl⟩
  · next h => exact .inr ⟨by omega, rfl⟩

@[simp] theorem Phase.removing_idle : Phase.idle.removing = 0 := rfl
@[simp] theorem Phase.removing_draining (n : Nat) : (Phase.draining n).removing = n := rfl
@[simp] theorem Phase.removing_rendering : Phase.rendering.removing = 0 := rfl

/-- QUSED is CQ's words outside a drain and lies between the values before and after one during it (20_memory.md R81). -/
theorem State.qused_bounds (s : State) :
    ((∀ n, s.phase ≠ .draining n) → s.qused = s.queueWords) ∧
    ∀ n, s.phase = .draining n → min n s.queueWords ≤ s.qused ∧ s.qused ≤ max n s.queueWords := by
  refine ⟨fun h => ?_, fun n h => ?_⟩
  · cases hp : s.phase with
    | draining n => exact absurd hp (h n)
    | idle => simp only [State.qused, hp]
    | rendering => simp only [State.qused, hp]
  · have := Nat.mod_lt (Config.freeQueueRead s.freeIdx)
      (show 0 < max n s.queueWords - min n s.queueWords + 1 by omega)
    simp only [State.qused, h]
    omega

/-- The space check counts every accepted packet, no word that the drain did not find, and no more than QCAP holds. -/
theorem State.occupied_bounds (s : State) :
    s.queueWords ≤ s.occupied ∧ s.occupied ≤ s.queueWords + s.phase.removing ∧
    (s.queueWords ≤ s.cfg.raw.qcap → s.occupied ≤ s.cfg.raw.qcap) := by
  cases hp : s.phase with
  | draining n =>
    have := Nat.mod_lt (Config.freeQueueRead s.freeIdx)
      (show 0 < min n (s.cfg.raw.qcap - s.queueWords) + 1 by omega)
    simp only [State.occupied, hp, Phase.removing]
    omega
  | idle => simp only [State.occupied, hp, Phase.removing]; omega
  | rendering => simp only [State.occupied, hp, Phase.removing]; omega

@[simp] theorem State.append_queueWords (s : State) (p : Queued) : (s.append p).queueWords = s.queueWords + p.size := by
  simp [State.queueWords]

@[simp] theorem RingBuffer.push_nil (len : Nat) (rb : RingBuffer) : rb.push len [] = rb := rfl

@[simp] theorem RingBuffer.push_cons (len : Nat) (rb : RingBuffer) (x : F64) (xs : List F64) :
    rb.push len (x :: xs) = (rb.pushOne len x).push len xs := rfl

@[simp] theorem RingBuffer.frames_length (len : Nat) (d : Memory) (m r : Nat) :
    (RingBuffer.frames len d m r).length = m := by
  induction m generalizing r with
  | zero => rfl
  | succ m ih => simp [RingBuffer.frames, ih]

/-- A pull of a whole destination keeps its length. -/
theorem RingBuffer.pulled_length (len n : Nat) (rb : RingBuffer) (dst : List F64) (h : dst.length = n) :
    (rb.pulled len dst n).length = n := by
  simp [RingBuffer.pulled]
  omega

@[simp] theorem ParamId.ofIndex_index (id : ParamId) : ParamId.ofIndex id.index = id := by
  simp [ParamId.ofIndex, ParamId.index]

theorem ParamId.index_injective {a b : ParamId} (h : a.index = b.index) : a = b := by
  rw [← ParamId.ofIndex_index a, h, ParamId.ofIndex_index]

/-- Writing a parameter register and reading one. -/
theorem State.setParam_param (s : State) (id other : ParamId) (p : ParamReg) :
    (s.setParam id p).param other = if other = id then p else s.param other := by
  simp only [State.param, State.setParam_params]
  split
  · next h => subst h; simp
  · next h =>
    have hne : id.index.val ≠ other.index.val := fun he => h (ParamId.index_injective (Fin.ext he)).symm
    exact Vector.getElem_set_ne (by omega) (by omega) hne

end Sys2Proof.Machine
end

