-- ==== Sys2Proof/Laws/PerInstr.lean ====
section
/-! SUPPORT. Statements made per instruction: how an instruction's transfer is framed (30_encoding.md R100, R101, R104, R108). -/

namespace Sys2Proof.Laws.Framing

/-- The opcode of a command (R104); RENDER is no command. -/
def opOf : Instr → Option (BitVec 8)
  | .noteon _ _ => some 0x01
  | .paramK _ _ => some 0x02
  | .paramA _ _ => some 0x02
  | .desc _ => some 0x03
  | .stat _ => some 0x04
  | .render => none

/-- A command's packet is a header with its opcode, RSVD = 0 and LEN the number of payload words (modulo 2^32), then those words; a
RENDER is one request word. -/
def Statement (i : Instr) : Prop :=
  ∀ q : Nat,
    match opOf i, encode q i with
    | some op, .control (hdr :: payload) =>
      (Header.ofWord hdr).op = op ∧ (Header.ofWord hdr).rsvd = 0 ∧
        (Header.ofWord hdr).len = BitVec.ofNat 32 payload.length
    | none, .request w => w = BitVec.ofNat 64 q
    | _, _ => False

theorem packet_framed (op : BitVec 8) (idx : Nat) (payload : List F64) :
    ∃ hdr ws, packet op idx payload = .control (hdr :: ws) ∧ (Header.ofWord hdr).op = op ∧ (Header.ofWord hdr).rsvd = 0 ∧
      (Header.ofWord hdr).len = BitVec.ofNat 32 ws.length :=
  ⟨_, _, rfl, by simp, by simp, by simp⟩

theorem noteon (f v : F64) : Statement (.noteon f v) := by
  intro q
  simp [opOf, encode, packet, opNoteon]

theorem paramK (id : ParamId) (x : F64) : Statement (.paramK id x) := by
  intro q
  simp [opOf, encode, packet, opParam]

theorem paramA (id : ParamId) (xs : List F64) : Statement (.paramA id xs) := by
  intro q
  simp [opOf, encode, packet, opParam]

theorem desc (id : ParamId) : Statement (.desc id) := by
  intro q
  simp [opOf, encode, packet, opDesc]

theorem stat (n : StatReg) : Statement (.stat n) := by
  intro q
  simp [opOf, encode, packet, opStat]

theorem render : Statement .render := fun _ => rfl

end Sys2Proof.Laws.Framing
end

