-- ==== Sys2Proof/Laws/Render.lean ====
section
/-! SUPPORT. What the drain of one packet, the whole drain and the end of a RENDER write, said once. -/

namespace Sys2Proof.Machine

/-- A drained packet writes voices, cursor and parameter registers at most, and reads neither the queue nor the engine's
progress. -/
theorem applyQueued_frame (s : State) (p : Queued) :
    applyQueued s p =
      { s with
        voices := (applyQueued s p).voices
        cur := (applyQueued s p).cur
        params := (applyQueued s p).params } := by
  cases p <;> rfl

@[simp] theorem applyQueued_cfg (s : State) (p : Queued) : (applyQueued s p).cfg = s.cfg := by cases p <;> rfl
@[simp] theorem applyQueued_cq (s : State) (p : Queued) : (applyQueued s p).cq = s.cq := by cases p <;> rfl
@[simp] theorem applyQueued_clock (s : State) (p : Queued) : (applyQueued s p).clock = s.clock := by cases p <;> rfl

/-- The folded drain writes voices, cursor and parameter registers at most. -/
theorem foldl_applyQueued_frame (ps : List Queued) (s : State) :
    ps.foldl applyQueued s =
      { s with
        voices := (ps.foldl applyQueued s).voices
        cur := (ps.foldl applyQueued s).cur
        params := (ps.foldl applyQueued s).params } := by
  induction ps generalizing s with
  | nil => rfl
  | cons p ps ih =>
    rw [List.foldl_cons, ih, applyQueued_frame s p]

/-- The drain empties the queue and writes voices, cursor and parameter registers; nothing else (47_render.md R271). -/
theorem drain_frame (s : State) :
    drain s =
      { s with
        voices := (drain s).voices
        cur := (drain s).cur
        params := (drain s).params
        cq := [] } := by
  unfold drain
  rw [foldl_applyQueued_frame]

@[simp] theorem drain_cq (s : State) : (drain s).cq = [] := rfl
@[simp] theorem drain_cfg (s : State) : (drain s).cfg = s.cfg := by rw [drain_frame]
@[simp] theorem drain_clock (s : State) : (drain s).clock = s.clock := by rw [drain_frame]
@[simp] theorem drain_filter (s : State) : (drain s).filter = s.filter := by rw [drain_frame]
@[simp] theorem drain_rbi (s : State) : (drain s).rbi = s.rbi := by rw [drain_frame]
@[simp] theorem drain_rbo (s : State) : (drain s).rbo = s.rbo := by rw [drain_frame]
@[simp] theorem drain_rejects (s : State) : (drain s).rejects = s.rejects := by rw [drain_frame]
@[simp] theorem drain_csr (s : State) : (drain s).csr = s.csr := by rw [drain_frame]
@[simp] theorem drain_work (s : State) : (drain s).work = s.work := by rw [drain_frame]
@[simp] theorem drain_phase (s : State) : (drain s).phase = s.phase := by rw [drain_frame]
@[simp] theorem drain_inReset (s : State) : (drain s).inReset = s.inReset := by rw [drain_frame]
@[simp] theorem drain_controlOut (s : State) : (drain s).controlOut = s.controlOut := by rw [drain_frame]
@[simp] theorem drain_renderOut (s : State) : (drain s).renderOut = s.renderOut := by rw [drain_frame]
@[simp] theorem drain_inputs (s : State) : (drain s).inputs = s.inputs := by rw [drain_frame]
@[simp] theorem drain_freeIdx (s : State) : (drain s).freeIdx = s.freeIdx := by rw [drain_frame]

/-- An invariant of one drained packet holds after the drain of any queue of packets that meet a condition. -/
theorem drain_induction (Q : State → Prop) (R : Queued → Prop) (s : State) (hq : ∀ p ∈ s.cq, R p) (h0 : Q s)
    (hs : ∀ t p, R p → Q t → Q (applyQueued t p)) (hc : ∀ t, Q t → Q { t with cq := [] }) : Q (drain s) := by
  refine hc _ ?_
  generalize s.cq = ps at hq
  induction ps generalizing s with
  | nil => exact h0
  | cons p ps ih =>
    rw [List.foldl_cons]
    exact ih _ (hs s p (hq p (by simp)) h0) fun q hqm => hq q (by simp [hqm])

@[simp] theorem comb_length (x : List F64) (d : Nat) (g : F64) : (comb x d g).length = x.length :=
  forUpTo_induction (fun y : List F64 => y.length = x.length) _ _ _ rfl fun _ _ _ h => by simpa using h

@[simp] theorem allpassTerm_length (p : List F64) (k : F64) (i : Nat) (j : Int) :
    (allpassTerm p k i j).length = p.length := by
  unfold allpassTerm
  split <;> simp

/-- A term of the allpass writes its own frame only. -/
theorem allpassTerm_other (p : List F64) (k : F64) {i m : Nat} (j : Int) (h : m ≠ i) :
    at' (allpassTerm p k i j) m = at' p m := by
  unfold allpassTerm at'
  split
  · simp [List.getD, List.getElem?_set_ne (Ne.symm h)]
  · rfl

/-- A term of the allpass adds frame `j`, scaled, if it is inside the buffer. -/
theorem allpassTerm_self (p : List F64) (k : F64) {i : Nat} (j : Int) (h : i < p.length) :
    at' (allpassTerm p k i j) i =
      if 0 ≤ j ∧ j < (p.length : Int) then (at' p i).add (k.mul (at' p j.toNat)) else at' p i := by
  unfold allpassTerm
  split
  · simp [at', List.getD, List.getElem?_set_self h]
  · rfl

/-- The pieces of state that the end of a RENDER leaves as they were (47_render.md R270). -/
theorem renderFinish_frame (T : Transc) (s : State) :
    (renderFinish T s).cfg = s.cfg ∧ (renderFinish T s).cur = s.cur ∧ (renderFinish T s).cq = s.cq ∧
    (renderFinish T s).rejects = s.rejects ∧ (renderFinish T s).inReset = s.inReset ∧
    (renderFinish T s).controlOut = s.controlOut ∧ (renderFinish T s).inputs = s.inputs ∧
    (renderFinish T s).freeIdx = s.freeIdx :=
  ⟨rfl, rfl, rfl, rfl, rfl, rfl, rfl, rfl⟩

end Sys2Proof.Machine
end

