-- ==== Sys2Proof/Laws/Step.lean ====
section
/-! SUPPORT. What a step can do, said once: every later proof about steps goes through `step_cases` and `serve_cases`. -/

namespace Sys2Proof.Machine

/-- A step idles or serves the next event (60_exceptions.md R302). -/
theorem step_cases {s t : State} (h : step s = .next t) :
    (s.inputs = [] ∧ t = s) ∨ ∃ e rest, s.inputs = e :: rest ∧ serve e (s.pop rest) = .next t := by
  unfold step at h
  split at h
  · next hs => injection h with h; exact .inl ⟨hs, h.symm⟩
  · next e rest hs => exact .inr ⟨e, rest, hs, h⟩

/-- The next states an event can lead to, in the order: no change, an answered packet, a rejected packet, a queued packet, a RENDER, a
transaction that RESET keeps from being served, the begin, the end of drain and the end of a RENDER, RESET asserted, RESET
released. -/
inductive Served (s : State) : State → Prop
  | same : Served s s
  | answered (ws : List Word) : Served s (s.reply .accepted ws)
  | rejected (c : Code) : Served s (s.reject c)
  | queued (p : Queued) (hv : Queued.valid s.cfg p = true) (hroom : s.occupied + p.size ≤ s.cfg.raw.qcap) :
      Served s ((s.append p).reply .accepted [])
  | rendered (hp : s.phase = .idle) : Served s (renderFinish Config.transcendentals.toTransc (renderStart s))
  | notServed : Served s { s with controlOut := none }
  | began (hp : s.phase = .idle) : Served s (renderStart s)
  | drained (n : Nat) (hp : s.phase = .draining n) : Served s { s with phase := .rendering }
  | finished (hp : s.phase ≠ .idle) : Served s (renderFinish Config.transcendentals.toTransc s)
  | asserted (hp : s.phase = .idle) : Served s { s with inReset := true }
  | released : Served s s.resetAll

theorem offer_served {s : State} {p : Queued} (hv : Queued.valid s.cfg p = true) : Served s (s.offer p) := by
  rcases s.offer_cases p with ⟨_, h⟩ | ⟨hr, h⟩ <;> rw [h]
  · exact .rejected .full
  · exact .queued p hv hr

theorem exec_served {s t : State} {i : Instr}
    (hxs : ∀ id xs, i = .paramA id xs → xs.length = s.cfg.raw.quantum) (h : exec i s = .next t) : Served s t := by
  cases i with
  | noteon f u =>
    injection h with h
    subst h
    split
    · next hf =>
      split
      · exact .rejected .badNote
      · next hu => exact offer_served (by simp [Queued.valid, hf, hu])
    · exact .rejected .badNote
  | paramK id x => injection h with h; subst h; exact offer_served rfl
  | paramA id xs => injection h with h; subst h; exact offer_served (by simp [Queued.valid, hxs id xs rfl])
  | desc id => injection h with h; subst h; exact .answered _
  | stat n => injection h with h; subst h; exact .answered _
  | render =>
    simp only [exec, execRender] at h
    split at h
    · next hp => injection h with h; subst h; exact .rendered hp.1
    · simp at h

/-- Everything one event can do. -/
theorem serve_cases {s t : State} {e : PortEvent} (h : serve e s = .next t) : Served s t := by
  cases e with
  | transfer tr =>
    simp only [serve] at h
    split at h
    · cases tr with
      | control ws => injection h with h; subst h; exact .notServed
      | request w => simp [serveInReset] at h
    · unfold serveTransfer at h
      split at h
      · next i hi => exact exec_served (fun id xs hx => paramA_length_of_decode (by rw [← hx]; exact hi)) h
      · injection h with h; subst h; exact .rejected _
      · simp at h
      · simp at h
  | renderBegin req =>
    simp only [serve, beginRender] at h
    split at h
    · simp at h
    · split at h
      · next hp => injection h with h; subst h; exact .began hp.1
      · simp at h
  | drainEnd =>
    simp only [serve, endDrain] at h
    split at h <;> simp at h
    next n hp => subst h; exact .drained n hp
  | renderEnd =>
    simp only [serve, endRender] at h
    split at h <;> simp at h
    · next n hp => subst h; exact .finished (by simp [hp])
    · next hp => subst h; exact .finished (by simp [hp])
  | resetLevel b =>
    simp only [serve, driveReset] at h
    cases b with
    | true =>
      simp only at h
      split at h
      · next hp => injection h with h; subst h; exact .asserted hp
      · simp at h
    | false =>
      simp only at h
      injection h with h
      subst h
      split
      · exact .released
      · exact .same

/-- A property of states that no bookkeeping field enters is kept by every step if it is kept by every `Served` case. -/
theorem step_induction (Q : State → Prop) {s t : State} (h : step s = .next t) (hQ : Q s)
    (hpop : ∀ s rest, Q s → Q (s.pop rest)) (hserved : ∀ s t, Q s → Served s t → Q t) : Q t := by
  rcases step_cases h with ⟨_, rfl⟩ | ⟨e, rest, _, h⟩
  · exact hQ
  · exact hserved _ _ (hpop s rest hQ) (serve_cases h)

end Sys2Proof.Machine
end

