-- ==== Sys2Proof/Tests/Slice0.lean ====
section
/-! SUPPORT. Tests on values the spec gives, refusals of ill-formed terms, and witnesses for the hypotheses of the statements. -/

namespace Sys2Proof.Tests

open Sys2Proof.Machine

set_option Elab.async false

/-! ### Configurations and states -/

/-- Configuration TC of 95_test_vectors.md. -/
def tcRaw : RawConfig :=
  { RawConfig.default with
    numVoices := 2
    sampleRate := ⟨0x408F400000000000⟩
    quantum := 4
    kernel := 8
    rbLen := 16
    cOut := 2
    qcap := 16
    apDelayMs := ⟨0x4008000000000000⟩
    apLook := 1 }

/-- TC is well formed (95_test_vectors.md, conventions). -/
def tc : Config := ⟨tcRaw, by decide +kernel⟩

/-- TC after reset. -/
def s0 : State := State.ofConfig tc

/-- TC with a queue. -/
def queued (cq : List Queued) : State := { s0 with cq := cq }

/-- TC with one event to serve. -/
def given (e : PortEvent) : State := { s0 with inputs := [e] }

/-- A quantum of TC's frames in a ring buffer. -/
def fourFrames : RingBuffer := ⟨[(0, F64.one), (1, F64.two), (2, F64.half)], 4, 0, 4⟩

/-- TC with both voices sounding, one a-rate parameter, a queued packet of each kind, four frames in RBI, and one event. -/
def busy (e : PortEvent) : State :=
  { s0 with
    voices := [⟨F64.half, ⟨0x4059000000000000⟩, F64.one, 0, true⟩, ⟨F64.zero, ⟨0x4069000000000000⟩, F64.half, 0, true⟩]
    params := s0.params.set 1 ⟨.a, F64.one, [F64.zero, F64.half, F64.one, F64.two]⟩
    rbi := fourFrames
    cq := [.noteon ⟨0x4059000000000000⟩ F64.half, .paramK .decay F64.one, .paramA .shape [F64.zero, F64.one, F64.two, F64.half]]
    inputs := [e] }

/-- The code a control-port transaction is answered with, from a state of TC. -/
def codeOf (s : State) (i : Instr) : Option Word :=
  match exec i s with
  | .next t => t.controlOut.map ControlReply.result
  | .fault _ => none
  | .refused _ => none

/-! ### Well-formedness: one ill-formed term for each check -/

theorem test_wf_accepts :
    Instr.wf 128 (.noteon F64.one F64.one) = true ∧ Instr.wf 128 (.paramK .reverbDecay F64.one) = true ∧
    Instr.wf 4 (.paramA .shape [F64.zero, F64.half, F64.one, F64.two]) = true ∧ Instr.wf 128 (.desc .decay) = true ∧
    Instr.wf 128 (.stat .nactive) = true ∧ Instr.wf (2 ^ 32 - 1) .render = true := by decide

theorem test_wf_refuses_other_length : Instr.wf 4 (.paramA .shape [F64.zero, F64.half, F64.one]) = false := by decide
theorem test_wf_refuses_arate_of_one : Instr.wf 1 (.paramA .shape [F64.zero]) = false := by decide
theorem test_wf_refuses_length_above_field (xs : List F64) (h : xs.length = 2 ^ 32) :
    Instr.wf (2 ^ 32) (.paramA .shape xs) = false := by simp [Instr.wf, h]
theorem test_wf_refuses_request_above_field : Instr.wf (2 ^ 32) .render = false := by decide

theorem test_config_accepts : RawConfig.default.wf = true ∧ tcRaw.wf = true := by decide +kernel
theorem test_config_refuses_no_voice : { tcRaw with numVoices := 0 }.wf = false := by decide +kernel
theorem test_config_refuses_rate :
    { tcRaw with sampleRate := F64.zero }.wf = false ∧ { tcRaw with sampleRate := ⟨0x7FF0000000000000⟩ }.wf = false := by
  decide +kernel
theorem test_config_refuses_quantum : { tcRaw with quantum := 0 }.wf = false ∧ { tcRaw with quantum := 9 }.wf = false := by
  decide +kernel
theorem test_config_refuses_short_ring : { tcRaw with rbLen := 11 }.wf = false ∧ { tcRaw with rbLen := 12 }.wf = true := by
  decide +kernel
theorem test_config_refuses_channels : { tcRaw with rbCh := 2 }.wf = false ∧ { tcRaw with cOut := 0 }.wf = false := by
  decide +kernel
theorem test_config_refuses_short_queue : { tcRaw with qcap := 4 }.wf = false ∧ { tcRaw with qcap := 5 }.wf = true := by
  decide +kernel
theorem test_config_refuses_envelope :
    { tcRaw with fastDecay := F64.zero }.wf = false ∧ { tcRaw with detuneK := ⟨0x7FF8000000000000⟩ }.wf = false := by
  decide +kernel
theorem test_config_refuses_combs :
    { tcRaw with combDelayOffsetMs := #v[F64.zero, F64.zero, F64.zero, ⟨0xFFF0000000000000⟩] }.wf = false ∧
    { tcRaw with combDecayOffset := #v[⟨0x3FAEB851EB851EB8⟩, F64.zero, F64.zero, F64.zero] }.wf = false ∧
    { tcRaw with combDecayOffset := #v[F64.zero, F64.negOne, F64.zero, F64.zero] }.wf = false := by decide +kernel
theorem test_config_refuses_allpass :
    { tcRaw with apDelayMs := ⟨0x7FF0000000000000⟩ }.wf = false ∧ { tcRaw with apDecay := F64.half }.wf = false ∧
    { tcRaw with apDecay := F64.negOne }.wf = false := by decide +kernel

/-! ### Encoding (30_encoding.md; words of 95_test_vectors.md sections 2.1, 2.2 and 3) -/

theorem test_decode_noteon :
    decode 128 (.control [0x0100000000000002, 0x407B800000000000, 0x3FF0000000000000])
      = .ok (.noteon ⟨0x407B800000000000⟩ F64.one) := by decide
theorem test_decode_paramK :
    decode 128 (.control [0x0205000000000001, 0x408F400000000000]) = .ok (.paramK .lpCutoff ⟨0x408F400000000000⟩) := by decide
theorem test_decode_paramA :
    decode 4 (.control [0x0201000000000004, 0, 0x3FE0000000000000, 0x3FF0000000000000, 0x4000000000000000])
      = .ok (.paramA .shape [F64.zero, F64.half, F64.one, F64.two]) := by decide
theorem test_decode_desc : decode 128 (.control [0x030B000000000000]) = .ok (.desc .reverbDecay) := by decide
theorem test_decode_stat :
    decode 4 (.control [0x0401000000000000]) = .ok (.stat .clock) ∧
    decode 4 (.control [0x040A000000000000]) = .ok (.stat .qused) := by decide
theorem test_decode_render :
    decode 128 (.request 0x0000000000000080) = .ok .render ∧
    decode 128 (.request 0x0000000100000080) = .error .badRequest := by decide

theorem test_decode_bad_opcode :
    decode 128 (.control [0x0500000100000002, 0, 0]) = .error (.rejected .badOpcode) ∧
    decode 128 (.control [0]) = .error (.rejected .badOpcode) := by decide
theorem test_decode_bad_reserved :
    decode 128 (.control [0x0100000100000002, 0x407B800000000000, 0x3FF0000000000000]) = .error (.rejected .badReserved) ∧
    decode 128 (.control [0x0103000000000002, 0x407B800000000000, 0x3FF0000000000000]) = .error (.rejected .badReserved) := by
  decide
theorem test_decode_bad_length :
    decode 128 (.control [0x0100000000000003, 0x407B800000000000, 0x3FF0000000000000, 0]) = .error (.rejected .badLength) ∧
    decode 128 (.control [0x0100000000000002, 0x407B800000000000]) = .error (.rejected .badLength) ∧
    decode 128 (.control [0x020C000000000003, 0, 0, 0]) = .error (.rejected .badLength) ∧
    decode 128 (.control [0x0301000000000001, 0]) = .error (.rejected .badLength) := by decide
theorem test_decode_bad_index :
    decode 128 (.control [0x020C000000000001, 0]) = .error (.rejected .badIndex) ∧
    decode 128 (.control [0x030C000000000000]) = .error (.rejected .badIndex) ∧
    decode 128 (.control [0x040F000000000000]) = .error (.rejected .badIndex) := by decide

theorem test_encode_words :
    encode 4 (.noteon ⟨0x406F400000000000⟩ F64.one) = .control [0x0100000000000002, 0x406F400000000000, 0x3FF0000000000000] ∧
    encode 4 (.paramK .reverbMix F64.half) = .control [0x0209000000000001, 0x3FE0000000000000] ∧
    encode 4 (.stat .rejects) = .control [0x040B000000000000] ∧ encode 4 .render = .request 4 := by decide

/-- Byte 0 carries bits 7:0 (20_memory.md R72). -/
theorem test_byte_order :
    bytesOfWords [0x0100000000000002] = [2, 0, 0, 0, 0, 0, 0, 1] ∧
    wordsOfBytes (bytesOfWords [0x040B000000000000, 0x407B800000000000]) = some [0x040B000000000000, 0x407B800000000000] ∧
    wordsOfBytes [1, 2, 3] = none := by decide

theorem test_table_words :
    decodeTableWord 64 0x0100000000000002 = some (.noteon F64.zero F64.zero) ∧
    decodeTableWord 64 0x040E000000000000 = some (.stat .nactive) ∧ decodeTableWord 64 0x80 = some .render ∧
    decodeTableWord 192 0x3FF0000000000000407B8000000000000100000000000002 = some (.noteon ⟨0x407B800000000000⟩ F64.one) ∧
    decodeTableWord 64 0x0500000000000000 = none := by decide

/-! ### Arithmetic and helper functions (00_scope.md R9, R11) -/

theorem test_add_rounds : F64.add ⟨0x3FB999999999999A⟩ ⟨0x3FC999999999999A⟩ = ⟨0x3FD3333333333334⟩ := by decide +kernel
/-- The product of 95_test_vectors.md section 2.7. -/
theorem test_div_mul_round : (F64.div ⟨0x403F19999999999A⟩ F64.thousand).mul ⟨0x40E7700000000000⟩ = ⟨0x4097533333333334⟩ := by decide +kernel
/-- 95_test_vectors.md section 2.6. -/
theorem test_roundHalfUp :
    F64.roundHalfUp ⟨0x4004000000000000⟩ = 3 ∧ F64.roundHalfUp ⟨0x3FF7D70A3D70A3D7⟩ = 1 ∧ F64.roundHalfUp ⟨0x405FE00000000000⟩ = 128 ∧
    F64.roundHalfUp ⟨0x3FDFFFFFFFFFFFFF⟩ = 0 ∧ F64.roundHalfUp ⟨0x3FF8000000000000⟩ = 2 := by decide +kernel
theorem test_frac_wraps : F64.frac F64.one = F64.zero ∧ F64.frac ⟨0xBFD0000000000000⟩ = ⟨0x3FE8000000000000⟩ := by decide +kernel

/-! ### Parameters (95_test_vectors.md section 2.2) -/

theorem test_norm_nan_and_low :
    ParamId.decay.norm Config.default ⟨0x7FF8000000000000⟩ = ⟨0x3FD0000000000000⟩ ∧
    ParamId.decay.norm Config.default F64.zero = ⟨0x3F50624DD2F1A9FC⟩ ∧
    ParamId.crushFactor.norm Config.default F64.half = F64.one := by decide +kernel
theorem test_norm_bounds :
    ParamId.lpCutoff.norm Config.default ⟨0x41CDCD6500000000⟩ = ⟨0x40D7700000000000⟩ ∧
    ParamId.lpCutoff.norm Config.default ⟨0xFFF0000000000000⟩ = F64.zero ∧
    ParamId.reverbDecay.norm Config.default ⟨0x3FEE666666666666⟩ = ⟨0x3FEE666666666666⟩ ∧
    ParamId.detuneSpread.norm Config.default ⟨0x8000000000000000⟩ = ⟨0x8000000000000000⟩ ∧
    ParamId.shape.norm Config.default ⟨0x3FF8000000000000⟩ = ⟨0x3FF8000000000000⟩ := by decide +kernel

theorem test_desc_words_low :
    descriptor Config.default .decay = [0x3FD0000000000000, 0x3F50624DD2F1A9FC, 0x4024000000000000] ∧
    descriptor Config.default .shape = [0x3FF0000000000000, 0, 0x4000000000000000] ∧
    descriptor Config.default .pulseWidth = [0x3FE0000000000000, 0x3F847AE147AE147B, 0x3FEFAE147AE147AE] ∧
    descriptor Config.default .detuneSpread = [0, 0, 0x3FF0000000000000] ∧
    descriptor Config.default .phaseDrop = [0, 0, 0x4024000000000000] ∧
    descriptor Config.default .lpCutoff = [0x40D7700000000000, 0, 0x40D7700000000000] := by decide +kernel
theorem test_desc_words_high :
    descriptor Config.default .hpCutoff = [0, 0, 0x40D7700000000000] ∧
    descriptor Config.default .satGain = [0x3FF0000000000000, 0, 0x4059000000000000] ∧
    descriptor Config.default .crushFactor = [0x3FF0000000000000, 0x3FF0000000000000, 0x4060000000000000] ∧
    descriptor Config.default .reverbMix = [0, 0, 0x3FF0000000000000] ∧
    descriptor Config.default .reverbDelayMs = [0x403E000000000000, 0x3FF0000000000000, 0x4059000000000000] ∧
    descriptor Config.default .reverbDecay = [0x3FE0000000000000, 0, 0x3FEE666666666666] := by decide +kernel

theorem test_stat_after_reset :
    State.reset.status .id = 0x00005354524E0007 ∧ State.reset.status .nvoices = 8 ∧
    State.reset.status .srate = 0x40E7700000000000 ∧ State.reset.status .quantum = 128 ∧
    State.reset.status .kernel = 8192 ∧ State.reset.status .rblen = 16384 ∧ State.reset.status .cout = 1 ∧
    State.reset.status .qcap = 4096 := by decide +kernel
theorem test_stat_zero_after_reset :
    State.reset.status .clock = 0 ∧ State.reset.status .cursor = 0 ∧ State.reset.status .qused = 0 ∧
    State.reset.status .rejects = 0 ∧ State.reset.status .rbiAvail = 0 ∧ State.reset.status .rboAvail = 0 ∧
    State.reset.status .nactive = 0 := by decide +kernel

/-! ### The control port (95_test_vectors.md section 2.1, PRG3) -/

theorem test_bad_notes :
    codeOf s0 (.noteon ⟨0x7FF0000000000000⟩ F64.one) = some 6 ∧ codeOf s0 (.noteon ⟨0xC07B800000000000⟩ F64.one) = some 6 ∧
    codeOf s0 (.noteon ⟨0x8000000000000000⟩ F64.one) = some 6 ∧ codeOf s0 (.noteon ⟨0x407B800000000000⟩ ⟨0x7FF8000000000000⟩) = some 6 ∧
    codeOf s0 (.noteon ⟨0x407B800000000000⟩ ⟨0x7FF0000000000000⟩) = some 0 := by decide +kernel
/-- A BAD_NOTE outranks FULL; DESC and STAT are never FULL. -/
theorem test_full :
    let full := queued [.paramA .shape [F64.zero, F64.zero, F64.zero, F64.zero], .paramA .shape [F64.zero, F64.zero, F64.zero, F64.zero],
      .paramA .shape [F64.zero, F64.zero, F64.zero, F64.zero]]
    codeOf full (.noteon ⟨0x407B800000000000⟩ F64.one) = some 1 ∧ codeOf full (.noteon F64.zero F64.one) = some 6 ∧
    codeOf full (.paramK .decay F64.one) = some 1 ∧ codeOf full (.desc .decay) = some 0 ∧
    codeOf full (.stat .qused) = some 0 ∧ full.status .qused = 15 := by decide +kernel

/-! ### VoiceBank (95_test_vectors.md sections 1 and 2.3) -/

theorem test_vcurve : vcurve ⟨0x3FE999999999999A⟩ = ⟨0x3FE47AE147AE147C⟩ ∧ noteGain F64.two = F64.one ∧ noteGain F64.negOne = F64.zero := by
  decide +kernel
/-- PRG2: round robin, retrigger, steal. -/
theorem test_trigger_PRG2 :
    (drain (queued [.noteon ⟨0x4059000000000000⟩ F64.one, .noteon ⟨0x4069000000000000⟩ F64.half, .noteon ⟨0x4059000000000000⟩ ⟨0x3FE999999999999A⟩, .noteon ⟨0x4072C00000000000⟩ F64.one])).voices
      = [⟨F64.zero, ⟨0x4059000000000000⟩, ⟨0x3FE47AE147AE147C⟩, 0, true⟩, ⟨F64.zero, ⟨0x4072C00000000000⟩, F64.one, 0, true⟩] := by decide +kernel
/-- S10: the cursor advances on a retrigger too. -/
theorem test_retrigger_moves_cursor :
    (drain { State.reset with cq := [.noteon ⟨0x407B800000000000⟩ F64.one, .noteon ⟨0x407B800000000000⟩ F64.half] }).cur = 2 := by decide +kernel
/-- TC at 250 Hz: 0.75 advances to 0.0. -/
theorem test_phase_wraps :
    (Voice.advance tc ⟨⟨0x3FE8000000000000⟩, ⟨0x406F400000000000⟩, F64.one, 0, true⟩).phase = F64.zero := by decide +kernel
/-- S5: frame 96 of the 94th RENDER of DEF is at 12000 frames, 0.25 s. -/
theorem test_elapsed : elapsed Config.default 11904 96 ⟨F64.zero, ⟨0x407B800000000000⟩, F64.one, 0, true⟩ = ⟨0x3FD0000000000000⟩ := by decide +kernel
theorem test_env_at_zero : env {} F64.zero ⟨0x3FD0000000000000⟩ = F64.one := by decide +kernel

/-! ### Oscillator (95_test_vectors.md section 2.4) -/

theorem test_saw :
    saw F64.zero = F64.negOne ∧ saw ⟨0x3FD0000000000000⟩ = ⟨0xBFE0000000000000⟩ ∧ saw F64.half = F64.zero ∧ saw F64.one = F64.negOne ∧
    saw ⟨0xBFD0000000000000⟩ = F64.half := by decide +kernel
theorem test_square :
    square ⟨0x3FE8000000000000⟩ F64.half = F64.one ∧ square F64.half F64.half = F64.negOne ∧
    square F64.zero ⟨0x3F847AE147AE147B⟩ = F64.negOne := by decide +kernel
theorem test_morph :
    morph {} ⟨0x3FD0000000000000⟩ ⟨0x3FF8000000000000⟩ ⟨0x3FB999999999999A⟩ = ⟨0x3FD0000000000000⟩ ∧ morph {} ⟨0x3FE8000000000000⟩ ⟨0x3FF8000000000000⟩ F64.half = ⟨0x3FE8000000000000⟩ ∧
    morph {} ⟨0x3FD3333333333333⟩ F64.two ⟨0x3FD3333333333333⟩ = F64.negOne ∧ morph {} ⟨0x3FD3333333333333⟩ F64.two ⟨0x3FD33332C7D368C8⟩ = F64.one := by decide +kernel
theorem test_unison :
    unison {} Config.default F64.half F64.one F64.one F64.half = F64.zero ∧
    unison {} Config.default ⟨0x3FD0000000000000⟩ F64.half F64.one F64.half = ⟨0xBFE0000000000000⟩ := by decide +kernel
/-- The played phase at t = 0: 1.5, left to the waveforms to wrap. -/
theorem test_playedPhase : playedPhase {} Config.default F64.half F64.two F64.zero = ⟨0x3FF8000000000000⟩ := by decide +kernel

/-! ### Filter and bitcrusher (95_test_vectors.md sections 2.5 and 2.6) -/

theorem test_coeff_zero :
    coeff {} Config.default F64.zero = ⟨F64.zero, F64.one⟩ ∧ onePole ⟨F64.zero, F64.one⟩ ⟨0x3FECCCCCCCCCCCCD⟩ ⟨0x3FD3333333333333⟩ = ⟨0x3FD3333333333333⟩ := by decide +kernel
/-- A negative sample at gain 0 gives −0.0. -/
theorem test_saturate_zero : saturate {} ⟨0xC000000000000000⟩ F64.zero = ⟨0x8000000000000000⟩ := by decide +kernel

/-- The parameters of DEF with another crushFactor. -/
def crushed (x : F64) : Vector ParamReg 12 := State.reset.params.set 8 ⟨.k, x, []⟩

/-- [1, 2, …, 8] -/
def ramp : List F64 := [⟨0x3FF0000000000000⟩, ⟨0x4000000000000000⟩, ⟨0x4008000000000000⟩, ⟨0x4010000000000000⟩, ⟨0x4014000000000000⟩, ⟨0x4018000000000000⟩, ⟨0x401C000000000000⟩, ⟨0x4020000000000000⟩]

theorem test_crush_groups :
    crush (crushed ⟨0x4010000000000000⟩) 8 ramp = [⟨0x3FF0000000000000⟩, ⟨0x3FF0000000000000⟩, ⟨0x3FF0000000000000⟩, ⟨0x3FF0000000000000⟩, ⟨0x4014000000000000⟩, ⟨0x4014000000000000⟩, ⟨0x4014000000000000⟩, ⟨0x4014000000000000⟩] ∧
    crush (crushed ⟨0x4004000000000000⟩) 8 ramp = [⟨0x3FF0000000000000⟩, ⟨0x3FF0000000000000⟩, ⟨0x3FF0000000000000⟩, ⟨0x4010000000000000⟩, ⟨0x4010000000000000⟩, ⟨0x4010000000000000⟩, ⟨0x401C000000000000⟩, ⟨0x401C000000000000⟩] ∧
    crush (crushed ⟨0x4003EB851EB851EC⟩) 8 ramp = [⟨0x3FF0000000000000⟩, ⟨0x3FF0000000000000⟩, ⟨0x4008000000000000⟩, ⟨0x4008000000000000⟩, ⟨0x4014000000000000⟩, ⟨0x4014000000000000⟩, ⟨0x401C000000000000⟩, ⟨0x401C000000000000⟩] := by decide +kernel
/-- PRG3: an a-rate factor is read at each group's first frame only. -/
theorem test_crush_arate :
    crush (s0.params.set 8 ⟨.a, F64.one, [⟨0x4004000000000000⟩, ⟨0x401C000000000000⟩, ⟨0x3FF0000000000000⟩, ⟨0x3FF0000000000000⟩]⟩) 4 [⟨0x3FF0000000000000⟩, ⟨0x4000000000000000⟩, ⟨0x4008000000000000⟩, ⟨0x4010000000000000⟩]
      = [⟨0x3FF0000000000000⟩, ⟨0x3FF0000000000000⟩, ⟨0x3FF0000000000000⟩, ⟨0x4010000000000000⟩] := by decide +kernel

/-! ### Ring buffers and reverb (95_test_vectors.md section 2.7) -/

theorem test_push_overflow :
    RingBuffer.push 4 RingBuffer.empty [⟨0x3FF0000000000000⟩, ⟨0x4000000000000000⟩, ⟨0x4008000000000000⟩, ⟨0x4010000000000000⟩, ⟨0x4014000000000000⟩, ⟨0x4018000000000000⟩]
      = ⟨[(0, ⟨0x4014000000000000⟩), (1, ⟨0x4018000000000000⟩), (2, ⟨0x4008000000000000⟩), (3, ⟨0x4010000000000000⟩)], 2, 2, 4⟩ := by decide
theorem test_pull_underrun :
    RingBuffer.pulled 4 ⟨[(0, ⟨0x4014000000000000⟩), (1, ⟨0x4018000000000000⟩), (2, ⟨0x4008000000000000⟩), (3, ⟨0x4010000000000000⟩)], 2, 2, 4⟩
        [⟨0x4022000000000000⟩, ⟨0x4022000000000000⟩, ⟨0x4022000000000000⟩, ⟨0x4022000000000000⟩, ⟨0x4022000000000000⟩, ⟨0x4022000000000000⟩] 6
      = [⟨0x4008000000000000⟩, ⟨0x4010000000000000⟩, ⟨0x4014000000000000⟩, ⟨0x4018000000000000⟩, ⟨0x4022000000000000⟩, ⟨0x4022000000000000⟩] := by decide
theorem test_samplesOf :
    samplesOf Config.default ⟨0x40565147AE147AE1⟩ = 4285 ∧ samplesOf Config.default ⟨0x403F19999999999A⟩ = 1493 ∧ samplesOf tc ⟨0x4008000000000000⟩ = 3 := by decide +kernel
theorem test_comb_delays :
    (List.map (combDelay Config.default State.reset.params) [0, 1, 2, 3]) = [1440, 1493, 1550, 1618] ∧
    (List.map (combDecay Config.default State.reset.params) [0, 1, 2, 3]) = [⟨0x3FE0000000000000⟩, ⟨0x3FE051EB851EB852⟩, ⟨0x3FE0A3D70A3D70A4⟩, ⟨0x3FE0F5C28F5C28F6⟩] := by decide +kernel
theorem test_comb :
    comb [⟨0x3FF0000000000000⟩, ⟨0x0000000000000000⟩, ⟨0x0000000000000000⟩, ⟨0x0000000000000000⟩, ⟨0x0000000000000000⟩, ⟨0x0000000000000000⟩, ⟨0x0000000000000000⟩, ⟨0x0000000000000000⟩] 2 F64.half
      = [⟨0x3FF0000000000000⟩, ⟨0x0000000000000000⟩, ⟨0x3FE0000000000000⟩, ⟨0x0000000000000000⟩, ⟨0x3FD0000000000000⟩, ⟨0x0000000000000000⟩, ⟨0x3FC0000000000000⟩, ⟨0x0000000000000000⟩] := by decide +kernel
theorem test_allpass_two_stages :
    allpassCascade tc [⟨0x3FF0000000000000⟩, ⟨0x0000000000000000⟩, ⟨0x0000000000000000⟩, ⟨0x0000000000000000⟩, ⟨0x0000000000000000⟩, ⟨0x0000000000000000⟩, ⟨0x0000000000000000⟩, ⟨0x0000000000000000⟩]
      = [⟨0x3FF0000000000000⟩, ⟨0x0000000000000000⟩, ⟨0x3FD0C49BA5E353F8⟩, ⟨0xBFD0C49BA5E353F8⟩, ⟨0x3FAA5BFAD2999569⟩, ⟨0xBFBA5BFAD2999569⟩, ⟨0x3FAEF6A07D2FF8E5⟩,
        ⟨0xBF9B9FE1FF8654E6⟩] := by decide +kernel
/-- The first element of a kernel of zeros and of one with a peak (S7, S8). -/
theorem test_normalise :
    normalise [F64.zero, F64.zero] = [F64.zero, F64.zero] ∧
    normalise [F64.half, ⟨0xC000000000000000⟩] = [⟨0x3FD0000000000000⟩, F64.negOne] := by decide +kernel

/-! ### RENDER and RESET -/

/-- 41_parameters.md R135: an a-rate register reverts to its last element (PRG3). -/
theorem test_revert :
    ParamReg.revert 4 ⟨.a, F64.one, [F64.zero, F64.half, F64.one, F64.two]⟩
      = ⟨.k, F64.two, [F64.zero, F64.half, F64.one, F64.two]⟩ := by decide
/-- 95_test_vectors.md section 2.8: C_OUT × QUANTUM words, channel 1 equal to channel 0. -/
theorem test_planar : planar 2 [F64.one, F64.two] = [0x3FF0000000000000, 0x4000000000000000, 0x3FF0000000000000, 0x4000000000000000] := by
  decide
/-- RENDER from reset is the very next step, answers liveness 1 and advances the clock by QUANTUM. -/
theorem test_render_runs :
    ∃ t, step (State.reset.withFetchWord 64 0x80) = .next t ∧ t.clock = 128 ∧ t.renderOut.map RenderReply.liveness = some 1 :=
  ⟨_, rfl, rfl, rfl⟩
/-- PRG2's end state: the voices that a RENDER leaves have advanced. -/
theorem test_render_advances_voices :
    ∃ t, step { queued [.noteon ⟨0x4059000000000000⟩ F64.one, .noteon ⟨0x4069000000000000⟩ F64.half, .noteon ⟨0x4059000000000000⟩ ⟨0x3FE999999999999A⟩, .noteon ⟨0x4072C00000000000⟩ F64.one] with
        inputs := [.transfer (.request 4)] } = .next t ∧
      t.voices = [⟨⟨0x3FD999999999999A⟩, ⟨0x4059000000000000⟩, ⟨0x3FE47AE147AE147C⟩, 0, true⟩, ⟨⟨0x3FC9999999999998⟩, ⟨0x4072C00000000000⟩, F64.one, 0, true⟩] :=
  ⟨_, rfl, by decide +kernel⟩
theorem test_reset_release :
    step { given (.resetLevel false) with inReset := true, cq := [.paramK .decay F64.one], rejects := 5, clock := 9 }
      = .next { s0 with freeIdx := 1 } := rfl

/-! ### Witnesses: concrete states and operands that meet the hypotheses of the statements, clause by clause at its bounds -/

/-- The machine's own functions give an exponent above 0 nowhere by their properties; these do. -/
theorem test_witness_transcendentals :
    Transc.Lawful {} ∧ F64.lt F64.zero (warpExponent {} F64.half) = true ∧ F64.lt F64.zero (warpExponent {} ⟨0x3F847AE147AE147B⟩) = true ∧
    F64.lt F64.zero (warpExponent {} ⟨0x3FEFAE147AE147AE⟩) = true :=
  ⟨Transc.lawful_default, by decide +kernel, by decide +kernel, by decide +kernel⟩

/-- DecodeEncodeAgree, DecodedTransfersAreEncodings: `test_wf_accepts` and `test_decode_…` meet their hypotheses for every
constructor. MalformedPacketCodes has five clauses: `clause q hdr n` numbers the one a packet of `n` payload words falls under. -/
def clause (q hdr n : Nat) : Nat :=
  let op := hdr / 2 ^ 56
  let idx := hdr / 2 ^ 48 % 2 ^ 8
  let len := hdr % 2 ^ 32
  if ¬(1 ≤ op ∧ op ≤ 4) then 1
  else if ¬(hdr / 2 ^ 32 % 2 ^ 16 = 0 ∧ (op = 1 → idx = 0)) then 2
  else if ¬(n = len ∧ (op = 1 → len = 2) ∧ (op = 2 → len = 1 ∨ len = q) ∧ (3 ≤ op → len = 0)) then 3
  else if ¬((op = 2 ∨ op = 3 → idx ≤ 11) ∧ (op = 4 → idx ≤ 14)) then 4
  else 5

/-- Opcodes 0, 5 and 255 against 1 and 4. -/
theorem test_witness_clause_opcode :
    clause 4 0x0000000000000000 0 = 1 ∧ clause 4 0x0500000000000000 0 = 1 ∧ clause 4 0xFF00000000000000 0 = 1 ∧
    decode 4 (.control [0xFF00000000000000]) = .error (.rejected .badOpcode) := by decide
/-- RSVD 1 and 0xFFFF, and IDX 1 of NOTEON. -/
theorem test_witness_clause_reserved :
    clause 4 0x0400000100000000 0 = 2 ∧ clause 4 0x0100FFFF00000002 2 = 2 ∧ clause 4 0x0101000000000002 2 = 2 ∧
    decode 4 (.control [0x0400000100000000]) = .error (.rejected .badReserved) := by decide
/-- A payload one word short or long; LEN 1 and 3 of NOTEON, 0, 2 and 5 of PARAM, 1 of DESC and STAT. -/
theorem test_witness_clause_length :
    clause 4 0x0100000000000002 1 = 3 ∧ clause 4 0x0100000000000002 3 = 3 ∧ clause 4 0x0100000000000001 1 = 3 ∧
    clause 4 0x0200000000000000 0 = 3 ∧ clause 4 0x0200000000000002 2 = 3 ∧ clause 4 0x0200000000000005 5 = 3 ∧
    clause 4 0x0300000000000001 1 = 3 ∧ clause 4 0x0400000000000001 1 = 3 ∧
    decode 4 (.control [0x0200000000000000]) = .error (.rejected .badLength) := by decide
/-- IDX 12 of PARAM and DESC, 15 of STAT, and 255. -/
theorem test_witness_clause_index :
    clause 4 0x020C000000000001 1 = 4 ∧ clause 4 0x020C000000000004 4 = 4 ∧ clause 4 0x030C000000000000 0 = 4 ∧
    clause 4 0x040F000000000000 0 = 4 ∧ clause 4 0x04FF000000000000 0 = 4 ∧
    decode 4 (.control [0x04FF000000000000]) = .error (.rejected .badIndex) := by decide
/-- IDX 11 of PARAM and DESC, 14 of STAT; LEN = QUANTUM = 4 and LEN 1 of PARAM. -/
theorem test_witness_clause_decodes :
    clause 4 0x0100000000000002 2 = 5 ∧ clause 4 0x020B000000000001 1 = 5 ∧ clause 4 0x020B000000000004 4 = 5 ∧
    clause 4 0x030B000000000000 0 = 5 ∧ clause 4 0x040E000000000000 0 = 5 ∧
    decode 4 (.control [0x040E000000000000]) = .ok (.stat .nactive) := by decide

/-- StepRunsDecodedInstruction -/
theorem test_witness_step :
    let s := given (.transfer (.control [0x040E000000000000]))
    s.inReset = false ∧ s.inputs = .transfer (.control [0x040E000000000000]) :: [] ∧
    decode s.cfg.raw.quantum (.control [0x040E000000000000]) = .ok (.stat .nactive) ∧
    step s = .next { s0 with freeIdx := 1, controlOut := some ⟨0, [0]⟩ } := ⟨rfl, rfl, rfl, rfl⟩
/-- IdleKeepsState -/
theorem test_witness_idle : s0.inputs = [] ∧ step s0 = .next s0 := ⟨rfl, rfl⟩

/-- Thirteen words of queue: three free. -/
def room3 : List Queued :=
  [.paramA .shape [F64.zero, F64.half, F64.one, F64.two], .paramA .shape [F64.zero, F64.half, F64.one, F64.two],
    .noteon ⟨0x4059000000000000⟩ F64.one]
/-- Fourteen words of queue: two free. -/
def room2 : List Queued := List.replicate 7 (.paramK .decay F64.one)
/-- Fifteen words of queue: one free. -/
def room1 : List Queued := List.replicate 5 (.noteon ⟨0x4059000000000000⟩ F64.one)
/-- Eleven words of queue: five free. -/
def room5 : List Queued := [.noteon ⟨0x4059000000000000⟩ F64.one, .paramK .decay F64.one, .noteon ⟨0x4059000000000000⟩ F64.one, .noteon ⟨0x4059000000000000⟩ F64.one]
/-- Twelve words of queue: four free. -/
def room4 : List Queued := List.replicate 4 (.noteon ⟨0x4059000000000000⟩ F64.one)

/-- RejectionRecordsOnlyRejects, first clause: a malformed packet. -/
theorem test_witness_rejected_packet :
    let s := given (.transfer (.control [0x0500000000000000]))
    s.inReset = false ∧ s.inputs = .transfer (.control [0x0500000000000000]) :: [] ∧
    decode s.cfg.raw.quantum (.control [0x0500000000000000]) = .error (.rejected .badOpcode) := ⟨rfl, rfl, rfl⟩
/-- RejectionRecordsOnlyRejects, second clause: each way a note is bad. -/
theorem test_witness_bad_note :
    F64.isNaN ⟨0x7FF8000000000000⟩ = true ∧ F64.isInf ⟨0xFFF0000000000000⟩ = true ∧ F64.le ⟨0x8000000000000000⟩ F64.zero = true := by decide +kernel
/-- RejectionRecordsOnlyRejects, the FULL clauses, one word short each. -/
theorem test_witness_full :
    (freqOk ⟨0x407B800000000000⟩ = true ∧ F64.isNaN F64.one = false ∧ (queued room2).cfg.raw.qcap < (queued room2).occupied + 3) ∧
    (queued room1).cfg.raw.qcap < (queued room1).occupied + 2 ∧
    (queued room4).cfg.raw.qcap < (queued room4).occupied + (1 + [F64.zero, F64.half, F64.one, F64.two].length) := by decide +kernel
/-- NoteonIsQueued, ParamKIsQueued, ParamAIsQueued, with just enough room. -/
theorem test_witness_queued :
    ((⟨1⟩ : F64).isFinite = true ∧ F64.lt F64.zero ⟨1⟩ = true ∧ (⟨0x7FF0000000000000⟩ : F64).isNaN = false ∧
      (queued room3).occupied + 3 ≤ (queued room3).cfg.raw.qcap) ∧
    (queued room2).occupied + 2 ≤ (queued room2).cfg.raw.qcap ∧
    (queued room5).occupied + (1 + [F64.zero, F64.half, F64.one, F64.two].length) ≤ (queued room5).cfg.raw.qcap := by decide +kernel
/-- ControlCommandsLeaveRenderState: each command answers a next state. -/
theorem test_witness_commands (s : State) :
    (∃ t, exec (.noteon F64.one F64.one) s = .next t) ∧ (∃ t, exec (.paramK .decay F64.one) s = .next t) ∧
    (∃ t, exec (.paramA .shape [F64.one]) s = .next t) ∧ (∃ t, exec (.desc .decay) s = .next t) ∧
    (∃ t, exec (.stat .id) s = .next t) ∧ ∀ n, Instr.stat n ≠ .render :=
  ⟨⟨_, rfl⟩, ⟨_, rfl⟩, ⟨_, rfl⟩, ⟨_, rfl⟩, ⟨_, rfl⟩, by simp⟩

/-- OtherRenderRequestsAreRefused: a request word one off, one with a high bit set, one during a RENDER, one in RESET. -/
theorem test_witness_requests :
    ((given (.transfer (.request 5))).inputs = .transfer (.request 5) :: [] ∧ (5 : Word).toNat ≠ tc.raw.quantum) ∧
    ((given (.renderBegin 0x100000004)).inputs = .renderBegin 0x100000004 :: [] ∧ 2 ^ 32 ≤ (0x100000004 : Word).toNat) ∧
    { given (.renderBegin 4) with phase := .rendering }.phase ≠ .idle ∧
    { given (.transfer (.request 4)) with inReset := true }.inReset = true := by decide

/-- RenderCompletes, RenderRevertsParameters, RenderChainsTheStages: a RENDER with registers of both rates. -/
theorem test_witness_render :
    (busy .renderEnd).phase = .idle ∧ (busy .renderEnd).inReset = false ∧
    ((drain (busy .renderEnd)).param .shape).mode = .a ∧ ((drain (busy .renderEnd)).param .decay).mode = .k := by decide +kernel
/-- RenderLeavesControlState: a RENDER completes, and a voice is inactive after its drain. -/
theorem test_witness_render_frame :
    (∃ t, exec .render (busy .renderEnd) = .next t) ∧
    (drain s0).voices[1]? = some Voice.idle ∧ Voice.idle.active = false := ⟨⟨_, rfl⟩, by decide, rfl⟩
/-- RenderWritesOnlyPushedCells: with a kernel run (four frames unread, four more come) and without; cell 3 of RBI and cell 8 of
RBO stand just outside what is written. -/
theorem test_witness_render_cells :
    (RingInv (busy .renderEnd) ∧ (busy .renderEnd).work.dry.length = (busy .renderEnd).cfg.raw.kernel ∧
      (busy .renderEnd).cfg.raw.kernel ≤ (busy .renderEnd).rbi.avail + (busy .renderEnd).cfg.raw.quantum ∧
      (∀ k < (busy .renderEnd).cfg.raw.quantum, 3 ≠ ((busy .renderEnd).rbi.w + k) % (busy .renderEnd).cfg.raw.rbLen) ∧
      (∀ k < (busy .renderEnd).cfg.raw.kernel, 8 ≠ ((busy .renderEnd).rbo.w + k) % (busy .renderEnd).cfg.raw.rbLen)) ∧
    RingInv s0 ∧ s0.rbi.avail + s0.cfg.raw.quantum < s0.cfg.raw.kernel := by decide +kernel

/-- DrainAppliesInOrder -/
theorem test_witness_drain : (busy .drainEnd).cq = .noteon ⟨0x4059000000000000⟩ F64.half ::
    [.paramK .decay F64.one, .paramA .shape [F64.zero, F64.one, F64.two, F64.half]] := rfl
/-- DrainedNoteTriggers, first clause: voice 1 sounds 200 Hz, voice 0 does not. -/
theorem test_witness_retrigger :
    { busy .drainEnd with cq := [.noteon ⟨0x4069000000000000⟩ F64.half] }.voices[1]? = some ⟨F64.zero, ⟨0x4069000000000000⟩, F64.half, 0, true⟩ ∧
    F64.eq ⟨0x4069000000000000⟩ ⟨0x4069000000000000⟩ = true ∧
    ∀ (j : Nat) (w : Voice), j < 1 → (busy .drainEnd).voices[j]? = some w → w.active = true → F64.eq w.freq ⟨0x4069000000000000⟩ = false := by
  refine ⟨by decide +kernel, by decide +kernel, ?_⟩
  intro j w hj hw _
  interval_cases j
  have : w = ⟨F64.half, ⟨0x4059000000000000⟩, F64.one, 0, true⟩ := by
    simpa [busy] using hw.symm
  subst this
  decide +kernel
/-- DrainedNoteTriggers, second clause: no voice sounds 300 Hz, whether all are active or none. -/
theorem test_witness_assign :
    (∀ v ∈ (busy .drainEnd).voices, v.active = true → F64.eq v.freq ⟨0x4072C00000000000⟩ = false) ∧
    (∀ v ∈ s0.voices, v.active = true → F64.eq v.freq ⟨0x4072C00000000000⟩ = false) := by decide +kernel
/-- DrainedParamKWrites, DrainedParamAWrites -/
theorem test_witness_drained_params :
    (queued [.paramK .decay F64.one]).cq = [.paramK .decay F64.one] ∧ ParamId.shape ≠ .decay ∧
    (queued [.paramA .shape [F64.one]]).cq = [.paramA .shape [F64.one]] := ⟨rfl, by decide, rfl⟩

/-- NormalisedValuesAreLegal: a NaN, both infinities, both bounds and −0.0. -/
theorem test_witness_norm :
    F64.isNaN ⟨0xFFF0000000000001⟩ = true ∧ F64.isInf ⟨0x7FF0000000000000⟩ = true ∧ F64.isInf ⟨0xFFF0000000000000⟩ = true ∧
    (F64.le ParamId.decay.min ParamId.decay.min = true ∧ F64.le ParamId.decay.min (ParamId.decay.max tc) = true) ∧
    (F64.lt ⟨0x3FE0000000000000⟩ (ParamId.crushFactor.min) = true ∧ F64.lt (ParamId.lpCutoff.max tc) ⟨0x41CDCD6500000000⟩ = true) ∧
    (F64.le ParamId.shape.min ⟨0x8000000000000000⟩ = true ∧ F64.le ⟨0x8000000000000000⟩ (ParamId.shape.max tc) = true) := by decide +kernel
/-- ResolvedValuesAreLegal: the last frame, in either mode. -/
theorem test_witness_resolve :
    ParamInv (busy .drainEnd) ∧ 3 < (busy .drainEnd).cfg.raw.quantum ∧ ((busy .drainEnd).param .shape).mode = .a ∧
    ((busy .drainEnd).param .decay).mode = .k := by decide +kernel

/-- The invariants hold of a state with voices, frames, an a-rate parameter and a queue. -/
theorem test_witness_invariants (e : PortEvent) :
    QueueInv (busy e) ∧ ParamInv (busy e) ∧ VoiceInv (busy e) ∧ PhaseInv (busy e) ∧ RingInv (busy e) ∧ OccupancyInv (busy e) := by
  have hQ : QueueInv (busy .drainEnd) := by decide +kernel
  have hP : ParamInv (busy .drainEnd) := by decide +kernel
  have hV : VoiceInv (busy .drainEnd) := by decide +kernel
  have hF : PhaseInv (busy .drainEnd) := by decide +kernel
  have hR : RingInv (busy .drainEnd) := by decide +kernel
  have hO : OccupancyInv (busy .drainEnd) := by decide +kernel
  exact ⟨hQ, hP, hV, hF, hR, hO⟩
/-- … and steps from it: a RENDER, the drain of one, a control transfer (StepKeeps…, ConfigurationNeverChanges). -/
theorem test_witness_steps :
    (∃ t, step (busy (.transfer (.request 4))) = .next t) ∧ (∃ t, step (busy (.renderBegin 4)) = .next t) ∧
    (∃ t, step (busy (.transfer (.control [0x0200000000000001, 0x3FF0000000000000]))) = .next t) :=
  ⟨⟨_, rfl⟩, ⟨_, rfl⟩, ⟨_, rfl⟩⟩
/-- ResetMeetsInvariants, last clause: both instances, and the rate at the bound. -/
theorem test_witness_rate :
    F64.le F64.one Config.default.raw.sampleRate = true ∧ F64.le F64.one F64.one = true := by decide +kernel
/-- VoicesStayActive -/
theorem test_witness_active :
    (∃ t, step (busy (.resetLevel true)) = .next t) ∧ (∀ rest, (busy (.resetLevel true)).inputs ≠ .resetLevel false :: rest) ∧
    (busy (.resetLevel true)).voices[0]? = some ⟨F64.half, ⟨0x4059000000000000⟩, F64.one, 0, true⟩ :=
  ⟨⟨_, rfl⟩, by intro rest h; simp [busy] at h, by decide⟩

/-- A PARAM as a transfer. -/
def paramEvent : PortEvent := .transfer (.control [0x0200000000000001, 0x3FF0000000000000])

/-- OverlapLeavesRenderOutput: a PARAM while a RENDER is past its drain. -/
theorem test_witness_overlap :
    (∃ t, step { busy paramEvent with phase := .rendering } = .next t) ∧
    { busy paramEvent with phase := .rendering }.phase = .rendering ∧
    { busy paramEvent with phase := .rendering }.inReset = false ∧
    { busy paramEvent with phase := .rendering }.inputs = paramEvent :: [] ∧ paramEvent ≠ .renderEnd ∧
    (∃ t, serve paramEvent { s0 with phase := .rendering } = .next t) := ⟨⟨_, rfl⟩, rfl, rfl, rfl, by decide, ⟨_, rfl⟩⟩
/-- StagedRenderAgrees -/
theorem test_witness_staged :
    decodeRequest s0.cfg.raw.quantum 4 = some .render ∧ s0.phase = .idle ∧ s0.inReset = false := by decide
/-- CommittedRegistersChangeAtRenderEnd: the beginning of a RENDER is one of its events. -/
theorem test_witness_committed :
    (∃ t, step (given (.renderBegin 4)) = .next t) ∧ (given (.renderBegin 4)).inputs = .renderBegin 4 :: [] ∧
    (∀ w, PortEvent.renderBegin 4 ≠ .transfer (.request w)) ∧ PortEvent.renderBegin 4 ≠ .renderEnd ∧
    PortEvent.renderBegin 4 ≠ .resetLevel false := ⟨⟨_, rfl⟩, rfl, by simp, by simp, by simp⟩
/-- QueueReadBounds, last clause: a drain that found fifteen words with three accepted since, and one that found QCAP words. -/
theorem test_witness_drain_queue :
    QueueInv { queued [.noteon ⟨0x4059000000000000⟩ F64.one] with phase := .draining 15 } ∧
    QueueInv { queued [.noteon ⟨0x4059000000000000⟩ F64.one] with phase := .draining 16 } := by decide +kernel
/-- QueueReadBounds: each phase, a drain of no word and one of twelve. -/
theorem test_witness_phases :
    s0.phase = .idle ∧ { s0 with phase := .rendering }.phase = .rendering ∧ { s0 with phase := .draining 0 }.phase = .draining 0 ∧
    { s0 with phase := .draining 12 }.phase = .draining 12 := ⟨rfl, rfl, rfl, rfl⟩

/-- ResetRestoresEveryValue -/
theorem test_witness_release :
    { busy (.resetLevel false) with inReset := true }.inputs = .resetLevel false :: [] ∧
    { busy (.resetLevel false) with inReset := true }.inReset = true := ⟨rfl, rfl⟩
/-- AssertedResetServesNothing, its three clauses. -/
theorem test_witness_asserted :
    ({ busy (.transfer (.control [])) with inReset := true }.inputs = .transfer (.control []) :: [] ∧
      { busy (.transfer (.control [])) with inReset := true }.inReset = true) ∧
    ((busy (.resetLevel true)).inputs = .resetLevel true :: [] ∧ (busy (.resetLevel true)).phase = .idle) ∧
    { busy (.resetLevel true) with phase := .draining 0 }.phase ≠ .idle := ⟨⟨rfl, rfl⟩, ⟨rfl, rfl⟩, by simp⟩

/-- NoteGainInUnitInterval -/
theorem test_witness_gain : F64.isNaN ⟨0x7FF0000000000000⟩ = false ∧ F64.isNaN ⟨0x3FE999999999999A⟩ = false := by decide +kernel
/-- EnvelopeStartsAtOne, at both ends of the range; its functions: `test_witness_transcendentals`. -/
theorem test_witness_decay : LegalValue tc .decay ⟨0x3F50624DD2F1A9FC⟩ ∧ LegalValue tc .decay ⟨0x4024000000000000⟩ := by decide +kernel
/-- OscillatorStartsAtMinusOne, at either end of the ranges. -/
theorem test_witness_oscillator :
    (LegalValue tc .phaseDrop F64.zero ∧ LegalValue tc .detuneSpread F64.zero ∧ LegalValue tc .shape F64.zero ∧
      LegalValue tc .pulseWidth ⟨0x3F847AE147AE147B⟩) ∧
    (LegalValue tc .phaseDrop ⟨0x4024000000000000⟩ ∧ LegalValue tc .detuneSpread F64.one ∧ LegalValue tc .shape F64.two ∧
      LegalValue tc .pulseWidth ⟨0x3FEFAE147AE147AE⟩) := by decide +kernel
/-- MorphEndpoints: a finite phase; its functions: `test_witness_transcendentals`. -/
theorem test_witness_morph : F64.isFinite ⟨0xBFD0000000000000⟩ = true ∧ F64.isFinite ⟨0x3FF8000000000000⟩ = true := by decide +kernel

/-- MorphEndpoints: a shape on either side of 1.0. -/
theorem test_witness_shape : F64.lt ⟨0x3FEFFFFFFFFFFFFF⟩ F64.one = true ∧ F64.lt F64.one F64.one = false := by decide +kernel

/-- ZeroCutoffFreezes: a cutoff of either sign, a cell of −0.0 and one that is not. -/
theorem test_witness_cutoff :
    F64.isZero F64.zero = true ∧ F64.isZero ⟨0x8000000000000000⟩ = true ∧ F64.isFinite ⟨0x3FECCCCCCCCCCCCD⟩ = true ∧ F64.isFinite ⟨0x8000000000000000⟩ = true ∧
    ⟨0x3FD3333333333333⟩ ≠ F64.neg F64.zero ∧ F64.zero ≠ F64.neg F64.zero ∧ ⟨0x8000000000000000⟩ = F64.neg F64.zero ∧
    onePole ⟨F64.zero, F64.one⟩ ⟨0x3FECCCCCCCCCCCCD⟩ ⟨0x8000000000000000⟩ = F64.zero ∧ onePole ⟨F64.zero, F64.one⟩ ⟨0xBFECCCCCCCCCCCCD⟩ ⟨0x8000000000000000⟩ = ⟨0x8000000000000000⟩ := by decide +kernel
/-- SaturationBounds: an infinite product, and gain 0. -/
theorem test_witness_saturation :
    F64.isNaN (F64.mul ⟨0x4059000000000000⟩ ⟨0x7FE1CCF385EBC8A0⟩) = false ∧ F64.isNaN (F64.mul F64.zero ⟨0xC000000000000000⟩) = false ∧
    F64.isZero F64.zero = true := by decide +kernel
/-- FilterBlockFollowsRecursion: the last frame. -/
theorem test_witness_frames : ramp[7]? = some ⟨0x4020000000000000⟩ := rfl
/-- FilterBlockFollowsRecursion: a cutoff that is not 0. -/
theorem test_witness_coeff : F64.eq ⟨0x408F400000000000⟩ F64.zero = false ∧ F64.eq ⟨1⟩ F64.zero = false := by decide +kernel
/-- CrushHoldsFirstFrame: factors 1, 3 and CRUSH_MAX. -/
theorem test_witness_hold :
    (∀ g < ramp.length, holdFactor State.reset.params g = 1) ∧ (∀ g < ramp.length, holdFactor (crushed ⟨0x4004000000000000⟩) g = 3) ∧
    (∀ g < ramp.length, holdFactor (crushed ⟨0x4060000000000000⟩) g = 128) := by decide +kernel
/-- CrushHoldsFirstFrame, a-rate: PRG3's factors, groups from frames 0 and 3; frames 2 and 3 stand on either side of the bound. -/
theorem test_witness_hold_arate :
    let P := s0.params.set 8 ⟨.a, F64.one, [⟨0x4004000000000000⟩, ⟨0x401C000000000000⟩, ⟨0x3FF0000000000000⟩, ⟨0x3FF0000000000000⟩]⟩
    let start := fun m => (fun g => g + holdFactor P g)^[m] 0
    start 0 = 0 ∧ start 1 = 3 ∧ start 2 = 4 ∧
    (start 0 ≤ 2 ∧ 2 < start (0 + 1) ∧ 2 < 4) ∧ (start 1 ≤ 3 ∧ 3 < start (1 + 1) ∧ 3 < 4) := by decide +kernel

/-- PushKeepsNewestFrames, PullReadsOldestFrames: a full and an empty buffer of RB_LEN 4. -/
theorem test_witness_rings :
    (RingBuffer.Sound 4 ⟨[(0, ⟨0x4014000000000000⟩), (1, ⟨0x4018000000000000⟩), (2, ⟨0x4008000000000000⟩), (3, ⟨0x4010000000000000⟩)], 2, 2, 4⟩ ∧ ramp.length = 8) ∧
    RingBuffer.Sound 4 RingBuffer.empty := by decide +kernel
/-- PushThenPullReturnsPushed: as many frames as the buffer holds. -/
theorem test_witness_roundtrip :
    RingBuffer.Sound 8 ⟨[], 3, 3, 0⟩ ∧ (⟨[], 3, 3, 0⟩ : RingBuffer).avail = 0 ∧ ramp.length ≤ 8 ∧
    (State.silence 8).length = ramp.length := by decide +kernel
/-- CombIsRecursive: each clause at its bound, delay 1, 7 and 8. -/
theorem test_witness_comb :
    (0 < ramp.length ∧ 0 < 1) ∧ 6 + 1 < ramp.length ∧ 0 + 7 < ramp.length ∧ ramp.length ≤ 8 := by decide
/-- NormalisedPeakIsOne: zeros of either sign, and a block with a peak. -/
theorem test_witness_peak :
    (∀ x ∈ [F64.zero, ⟨0x8000000000000000⟩], x.isFinite = true) ∧ (peak [F64.zero, ⟨0x8000000000000000⟩]).isZero = true ∧
    (∀ x ∈ ramp, x.isFinite = true) ∧ (peak ramp).isZero = false := by decide +kernel
/-- SilentKernelStaysSilent -/
theorem test_witness_silence :
    LegalValue tc .reverbMix (resolve s0.params .reverbMix 0) ∧ LegalValue tc .reverbDecay (resolve s0.params .reverbDecay 0) ∧
    ∀ x ∈ s0.work.dry, x.isZero = true := by decide +kernel
/-- ReverbQuantumFollowsRule: with a kernel (four frames unread and four fed) and without. -/
theorem test_witness_quantum :
    (RingInv (busy .renderEnd) ∧ OccupancyInv (busy .renderEnd) ∧ (busy .renderEnd).phase = .idle ∧
      (busy .renderEnd).inReset = false ∧ ((busy .renderEnd).rbi.unread 16).length = 4) ∧
    RingInv s0 ∧ OccupancyInv s0 ∧ s0.phase = .idle ∧ s0.inReset = false ∧ (s0.rbi.unread 16).length = 0 := by decide +kernel

/-- RoundingIsNearestEven, the operands of each clause: a zero sum of two zeros, a difference of equals, an infinity of either sign, a
NaN, a divisor of 0. -/
theorem test_witness_operands :
    (F64.isFinite ⟨0x8000000000000000⟩ = true ∧ (⟨0x8000000000000000⟩ : F64).signedUnits + (⟨0x8000000000000000⟩ : F64).signedUnits = 0) ∧
    (F64.isFinite ⟨1⟩ = true ∧ (⟨1⟩ : F64).signedUnits - (⟨1⟩ : F64).signedUnits = 0 ∧ (⟨1⟩ : F64).mag ≠ 0) ∧
    F64.isInf ⟨0x7FF0000000000000⟩ = true ∧ F64.isInf ⟨0xFFF0000000000000⟩ = true ∧ F64.isNaN ⟨0x7FF0000000000001⟩ = true ∧
    (⟨0x8000000000000000⟩ : F64).mag = 0 := by decide +kernel
/-- RoundingIsNearestEven: the overflow threshold, one unit below it, and a tie with its two neighbours. -/
theorem test_witness_rounding :
    F64.magOfRatio ((2 ^ 54 - 1) * 2 ^ 2044) 1 = F64.infMag ∧ F64.magOfRatio ((2 ^ 54 - 1) * 2 ^ 2044 - 1) 1 < F64.infMag ∧
    F64.magOfRatio 3 2 = 2 ∧ (F64.unitsOfMag 1 : Int) * 2 - 3 = -1 ∧ (F64.unitsOfMag 2 : Int) * 2 - 3 = 1 := by decide +kernel
/-- FracInUnitInterval: the value just below 0, where the difference rounds to 1.0. -/
theorem test_witness_frac : F64.isFinite ⟨0x8000000000000001⟩ = true ∧ F64.frac ⟨0x8000000000000001⟩ = F64.zero := by decide +kernel

end Sys2Proof.Tests
end

section
/-! Proofs: the normalisation of parameter values (41_parameters.md R130, R131). -/

namespace Sys2Proof.F64

/-! ### Order and clamping -/

theorem isInf_iff (x : F64) : x.isInf = true ↔ x.mag = infMag := by simp [isInf]

theorem not_isNaN_of_isInf {x : F64} (h : x.isInf = true) : x.isNaN = false := by
  simp [isNaN, (isInf_iff x).1 h]

protected theorem le_refl {x : F64} (hx : x.isNaN = false) : le x x = true := (le_iff x x).2 ⟨hx, hx, le_rfl⟩

protected theorem le_trans {x y z : F64} (hxy : le x y = true) (hyz : le y z = true) : le x z = true := by
  obtain ⟨hx, -, hxy⟩ := (le_iff x y).1 hxy
  obtain ⟨-, hz, hyz⟩ := (le_iff y z).1 hyz
  exact (le_iff x z).2 ⟨hx, hz, hxy.trans hyz⟩

/-- Of two values that are no NaN, one is at most the other. -/
protected theorem le_of_not_lt {x y : F64} (hx : x.isNaN = false) (hy : y.isNaN = false) (h : lt x y = false) : le y x = true := by
  rw [← Bool.not_eq_true, lt_iff] at h
  exact (le_iff y x).2 ⟨hy, hx, not_lt.1 fun hk => h ⟨hx, hy, hk⟩⟩

protected theorem not_lt_of_le {x y : F64} (h : le x y = true) : lt y x = false := by
  rw [← Bool.not_eq_true, lt_iff]
  rintro ⟨-, -, hlt⟩
  exact hlt.not_ge ((le_iff x y).1 h).2.2

/-- The finite values are those whose place in the IEEE order is strictly between the infinities'. -/
theorem isFinite_iff_key (x : F64) : x.isFinite = true ↔ -(infMag : Int) < x.key ∧ x.key < infMag := by
  rw [isFinite_iff]
  cases h : x.sign
  · rw [key_of_pos h]; omega
  · rw [key_of_neg h]; omega

/-- A value between two finite ones is finite. -/
theorem isFinite_of_le_of_le {lo x hi : F64} (hlo : lo.isFinite = true) (hhi : hi.isFinite = true)
    (h₁ : le lo x = true) (h₂ : le x hi = true) : x.isFinite = true := by
  rw [isFinite_iff_key] at *
  exact ⟨hlo.1.trans_le ((le_iff lo x).1 h₁).2.2, ((le_iff x hi).1 h₂).2.2.trans_lt hhi.2⟩

/-- A negative infinity is below every finite value. -/
theorem lt_of_isInf_of_sign {x y : F64} (hx : x.isInf = true) (hs : x.sign = true) (hy : y.isFinite = true) :
    lt x y = true := by
  refine (lt_iff x y).2 ⟨not_isNaN_of_isInf hx, not_isNaN_of_isFinite hy, ?_⟩
  rw [key_of_neg hs, (isInf_iff x).1 hx]
  exact ((isFinite_iff_key y).1 hy).1

/-- A positive infinity is above every finite value. -/
theorem lt_of_isInf_of_not_sign {x y : F64} (hx : x.isInf = true) (hs : x.sign = false) (hy : y.isFinite = true) :
    lt y x = true := by
  refine (lt_iff y x).2 ⟨not_isNaN_of_isFinite hy, not_isNaN_of_isInf hx, ?_⟩
  rw [key_of_pos hs, (isInf_iff x).1 hx]
  exact ((isFinite_iff_key y).1 hy).2

theorem clamp_of_lt_lo {x lo : F64} (hi : F64) (h : lt x lo = true) : clamp x lo hi = lo := if_pos h

/-- A value above the upper bound clamps to it, the bounds being in order. -/
theorem clamp_of_hi_lt {x lo hi : F64} (hb : le lo hi = true) (h : lt hi x = true) : clamp x lo hi = hi := by
  obtain ⟨hhi, hx, hk⟩ := (lt_iff hi x).1 h
  have hlo : lt x lo = false := F64.not_lt_of_le (F64.le_trans hb ((le_iff hi x).2 ⟨hhi, hx, hk.le⟩))
  simp [clamp, hlo, h]

/-- A value within the bounds is kept, its sign of zero included. -/
theorem clamp_of_le_of_le {x lo hi : F64} (hlo : le lo x = true) (hhi : le x hi = true) : clamp x lo hi = x := by
  simp [clamp, F64.not_lt_of_le hlo, F64.not_lt_of_le hhi]

/-- Clamping a value that is no NaN answers one within the bounds. -/
theorem clamp_mem {x lo hi : F64} (hx : x.isNaN = false) (hb : le lo hi = true) :
    le lo (clamp x lo hi) = true ∧ le (clamp x lo hi) hi = true := by
  obtain ⟨hlo, hhi, -⟩ := (le_iff lo hi).1 hb
  cases hl : lt x lo with
  | true =>
    rw [clamp_of_lt_lo hi hl]
    exact ⟨F64.le_refl hlo, hb⟩
  | false =>
    cases hh : lt hi x with
    | true =>
      rw [clamp_of_hi_lt hb hh]
      exact ⟨hb, F64.le_refl hhi⟩
    | false =>
      have h₁ := F64.le_of_not_lt hx hlo hl
      have h₂ := F64.le_of_not_lt hhi hx hh
      rw [clamp_of_le_of_le h₁ h₂]
      exact ⟨h₁, h₂⟩

/-! ### Positive values and halving -/

theorem sign_of_pos {x : F64} (h : lt zero x = true) : x.sign = false := by
  obtain ⟨-, -, hk⟩ := (lt_iff zero x).1 h
  rw [key_of_pos zero_sign, zero_mag] at hk
  cases hs : x.sign with
  | false => rfl
  | true => rw [key_of_neg hs] at hk; omega

theorem zero_le_of_sign {x : F64} (hs : x.sign = false) (hx : x.isFinite = true) : le zero x = true := by
  refine (le_iff zero x).2 ⟨by decide, not_isNaN_of_isFinite hx, ?_⟩
  rw [key_of_pos zero_sign, key_of_pos hs, zero_mag]
  omega

@[simp] theorem half_isFinite : half.isFinite = true := by decide
@[simp] theorem half_sign : half.sign = false := by decide

theorem half_units_le_unit : half.units ≤ unit := by
  rw [← unitsOfMag_one]
  exact unitsOfMag_strictMono.monotone (by decide : half.mag ≤ 1023 * 2 ^ 52)

theorem mul_half_sign {x : F64} (hx : x.isFinite = true) : (x.mul half).sign = x.sign := by
  rw [mul_finite hx half_isFinite, sign_mk' _ _ (magOfRatio_lt _ _), half_sign, Bool.bne_false]

theorem mul_half_mag_le {x : F64} (hx : x.isFinite = true) : (x.mul half).mag ≤ x.mag := by
  rw [mul_finite hx half_isFinite, mag_mk' _ _ (magOfRatio_lt _ _)]
  exact magOfRatio_le_of_le unit_pos (Nat.mul_le_mul_left _ half_units_le_unit)

theorem mul_half_isFinite {x : F64} (hx : x.isFinite = true) : (x.mul half).isFinite = true := by
  rw [isFinite_iff] at *
  exact (mul_half_mag_le ((isFinite_iff x).2 hx)).trans_lt hx

end Sys2Proof.F64

namespace Sys2Proof

/-- The rate of an instance is finite and positive (00_scope.md R7). -/
theorem Config.sampleRate_ok (c : Config) : c.raw.sampleRate.isFinite = true ∧ F64.lt F64.zero c.raw.sampleRate = true := by
  have h := c.wf
  simp only [RawConfig.wf, Bool.and_eq_true] at h
  tauto

theorem Config.nyquist_isFinite (c : Config) : c.nyquist.isFinite = true := F64.mul_half_isFinite c.sampleRate_ok.1

theorem Config.zero_le_nyquist (c : Config) : F64.le F64.zero c.nyquist = true := by
  obtain ⟨hf, hpos⟩ := c.sampleRate_ok
  exact F64.zero_le_of_sign ((F64.mul_half_sign hf).trans (F64.sign_of_pos hpos)) c.nyquist_isFinite

end Sys2Proof

namespace Sys2Proof.ParamId

open Sys2Proof.Machine (LegalValue)

/-! ### The parameter table (R130) -/

theorem min_isFinite (id : ParamId) : id.min.isFinite = true := by cases id <;> decide

/-- Only the two cutoffs' maximum, NYQ, varies with the instance. -/
theorem max_isFinite (c : Config) (id : ParamId) : (id.max c).isFinite = true := by
  cases id
  case lpCutoff | hpCutoff => exact c.nyquist_isFinite
  all_goals simp only [max]; decide

theorem min_le_default (c : Config) (id : ParamId) : F64.le id.min (id.default c) = true := by
  cases id
  case lpCutoff => exact c.zero_le_nyquist
  all_goals simp only [default, min]; decide

theorem default_le_max (c : Config) (id : ParamId) : F64.le (id.default c) (id.max c) = true := by
  cases id
  case lpCutoff => exact F64.le_refl (F64.not_isNaN_of_isFinite c.nyquist_isFinite)
  case hpCutoff => exact c.zero_le_nyquist
  all_goals simp only [default, max]; decide

theorem min_le_max (c : Config) (id : ParamId) : F64.le id.min (id.max c) = true :=
  F64.le_trans (id.min_le_default c) (id.default_le_max c)

/-- Legality is the two bounds alone: what stands between them is finite. -/
theorem legalValue_of_le_of_le {c : Config} {id : ParamId} {x : F64} (h₁ : F64.le id.min x = true)
    (h₂ : F64.le x (id.max c) = true) : LegalValue c id x :=
  ⟨F64.isFinite_of_le_of_le id.min_isFinite (id.max_isFinite c) h₁ h₂, h₁, h₂⟩

theorem default_legal (c : Config) (id : ParamId) : LegalValue c id (id.default c) :=
  legalValue_of_le_of_le (id.min_le_default c) (id.default_le_max c)

/-! ### Normalisation (R131) -/

theorem norm_of_isNaN (c : Config) (id : ParamId) {x : F64} (h : x.isNaN = true) : id.norm c x = id.default c := if_pos h

theorem norm_of_not_isNaN (c : Config) (id : ParamId) {x : F64} (h : x.isNaN = false) :
    id.norm c x = F64.clamp x id.min (id.max c) := by
  simp [norm, h]

theorem norm_of_lt_min (c : Config) (id : ParamId) {x : F64} (h : F64.lt x id.min = true) : id.norm c x = id.min := by
  rw [id.norm_of_not_isNaN c ((F64.lt_iff x id.min).1 h).1, F64.clamp_of_lt_lo (id.max c) h]

theorem norm_of_max_lt (c : Config) (id : ParamId) {x : F64} (h : F64.lt (id.max c) x = true) : id.norm c x = id.max c := by
  rw [id.norm_of_not_isNaN c ((F64.lt_iff (id.max c) x).1 h).2.1, F64.clamp_of_hi_lt (id.min_le_max c) h]

/-- An infinity is beyond the bound on its side, both bounds being finite. -/
theorem norm_of_isInf (c : Config) (id : ParamId) {x : F64} (h : x.isInf = true) :
    id.norm c x = if x.sign then id.min else id.max c := by
  cases hs : x.sign with
  | true => exact id.norm_of_lt_min c (F64.lt_of_isInf_of_sign h hs id.min_isFinite)
  | false => exact id.norm_of_max_lt c (F64.lt_of_isInf_of_not_sign h hs (id.max_isFinite c))

theorem norm_of_legal (c : Config) (id : ParamId) {x : F64} (h₁ : F64.le id.min x = true) (h₂ : F64.le x (id.max c) = true) :
    id.norm c x = x := by
  rw [id.norm_of_not_isNaN c ((F64.le_iff id.min x).1 h₁).2.1, F64.clamp_of_le_of_le h₁ h₂]

/-- Whatever is written, a legal value is stored. -/
theorem norm_legal (c : Config) (id : ParamId) (x : F64) : LegalValue c id (id.norm c x) := by
  cases hx : x.isNaN with
  | true =>
    rw [id.norm_of_isNaN c hx]
    exact id.default_legal c
  | false =>
    rw [id.norm_of_not_isNaN c hx]
    obtain ⟨h₁, h₂⟩ := F64.clamp_mem hx (id.min_le_max c)
    exact legalValue_of_le_of_le h₁ h₂

end Sys2Proof.ParamId

namespace Sys2Proof.Machine

/-- Settles O25: the bounds are finite and in order, so each case of the normalisation is its clamp's. -/
theorem normalisedValuesAreLegal : Obligations.NormalisedValuesAreLegal := fun c id _ =>
  ⟨id.norm_legal c _, id.norm_of_isNaN c, id.norm_of_isInf c, id.norm_of_lt_min c, id.norm_of_max_lt c, id.norm_of_legal c⟩

end Sys2Proof.Machine
end

section
/-! Proofs: a RENDER without a transaction inside it, and the reversion at its end (47_render.md R270, 41_parameters.md R135). -/

namespace Sys2Proof.Machine

/-! ### The drain at the start of a RENDER -/

@[simp] theorem renderStart_cfg (s : State) : (renderStart s).cfg = s.cfg := drain_cfg s
@[simp] theorem renderStart_voices (s : State) : (renderStart s).voices = (drain s).voices := rfl
@[simp] theorem renderStart_clock (s : State) : (renderStart s).clock = s.clock := drain_clock s
@[simp] theorem renderStart_params (s : State) : (renderStart s).params = (drain s).params := rfl
@[simp] theorem renderStart_param (s : State) (id : ParamId) : (renderStart s).param id = (drain s).param id := rfl
@[simp] theorem renderStart_filter (s : State) : (renderStart s).filter = s.filter := drain_filter s
@[simp] theorem renderStart_engine (s : State) : (renderStart s).engine = s.engine := by
  simp [State.engine, renderStart]

/-! ### The stages after it -/

theorem renderFinish_syn (T : Transc) (s : State) :
    (renderFinish T s).work.syn = (synthFrames T s.cfg s.params s.clock s.cfg.raw.quantum 0 s.voices).syn := rfl

theorem renderFinish_flt (T : Transc) (s : State) :
    (renderFinish T s).work.flt = (filterFrames T s.cfg s.params (renderFinish T s).work.syn 0 s.filter).flt := rfl

theorem renderFinish_cru (T : Transc) (s : State) :
    (renderFinish T s).work.cru = crush s.params s.cfg.raw.quantum (renderFinish T s).work.flt := rfl

theorem renderFinish_out (T : Transc) (s : State) :
    (renderFinish T s).work.out = (s.engine.feed s.cfg s.params (renderFinish T s).work.cru).output s.cfg := rfl

/-- Between RENDERs and with RESET released, a RENDER is its drain and then its stages. -/
theorem exec_render {s : State} (hp : s.phase = .idle) (hr : s.inReset = false) :
    exec .render s = .next (renderFinish Config.transcendentals.toTransc (renderStart s)) := by
  simp [exec, execRender, hp, hr]

/-! ### The reversion (R135) -/

theorem ParamReg.revert_of_k {p : ParamReg} (q : Nat) (h : p.mode = .k) : p.revert q = p := by simp [revert, h]

theorem ParamReg.revert_of_a {p : ParamReg} (q : Nat) (h : p.mode = .a) :
    p.revert q = { p with mode := .k, kval := at' p.arr (q - 1) } := by
  simp [revert, h]

/-- The end of a RENDER reverts every register and writes none otherwise. -/
theorem renderFinish_param (T : Transc) (s : State) (id : ParamId) :
    (renderFinish T s).param id = (s.param id).revert s.cfg.raw.quantum := by
  simp [renderFinish, State.param]

/-- Settles O17: the registers are reverted last, each on its own, and every stage reads them as the drain left them. -/
theorem renderRevertsParameters : Obligations.RenderRevertsParameters := by
  intro s hp hr
  refine ⟨_, exec_render hp hr, fun id => ⟨fun ha => ?_, fun hk => ?_, ?_, ?_, ?_, ?_⟩⟩
  · rw [renderFinish_param, renderStart_param, renderStart_cfg, ParamReg.revert_of_a _ ha]
  · rw [renderFinish_param, renderStart_param, ParamReg.revert_of_k _ hk]
  · simp [renderFinish_syn]
  · rw [renderFinish_flt]; simp
  · rw [renderFinish_cru]; simp
  · rw [renderFinish_out]; simp

end Sys2Proof.Machine
end

section
/-! Proofs: the drain of a NOTEON (42_voicebank.md R152). -/

namespace Sys2Proof.Machine

/-! ### Which voice a NOTEON finds -/

theorem Voice.sounds_iff (f : F64) (v : Voice) : v.sounds f = true ↔ v.active = true ∧ F64.eq v.freq f = true := by
  simp [sounds]

theorem Voice.sounds_eq_false_iff (f : F64) (v : Voice) :
    v.sounds f = false ↔ (v.active = true → F64.eq v.freq f = false) := by
  simp [sounds]

/-- A voice that sounds the frequency is the one found if none below it does. -/
theorem soundingVoice_eq_some {f : F64} {vs : List Voice} {m : Nat} {v : Voice} (hm : vs[m]? = some v)
    (hv : v.sounds f = true) (hlow : ∀ (j : Nat) (w : Voice), j < m → vs[j]? = some w → w.sounds f = false) :
    soundingVoice f vs = some m := by
  obtain ⟨hlt, rfl⟩ := List.getElem?_eq_some_iff.1 hm
  refine List.findIdx?_eq_some_iff_getElem.2 ⟨hlt, hv, fun j hj => ?_⟩
  rw [Bool.not_eq_true]
  exact hlow j _ hj (List.getElem?_eq_getElem (hj.trans hlt))

theorem soundingVoice_eq_none {f : F64} {vs : List Voice} (h : ∀ v ∈ vs, v.sounds f = false) :
    soundingVoice f vs = none := List.findIdx?_eq_none_iff.2 h

/-! ### What the trigger writes -/

theorem triggeredVoices_of_sounding {f : F64} {s : State} {m : Nat} {v : Voice} (g : F64)
    (h : soundingVoice f s.voices = some m) (hm : s.voices[m]? = some v) :
    triggeredVoices f g s = s.voices.set m (v.retrigger g s.clock) := by
  simp [triggeredVoices, h, List.modify_eq_set_getElem?, hm]

/-- The voice at the cursor is overwritten whole, so what it held does not matter. -/
theorem triggeredVoices_of_not_sounding {f : F64} {s : State} (g : F64) (h : soundingVoice f s.voices = none) :
    triggeredVoices f g s = s.voices.set s.cur ⟨F64.zero, f, g, s.clock, true⟩ := by
  simp only [triggeredVoices, h, List.set_eq_modify]
  rfl

/-- The drain of a queue that holds one NOTEON is its trigger; the cursor advances whichever voice is triggered. -/
theorem drain_noteon {s : State} {f u : F64} (h : s.cq = [.noteon f u]) :
    drain s = { s with
      cq := []
      cur := (s.cur + 1) % s.cfg.raw.numVoices
      voices := triggeredVoices f (noteGain u) s } := by
  simp only [drain, h, List.foldl_cons, List.foldl_nil]
  rfl

/-- Settles O22: the drain is one trigger, and the two premises say which voice it finds. -/
theorem drainedNoteTriggers : Obligations.DrainedNoteTriggers := by
  intro s f u hq
  refine ⟨fun m v hm hact hfreq hlow => ?_, fun hnone => ?_⟩
  · have hfound : soundingVoice f s.voices = some m :=
      soundingVoice_eq_some hm ((v.sounds_iff f).2 ⟨hact, hfreq⟩) fun j w hj hw =>
        (w.sounds_eq_false_iff f).2 (hlow j w hj hw)
    rw [drain_noteon hq, triggeredVoices_of_sounding _ hfound hm]
    rfl
  · have hfound : soundingVoice f s.voices = none :=
      soundingVoice_eq_none fun v hv => (v.sounds_eq_false_iff f).2 (hnone v hv)
    rw [drain_noteon hq, triggeredVoices_of_not_sounding _ hfound]
    rfl

end Sys2Proof.Machine
end

section
/-! Proofs: a filter cell under a cutoff of 0 (44_filter.md R201). -/

namespace Sys2Proof.F64

/-! ### Zeros, and multiplication by 0.0 and 1.0 -/

@[simp] theorem zero_isFinite : zero.isFinite = true := by decide
@[simp] theorem one_isFinite : one.isFinite = true := by decide

theorem isZero_iff (x : F64) : x.isZero = true ↔ x.mag = 0 := by simp [isZero]

/-- Both zeros stand at 0 in the IEEE order. -/
theorem key_of_isZero {x : F64} (h : x.isZero = true) : x.key = 0 := by simp [key, (isZero_iff x).1 h]

theorem eq_zero_of_isZero {x : F64} (h : x.isZero = true) : eq x zero = true :=
  (eq_iff x zero).2 ⟨not_isNaN_of_isFinite (isFinite_of_isZero h), by decide, key_of_isZero h⟩

protected theorem eq_refl {x : F64} (hx : x.isNaN = false) : eq x x = true := (eq_iff x x).2 ⟨hx, hx, rfl⟩

/-- The one zero besides +0.0 is −0.0. -/
theorem eq_zero_or_eq_neg_zero {x : F64} (h : x.isZero = true) : x = zero ∨ x = neg zero := by
  have hm := (isZero_iff x).1 h
  cases hs : x.sign with
  | false => exact .inl (ext_sign_mag (by simp [hs]) (by simp [hm]))
  | true => exact .inr (ext_sign_mag (by simp [hs]) (by simp [hm]))

/-- A finite value times +0.0 is the zero of its sign. -/
protected theorem mul_zero {x : F64} (hx : x.isFinite = true) : x.mul zero = ofSignMag x.sign 0 := by
  rw [mul_finite hx zero_isFinite]
  simp [units]

/-- A finite value times 1.0 is itself, bit for bit: the exact product is representable. -/
protected theorem mul_one {x : F64} (hx : x.isFinite = true) : x.mul one = x := by
  have hone : one.units = unit := by rw [units, one_mag, unitsOfMag_one]
  have hmag : magOfRatio (x.units * unit) unit = x.mag :=
    magOfRatio_exact x.mag unit unit_pos ((isFinite_iff x).1 hx).le
  rw [mul_finite hx one_isFinite, hone, hmag, one_sign, Bool.bne_false, ofSignMag_sign_mag]

/-! ### Addition to a zero -/

theorem signedUnits_of_isZero {x : F64} (h : x.isZero = true) : x.signedUnits = 0 := by
  simp [signedUnits, units, (isZero_iff x).1 h]

@[simp] theorem signedUnits_natAbs (x : F64) : x.signedUnits.natAbs = x.units := by
  cases h : x.sign <;> simp [signedUnits, h]

theorem units_pos_of_not_isZero {x : F64} (h : x.isZero = false) : 0 < x.units := by
  have hm : 0 < x.mag := by simpa [isZero, Nat.pos_iff_ne_zero] using h
  simpa [units] using unitsOfMag_strictMono hm

theorem signedUnits_neg_iff_sign {x : F64} (h : x.isZero = false) : x.signedUnits < 0 ↔ x.sign = true := by
  have hpos := units_pos_of_not_isZero h
  cases hs : x.sign with
  | false => simp [signedUnits, hs]
  | true => simpa [signedUnits, hs] using hpos

/-- The sum of two zeros is negative only if both are. -/
theorem add_of_isZero_of_isZero {x y : F64} (hx : x.isZero = true) (hy : y.isZero = true) :
    x.add y = ofSignMag (x.sign && y.sign) 0 := by
  rw [add_finite (isFinite_of_isZero hx) (isFinite_of_isZero hy), signedUnits_of_isZero hx, signedUnits_of_isZero hy]
  rfl

/-- A zero of either sign added to a finite value that is none leaves it: the exact sum is representable. -/
theorem add_of_isZero_of_not_isZero {x y : F64} (hx : x.isZero = true) (hy : y.isFinite = true) (hy0 : y.isZero = false) :
    x.add y = y := by
  have hne : y.signedUnits ≠ 0 := by
    rw [← Int.natAbs_ne_zero, signedUnits_natAbs]
    exact (units_pos_of_not_isZero hy0).ne'
  have hsign : decide (y.signedUnits < 0) = y.sign := by simp [signedUnits_neg_iff_sign hy0]
  have hmag : magOfRatio y.units 1 = y.mag := by
    simpa [units] using magOfRatio_exact y.mag 1 Nat.one_pos ((isFinite_iff y).1 hy).le
  rw [add_finite (isFinite_of_isZero hx) hy, signedUnits_of_isZero hx, Int.zero_add, if_neg hne, hsign,
    signedUnits_natAbs, hmag, ofSignMag_sign_mag]

/-- A zero of either sign added to a finite value leaves it, bit for bit, unless the value is −0.0. -/
theorem add_of_isZero {x y : F64} (hx : x.isZero = true) (hy : y.isFinite = true) (hne : y ≠ neg zero) : x.add y = y := by
  cases hy0 : y.isZero with
  | false => exact add_of_isZero_of_not_isZero hx hy hy0
  | true =>
    obtain rfl : y = zero := (eq_zero_or_eq_neg_zero hy0).resolve_right hne
    rw [add_of_isZero_of_isZero hx hy0, zero_sign, Bool.and_false]
    rfl

end Sys2Proof.F64

namespace Sys2Proof.Machine

theorem coeff_of_isZero (T : Transc) (c : Config) {fc : F64} (h : fc.isZero = true) : coeff T c fc = ⟨F64.zero, F64.one⟩ :=
  if_pos (F64.eq_zero_of_isZero h)

/-- With a0 = 0 and b1 = 1 the input contributes only the zero of its sign. -/
theorem onePole_zero_one {x z : F64} (hx : x.isFinite = true) (hz : z.isFinite = true) :
    onePole ⟨F64.zero, F64.one⟩ x z = (F64.ofSignMag x.sign 0).add z := by
  rw [onePole, F64.mul_zero hx, F64.mul_one hz]

/-- A cell of −0.0 stays negative only under an input of negative sign. -/
theorem onePole_zero_one_neg_zero {x : F64} (hx : x.isFinite = true) :
    onePole ⟨F64.zero, F64.one⟩ x (F64.neg F64.zero) = if x.sign then F64.neg F64.zero else F64.zero := by
  rw [onePole_zero_one hx (by decide)]
  cases x.sign <;> decide

/-- Any other cell is kept, bit for bit. -/
theorem onePole_zero_one_of_ne {x z : F64} (hx : x.isFinite = true) (hz : z.isFinite = true) (hne : z ≠ F64.neg F64.zero) :
    onePole ⟨F64.zero, F64.one⟩ x z = z := by
  have h0 : (F64.ofSignMag x.sign 0).isZero = true := by simp [F64.isZero]
  rw [onePole_zero_one hx hz, F64.add_of_isZero h0 hz hne]

/-- The two zeros being equal in the IEEE order, every cell keeps its value. -/
theorem eq_onePole_zero_one {x z : F64} (hx : x.isFinite = true) (hz : z.isFinite = true) :
    F64.eq (onePole ⟨F64.zero, F64.one⟩ x z) z = true := by
  by_cases hne : z = F64.neg F64.zero
  · subst hne
    rw [onePole_zero_one_neg_zero hx]
    cases x.sign <;> decide
  · rw [onePole_zero_one_of_ne hx hz hne]
    exact F64.eq_refl (F64.not_isNaN_of_isFinite hz)

/-- Settles O48: the guard answers a0 = 0 and b1 = 1, and what they do to the cell is said above, the cell −0.0 apart. -/
theorem zeroCutoffFreezes : Obligations.ZeroCutoffFreezes := by
  intro T c fc x z hfc hx hz
  rw [coeff_of_isZero T c hfc]
  refine ⟨rfl, eq_onePole_zero_one hx hz, onePole_zero_one_of_ne hx hz, ?_⟩
  rintro rfl
  exact onePole_zero_one_neg_zero hx

end Sys2Proof.Machine
end

section
/-! Proofs: the ring buffers in terms of unread frames (46_reverb.md R230, R231). -/

namespace Sys2Proof.Machine.RingBuffer

/-! ### The frames from a read index on -/

/-- The frames in closed form: frame `k` of them stands `k` cells after the read index, modulo the capacity. -/
theorem frames_eq_map {len r : Nat} (d : Memory) (m : Nat) (hr : r < len) :
    frames len d m r = (List.range m).map fun k => Memory.read d ((r + k) % len) := by
  induction m generalizing r with
  | zero => rfl
  | succ m ih =>
    have hlen : 0 < len := Nat.zero_lt_of_lt hr
    rw [frames, ih (Nat.mod_lt _ hlen), List.range_succ_eq_map]
    simp [Nat.mod_eq_of_lt hr, Nat.add_assoc, Nat.add_comm 1]

/-- Reading `m` frames and then `n` is reading `m + n`. -/
theorem frames_add {len r : Nat} (d : Memory) (m n : Nat) (hr : r < len) :
    frames len d (m + n) r = frames len d m r ++ frames len d n ((r + m) % len) := by
  have hlen : 0 < len := Nat.zero_lt_of_lt hr
  rw [frames_eq_map d _ hr, frames_eq_map d _ hr, frames_eq_map d _ (Nat.mod_lt _ hlen), List.range_add]
  simp [Nat.add_assoc]

/-- A write just past `m` frames appends its frame, if they leave a cell free for it. -/
theorem frames_write_end {len r m : Nat} {d : Memory} (x : F64) (hd : Memory.wf d) (hr : r < len) (hm : m < len) :
    frames len (Memory.write d ((r + m) % len) x) (m + 1) r = frames len d m r ++ [x] := by
  have hother : ∀ k ∈ List.range m, Memory.read (Memory.write d ((r + m) % len) x) ((r + k) % len) =
      Memory.read d ((r + k) % len) := by
    intro k hk
    refine Memory.read_write_other _ _ _ _ fun heq => ?_
    have hkm : k < m := List.mem_range.1 hk
    have hmod : k % len = m % len := Nat.ModEq.add_left_cancel' r heq
    rw [Nat.mod_eq_of_lt (hkm.trans hm), Nat.mod_eq_of_lt hm] at hmod
    exact hkm.ne hmod
  rw [frames_eq_map _ _ hr, frames_eq_map _ _ hr, List.range_succ, List.map_append, List.map_congr_left hother,
    List.map_singleton, Memory.read_write_same _ _ _ hd.1]

@[simp] theorem unread_length (len : Nat) (rb : RingBuffer) : (rb.unread len).length = rb.avail := frames_length _ _ _ _

/-! ### Push -/

theorem pushOne_of_not_full {len : Nat} {rb : RingBuffer} (x : F64) (h : rb.avail < len) :
    rb.pushOne len x = ⟨Memory.write rb.data rb.w x, (rb.w + 1) % len, rb.r, rb.avail + 1⟩ := by
  simp [pushOne, h]

theorem pushOne_of_full {len : Nat} {rb : RingBuffer} (x : F64) (h : rb.avail = len) :
    rb.pushOne len x = ⟨Memory.write rb.data rb.w x, (rb.w + 1) % len, (rb.r + 1) % len, len⟩ := by
  simp [pushOne, h]

theorem pushOne_avail {len : Nat} {rb : RingBuffer} (x : F64) (h : rb.avail ≤ len) :
    (rb.pushOne len x).avail = min (rb.avail + 1) len := by
  rcases Nat.lt_or_eq_of_le h with h | h
  · rw [pushOne_of_not_full x h]; exact (Nat.min_eq_left h).symm
  · rw [pushOne_of_full x h]; simp [h]

theorem pushOne_sound {len : Nat} {rb : RingBuffer} (x : F64) (h : Sound len rb) : Sound len (rb.pushOne len x) := by
  obtain ⟨hd, hb, hw, hr, ha, hwr⟩ := h
  have hlen : 0 < len := Nat.zero_lt_of_lt hr
  have hd' := Memory.write_wf rb.data rb.w x hd
  have hb' := Memory.write_bound (x := x) hb hw
  rcases Nat.lt_or_eq_of_le ha with hlt | hfull
  · rw [pushOne_of_not_full x hlt]
    refine ⟨hd', hb', Nat.mod_lt _ hlen, hr, hlt, ?_⟩
    simp [hwr, Nat.add_assoc]
  · rw [pushOne_of_full x hfull]
    refine ⟨hd', hb', Nat.mod_lt _ hlen, Nat.mod_lt _ hlen, Nat.le_refl len, ?_⟩
    simp [hwr, hfull]

/-- One frame joins the unread ones at their end; a full buffer loses its oldest. -/
theorem pushOne_unread {len : Nat} {rb : RingBuffer} (x : F64) (h : Sound len rb) :
    (rb.pushOne len x).unread len = (rb.unread len ++ [x]).drop (rb.avail + 1 - len) := by
  obtain ⟨hd, -, -, hr, ha, hwr⟩ := h
  rcases Nat.lt_or_eq_of_le ha with hlt | hfull
  · rw [pushOne_of_not_full x hlt, hwr, Nat.sub_eq_zero_of_le hlt]
    exact frames_write_end x hd hr hlt
  · obtain ⟨n, rfl⟩ : ∃ n, len = n + 1 := Nat.exists_eq_succ_of_ne_zero (Nat.ne_zero_of_lt hr)
    have hw : rb.w = ((rb.r + 1) % (n + 1) + n) % (n + 1) := by
      rw [hwr, hfull, Nat.mod_add_mod, Nat.add_assoc, Nat.add_comm 1]
    have hold : rb.unread (n + 1) = Memory.read rb.data rb.r :: frames (n + 1) rb.data n ((rb.r + 1) % (n + 1)) := by
      rw [unread, hfull, frames]
    rw [pushOne_of_full x hfull, hw, hfull, Nat.add_sub_cancel_left, hold, List.cons_append, List.drop_succ_cons,
      List.drop_zero]
    exact frames_write_end x hd (Nat.mod_lt _ n.succ_pos) n.lt_succ_self

theorem push_sound {len : Nat} {rb : RingBuffer} (xs : List F64) (h : Sound len rb) : Sound len (rb.push len xs) := by
  induction xs generalizing rb with
  | nil => exact h
  | cons x xs ih => exact ih (pushOne_sound x h)

theorem push_w {len : Nat} {rb : RingBuffer} (xs : List F64) (h : rb.w < len) :
    (rb.push len xs).w = (rb.w + xs.length) % len := by
  induction xs generalizing rb with
  | nil => exact (Nat.mod_eq_of_lt h).symm
  | cons x xs ih =>
    rw [push_cons, ih (Nat.mod_lt _ (Nat.zero_lt_of_lt h))]
    simp [pushOne, Nat.add_assoc, Nat.add_comm 1]

theorem push_avail {len : Nat} {rb : RingBuffer} (xs : List F64) (h : rb.avail ≤ len) :
    (rb.push len xs).avail = min (rb.avail + xs.length) len := by
  induction xs generalizing rb with
  | nil => exact (Nat.min_eq_left h).symm
  | cons x xs ih =>
    have hone := pushOne_avail x h
    rw [push_cons, ih (hone ▸ Nat.min_le_right _ _), hone, List.length_cons]
    omega

theorem push_unread {len : Nat} {rb : RingBuffer} (xs : List F64) (h : Sound len rb) :
    (rb.push len xs).unread len = (rb.unread len ++ xs).drop (rb.avail + xs.length - len) := by
  induction xs generalizing rb with
  | nil =>
    have ⟨_, _, _, _, ha, _⟩ := h
    simp [ha]
  | cons x xs ih =>
    have ⟨_, _, _, _, ha, _⟩ := h
    have hfit : rb.avail + 1 - len ≤ (rb.unread len ++ [x]).length := by simp
    have hcount : rb.avail + 1 - len + (min (rb.avail + 1) len + xs.length - len) = rb.avail + (xs.length + 1) - len := by
      omega
    rw [push_cons, ih (pushOne_sound x h), pushOne_unread x h, pushOne_avail x ha, ← List.drop_append_of_le_length hfit,
      List.drop_drop, hcount, List.append_assoc, List.singleton_append, List.length_cons]

/-! ### Pull -/

/-- The unread frames are those a pull reads and then those it leaves unread. -/
theorem unread_eq_append_afterPull {len : Nat} {rb : RingBuffer} (n : Nat) (hr : rb.r < len) :
    rb.unread len = frames len rb.data (min n rb.avail) rb.r ++ (rb.afterPull len n).unread len := by
  rw [unread, afterPull, unread, ← frames_add _ _ _ hr, Nat.add_sub_cancel' (Nat.min_le_right n rb.avail)]

theorem unread_take {len : Nat} {rb : RingBuffer} (n : Nat) (hr : rb.r < len) :
    (rb.unread len).take n = frames len rb.data (min n rb.avail) rb.r := by
  rw [List.take_eq_take_min, unread_length, unread_eq_append_afterPull n hr, List.take_left' (frames_length _ _ _ _)]

theorem unread_drop {len : Nat} {rb : RingBuffer} (n : Nat) (hr : rb.r < len) :
    (rb.unread len).drop n = (rb.afterPull len n).unread len := by
  have hmin : (rb.unread len).drop n = (rb.unread len).drop (min n rb.avail) := List.drop_eq_drop_iff.2 (by simp)
  rw [hmin, unread_eq_append_afterPull n hr, List.drop_left' (frames_length _ _ _ _)]

/-- A pull fills the first positions of a destination of `n` frames and leaves the others. -/
theorem pulled_eq_take_append_drop {len n : Nat} {rb : RingBuffer} {dst : List F64} (hr : rb.r < len)
    (hdst : dst.length = n) : rb.pulled len dst n = (rb.unread len).take n ++ dst.drop rb.avail := by
  have hrest : dst.drop (min n rb.avail) = dst.drop rb.avail := List.drop_eq_drop_iff.2 (by omega)
  rw [pulled, unread_take n hr, hrest]

@[simp] theorem afterPull_avail (len n : Nat) (rb : RingBuffer) : (rb.afterPull len n).avail = rb.avail - n := by
  simp only [afterPull]
  omega

theorem afterPull_sound {len n : Nat} {rb : RingBuffer} (h : Sound len rb) : Sound len (rb.afterPull len n) := by
  obtain ⟨hd, hb, hw, hr, ha, hwr⟩ := h
  refine ⟨hd, hb, hw, Nat.mod_lt _ (Nat.zero_lt_of_lt hr), (Nat.sub_le _ _).trans ha, ?_⟩
  have hw' : rb.w = ((rb.r + min n rb.avail) % len + (rb.avail - min n rb.avail)) % len := by
    rw [Nat.mod_add_mod, Nat.add_assoc, Nat.add_sub_cancel' (Nat.min_le_right n rb.avail), ← hwr]
  exact hw'

end Sys2Proof.Machine.RingBuffer

namespace Sys2Proof.Machine

/-- Settles O52: frame by frame, each at the write index, which is just past the unread frames. -/
theorem pushKeepsNewestFrames : Obligations.PushKeepsNewestFrames := by
  intro len rb xs h
  have ⟨_, _, hw, _, ha, _⟩ := h
  exact ⟨RingBuffer.push_sound xs h, RingBuffer.push_w xs hw, RingBuffer.push_avail xs ha, RingBuffer.push_unread xs h⟩

/-- Settles O53: the unread frames split where the pull ends. -/
theorem pullReadsOldestFrames : Obligations.PullReadsOldestFrames := by
  intro len n rb dst h hdst
  have ⟨_, _, _, hr, _, _⟩ := h
  exact ⟨RingBuffer.pulled_eq_take_append_drop hr hdst, RingBuffer.pulled_length len n rb dst hdst,
    (RingBuffer.unread_drop n hr).symm, RingBuffer.afterPull_avail len n rb, rfl, rfl, fun _ => rfl,
    RingBuffer.afterPull_sound h⟩

end Sys2Proof.Machine
end

section
/-! Proofs: the comb's recursion (46_reverb.md R235). -/

namespace Sys2Proof.Machine

/-- A property of the passes done and their result that every pass keeps holds after the loop. -/
theorem forUpTo_indexed_induction {α : Type} (Q : Nat → α → Prop) (n : Nat) (body : Nat → α → α) (a : α) (h0 : Q 0 a)
    (hs : ∀ i b, i < n → Q i b → Q (i + 1) (body i b)) : Q n (forUpTo n body a) := by
  induction n with
  | zero => exact h0
  | succ n ih => exact hs n _ n.lt_succ_self (ih fun i b hi => hs i b (Nat.lt_succ_of_lt hi))

theorem at'_congr {xs ys : List F64} {i j : Nat} (h : xs[i]? = ys[j]?) : at' xs i = at' ys j := by
  simp [at', List.getD, h]

theorem at'_set_self {xs : List F64} {i : Nat} (x : F64) (h : i < xs.length) : at' (xs.set i x) i = x := by
  simp [at', List.getD, h]

/-- What `n` passes of the comb have made of `x`: the frames they wrote follow the recursion, the others are the input's. -/
structure CombUpTo (x : List F64) (d : Nat) (g : F64) (n : Nat) (y : List F64) : Prop where
  length_eq : y.length = x.length
  getElem?_eq : ∀ j, j < d ∨ n + d ≤ j → y[j]? = x[j]?
  recursion : ∀ i < n, at' y (i + d) = (at' x (i + d)).add ((at' y i).mul g)

/-- A pass writes frame `n + d` and, the delay being at least 1, reads only frames it does not write. -/
theorem CombUpTo.pass {x y : List F64} {d n : Nat} {g : F64} (hd : 1 ≤ d) (hn : n + d < x.length)
    (h : CombUpTo x d g n y) :
    CombUpTo x d g (n + 1) (y.set (n + d) ((at' y (n + d)).add ((at' y n).mul g))) := by
  obtain ⟨hlen, hinput, hrec⟩ := h
  have hother : ∀ (v : F64) (j : Nat), j ≠ n + d → (y.set (n + d) v)[j]? = y[j]? := fun v j hj =>
    List.getElem?_set_ne hj.symm
  refine ⟨by simp [hlen], fun j hj => ?_, fun i hi => ?_⟩
  · rw [hother _ j (by omega), hinput j (by omega)]
  · rw [at'_congr (hother _ i (by omega))]
    rcases Nat.lt_succ_iff_lt_or_eq.1 hi with hlt | rfl
    · rw [at'_congr (hother _ (i + d) (by omega)), hrec i hlt]
    · rw [at'_set_self _ (hlen ▸ hn), at'_congr (hinput (i + d) (.inr le_rfl))]

theorem comb_upTo (x : List F64) {d : Nat} (g : F64) (hd : 1 ≤ d) : CombUpTo x d g (x.length - d) (comb x d g) :=
  forUpTo_indexed_induction (CombUpTo x d g) _ _ x ⟨rfl, fun _ _ => rfl, fun _ hi => absurd hi (Nat.not_lt_zero _)⟩
    fun _ _ hi h => h.pass hd (Nat.add_lt_of_lt_sub hi)

theorem comb_of_length_le {x : List F64} {d : Nat} (g : F64) (h : x.length ≤ d) : comb x d g = x := by
  rw [comb, Nat.sub_eq_zero_of_le h, forUpTo_zero]

/-- Settles O55: the frames that the passes wrote and those they left, after the last pass. -/
theorem combIsRecursive : Obligations.CombIsRecursive := by
  intro x d g hd
  have h := comb_upTo x g hd
  exact ⟨h.length_eq, fun i _ hi => h.getElem?_eq i (.inl hi), fun i hi => h.recursion i (Nat.lt_sub_of_add_lt hi),
    comb_of_length_le g⟩

end Sys2Proof.Machine
end

section
/-! Proofs: the effect chain of a RENDER (47_render.md R273). -/

namespace Sys2Proof.Machine

theorem renderFinish_filter (T : Transc) (s : State) :
    (renderFinish T s).filter = (filterFrames T s.cfg s.params (renderFinish T s).work.syn 0 s.filter).cells := rfl

/-- A RENDER synthesises the state its drain leaves; the phase that marks the drain's progress is read by no stage. -/
theorem renderStart_synth (T : Transc) (s : State) : (renderStart s).synth T = (drain s).synth T := rfl

/-- Settles O18: each stage reads the block of the one before it, on the registers, the cells and the engine that the drain
leaves. -/
theorem renderChainsTheStages : Obligations.RenderChainsTheStages := by
  intro s hp hr
  refine ⟨_, exec_render hp hr, ?_, ?_, ?_, ?_, ?_⟩
  · exact congrArg Synth.syn (renderStart_synth _ s)
  · rw [renderFinish_flt]; simp
  · rw [renderFinish_filter]; simp
  · rw [renderFinish_cru]; simp
  · rw [renderFinish_out]; simp

end Sys2Proof.Machine
end

section
/-! Proofs: the render requests that are refused (47_render.md R277, 30_encoding.md R108). -/

namespace Sys2Proof

/-- The word that requests a RENDER: `zext_64(QUANTUM)`, for which QUANTUM has to fit 32 bits (30_encoding.md R108). -/
abbrev RequestsRender (q : Nat) (req : Word) : Prop := req.toNat < 2 ^ 32 ∧ req.toNat = q

/-- Bits [63:32] are 0 just for a value below 2^32, which bits [31:0] then hold. -/
theorem decodeRequest_eq (q : Nat) (req : Word) :
    decodeRequest q req = if RequestsRender q req then some .render else none := by
  have hfields : (req.extractLsb' 32 32 = 0#32 ∧ (req.extractLsb' 0 32).toNat = q) ↔ RequestsRender q req := by
    rw [← BitVec.toNat_inj, BitVec.extractLsb'_toNat, BitVec.extractLsb'_toNat]
    simp only [Nat.shiftRight_eq_div_pow, BitVec.toNat_ofNat]
    have := req.isLt
    omega
  simp only [decodeRequest, hfields]

end Sys2Proof

namespace Sys2Proof.Machine

theorem step_of_inputs {s : State} {e : PortEvent} {rest : List PortEvent} (h : s.inputs = e :: rest) :
    step s = serve e (s.pop rest) := by
  simp [step, h]

/-- The modes in which the render port takes a request. -/
abbrev State.TakesRequest (s : State) : Prop := s.phase = .idle ∧ s.inReset = false

theorem exec_render_refused {s : State} (h : ¬s.TakesRequest) : exec .render s = .refused .renderOverlap := if_neg h

/-- A RENDER presented whole: RESET is looked at first, then the word, then the RENDER in progress. -/
theorem serve_request (s : State) (req : Word) :
    serve (.transfer (.request req)) s =
      if s.inReset then .refused .renderOverlap
      else if RequestsRender s.cfg.raw.quantum req then exec .render s
      else .refused .badRenderRequest := by
  simp only [serve, serveInReset, serveTransfer, decode, decodeRequest_eq]
  by_cases hw : RequestsRender s.cfg.raw.quantum req
  · simp only [if_pos hw]
  · simp only [if_neg hw]

/-- The beginning of one: the word is looked at first, then the mode. -/
theorem serve_renderBegin (s : State) (req : Word) :
    serve (.renderBegin req) s =
      if RequestsRender s.cfg.raw.quantum req then
        if s.TakesRequest then .next (renderStart s) else .refused .renderOverlap
      else .refused .badRenderRequest := by
  simp only [serve, beginRender, decodeRequest_eq]
  by_cases hw : RequestsRender s.cfg.raw.quantum req
  · simp only [if_pos hw]
  · simp only [if_neg hw]

theorem serve_request_refused {s : State} {req : Word} (h : ¬(RequestsRender s.cfg.raw.quantum req ∧ s.TakesRequest)) :
    ∃ r, serve (.transfer (.request req)) s = .refused r := by
  rw [serve_request]
  split
  · exact ⟨_, rfl⟩
  · split
    · next hw => exact ⟨_, exec_render_refused fun hm => h ⟨hw, hm⟩⟩
    · exact ⟨_, rfl⟩

theorem serve_renderBegin_refused {s : State} {req : Word} (h : ¬(RequestsRender s.cfg.raw.quantum req ∧ s.TakesRequest)) :
    ∃ r, serve (.renderBegin req) s = .refused r := by
  rw [serve_renderBegin]
  split
  · next hw => exact ⟨_, if_neg fun hm => h ⟨hw, hm⟩⟩
  · exact ⟨_, rfl⟩

/-- Settles O15: the word or the mode is not that of a request the render port takes, and taking the event off the list
changes neither. -/
theorem otherRenderRequestsAreRefused : Obligations.OtherRenderRequestsAreRefused := by
  intro s req rest hin hbad
  have hnot : ¬(RequestsRender s.cfg.raw.quantum req ∧ s.TakesRequest) := by
    rintro ⟨⟨hlt, hq⟩, hidle, hreset⟩
    rcases hbad with hne | hge | hp | hr
    · exact hne hq
    · exact hge.not_gt hlt
    · exact hp hidle
    · exact Bool.false_ne_true (hreset.symm.trans hr)
  rcases hin with hin | hin <;> rw [step_of_inputs hin]
  · exact serve_request_refused hnot
  · exact serve_renderBegin_refused hnot

end Sys2Proof.Machine
end

section
/-! Proofs: the frame of RENDER and the voices it leaves (47_render.md R270, R272; 42_voicebank.md R156). -/

namespace Sys2Proof.Machine

/-! ### The advance of a voice -/

/-- An advance writes the phase only. -/
theorem Voice.advance_frame (c : Config) (v : Voice) : v.advance c = { v with phase := (v.advance c).phase } := by
  unfold Voice.advance
  split <;> rfl

theorem Voice.advance_of_inactive (c : Config) {v : Voice} (h : v.active = false) : v.advance c = v := by
  simp [Voice.advance, h]

/-- Any number of advances write the phase only. -/
theorem Voice.iterate_advance_frame (c : Config) (n : Nat) (v : Voice) :
    (Voice.advance c)^[n] v = { v with phase := ((Voice.advance c)^[n] v).phase } := by
  induction n generalizing v with
  | zero => rfl
  | succ n ih => rw [Function.iterate_succ_apply, ih, Voice.advance_frame c v]

/-- Voices do not read one another when they advance. -/
theorem iterate_map_advance (c : Config) (n : Nat) (vs : List Voice) :
    (List.map (Voice.advance c))^[n] vs = vs.map (Voice.advance c)^[n] := by
  induction n generalizing vs with
  | zero => exact vs.map_id.symm
  | succ n ih => rw [Function.iterate_succ_apply, ih, List.map_map, Function.iterate_succ]

/-- The synthesis of `n` frames advances the voices `n` times. -/
theorem synthFrames_voices (T : Transc) (c : Config) (P : Vector ParamReg 12) (clock : Word) (n i : Nat) (vs : List Voice) :
    (synthFrames T c P clock n i vs).voices = (List.map (Voice.advance c))^[n] vs := by
  induction n generalizing i vs with
  | zero => rfl
  | succ n ih => exact ih (i + 1) _

/-! ### RENDER -/

theorem renderFinish_voices (T : Transc) (s : State) :
    (renderFinish T s).voices = (synthFrames T s.cfg s.params s.clock s.cfg.raw.quantum 0 s.voices).voices := rfl

/-- A RENDER that has a next state was taken, and is its drain and then its stages. -/
theorem exec_render_next {s t : State} (h : exec .render s = .next t) :
    s.TakesRequest ∧ t = renderFinish Config.transcendentals.toTransc (renderStart s) := by
  by_cases hm : s.TakesRequest
  · rw [exec_render hm.1 hm.2] at h
    injection h with h
    exact ⟨hm, h.symm⟩
  · rw [exec_render_refused hm] at h
    cases h

/-- Settles O19: the end of a RENDER keeps the control port's state and so does its drain; the synthesis writes the phases. -/
theorem renderLeavesControlState : Obligations.RenderLeavesControlState := by
  intro s t h
  obtain ⟨⟨hp, -⟩, rfl⟩ := exec_render_next h
  set T := Config.transcendentals.toTransc
  obtain ⟨hcfg, hcur, -, hrej, hres, hout, hin, hidx⟩ := renderFinish_frame T (renderStart s)
  have hvoices : (renderFinish T (renderStart s)).voices =
      (synthFrames T s.cfg (drain s).params s.clock s.cfg.raw.quantum 0 (drain s).voices).voices := by
    simp [renderFinish_voices]
  have hadv := hvoices.trans (synthFrames_voices ..)
  have hmap := hadv.trans (iterate_map_advance ..)
  refine ⟨hcfg.trans (drain_cfg s), hrej.trans (drain_rejects s), hres.trans (drain_inReset s),
    hout.trans (drain_controlOut s), hin.trans (drain_inputs s), hidx.trans (drain_freeIdx s), hp.symm, hcur,
    hvoices, hadv, ?_, fun i v hv hact => ?_⟩
  · rw [hmap, List.map_map]
    refine List.map_congr_left fun v _ => ?_
    rw [Function.comp_apply, Voice.iterate_advance_frame]
  · rw [hmap, List.getElem?_map, hv, Option.map_some, Function.iterate_fixed (Voice.advance_of_inactive _ hact)]

end Sys2Proof.Machine
end

section
/-! Proofs: a rejection, for each of its causes (60_exceptions.md R293). -/

namespace Sys2Proof.Machine

/-! ### A transfer that does not decode -/

/-- With RESET released a transfer is decoded and run. -/
theorem serve_transfer {s : State} (t : Transfer) (hr : s.inReset = false) : serve (.transfer t) s = serveTransfer t s := by
  simp [serve, hr]

theorem serve_transfer_of_rejected {s : State} {t : Transfer} {c : Code} (hr : s.inReset = false)
    (h : decode s.cfg.raw.quantum t = .error (.rejected c)) : serve (.transfer t) s = .next (s.reject c) := by
  simp only [serve_transfer t hr, serveTransfer, h]

/-! ### NOTEON's own checks (42_voicebank.md R151) -/

theorem freqOk_iff (f : F64) : freqOk f = true ↔ f.isFinite = true ∧ F64.lt F64.zero f = true := by
  simp [freqOk]

/-- A frequency that is no number, infinite, or 0 and below is not one that can be played. -/
theorem freqOk_eq_false {f : F64} (h : f.isNaN = true ∨ f.isInf = true ∨ F64.le f F64.zero = true) : freqOk f = false := by
  rw [← Bool.not_eq_true, freqOk_iff]
  rintro ⟨hfin, hpos⟩
  rcases h with hnan | hinf | hle
  · exact absurd hnan (by simp [F64.not_isNaN_of_isFinite hfin])
  · exact absurd hinf (by simp [F64.not_isInf_of_isFinite hfin])
  · exact absurd hpos (by simp [F64.not_lt_of_le hle])

theorem exec_noteon_of_bad (s : State) {f u : F64} (h : freqOk f = false ∨ u.isNaN = true) :
    exec (.noteon f u) s = .next (s.reject .badNote) := by
  rcases h with hf | hu
  · simp [exec, execNoteon, hf]
  · simp [exec, execNoteon, hu]

theorem exec_noteon_of_ok (s : State) {f u : F64} (hf : freqOk f = true) (hu : u.isNaN = false) :
    exec (.noteon f u) s = .next (s.offer (.noteon f u)) := by
  simp [exec, execNoteon, hf, hu]

/-! ### The space check (R291) -/

theorem exec_paramK (s : State) (id : ParamId) (x : F64) : exec (.paramK id x) s = .next (s.offer (.paramK id x)) := rfl

theorem exec_paramA (s : State) (id : ParamId) (xs : List F64) :
    exec (.paramA id xs) s = .next (s.offer (.paramA id xs)) := rfl

theorem State.offer_of_full {s : State} {p : Queued} (h : s.cfg.raw.qcap < s.occupied + p.size) :
    s.offer p = s.reject .full := if_pos h

/-- Settles O8: every cause ends in `reject`, which writes REJECTS and the answer alone. -/
theorem rejectionRecordsOnlyRejects : Obligations.RejectionRecordsOnlyRejects := by
  refine ⟨fun s words rest c hr hin hdec => ?malformed, fun s f u hbad => ?badNote, fun s f u hf hu hfull => ?fullNoteon,
    fun s id x hfull => ?fullParamK, fun s id xs hfull => ?fullParamA⟩
  case malformed =>
    exact (step_of_inputs hin).trans (serve_transfer_of_rejected (s := s.pop rest) hr hdec)
  case badNote =>
    have hcauses : (f.isNaN = true ∨ f.isInf = true ∨ F64.le f F64.zero = true) ∨ u.isNaN = true := by
      rwa [or_assoc, or_assoc]
    exact exec_noteon_of_bad s (hcauses.imp_left freqOk_eq_false)
  case fullNoteon =>
    rw [exec_noteon_of_ok s hf hu, State.offer_of_full hfull]
    rfl
  case fullParamK =>
    rw [exec_paramK, State.offer_of_full hfull]
    rfl
  case fullParamA =>
    rw [exec_paramA, State.offer_of_full hfull]
    rfl

end Sys2Proof.Machine
end

section
/-! Proofs: the encoding (30_encoding.md R100 to R108). The checks of a header are said once, in the numbers that its fields hold
(`headerFault_eq`). -/

namespace Sys2Proof

/-! ### The fields of a header as numbers -/

theorem Header.ofWord_op_toNat (w : Word) : (Header.ofWord w).op.toNat = w.toNat / 2 ^ 56 := by
  have := w.isLt
  simp only [Header.ofWord, BitVec.extractLsb'_toNat, Nat.shiftRight_eq_div_pow]
  omega

theorem Header.ofWord_idx_toNat (w : Word) : (Header.ofWord w).idx.toNat = w.toNat / 2 ^ 48 % 2 ^ 8 := by
  simp only [Header.ofWord, BitVec.extractLsb'_toNat, Nat.shiftRight_eq_div_pow]

theorem Header.ofWord_rsvd_toNat (w : Word) : (Header.ofWord w).rsvd.toNat = w.toNat / 2 ^ 32 % 2 ^ 16 := by
  simp only [Header.ofWord, BitVec.extractLsb'_toNat, Nat.shiftRight_eq_div_pow]

theorem Header.ofWord_len_toNat (w : Word) : (Header.ofWord w).len.toNat = w.toNat % 2 ^ 32 := by
  simp only [Header.ofWord, BitVec.extractLsb'_toNat, Nat.shiftRight_eq_div_pow, Nat.pow_zero, Nat.div_one]

theorem Header.op_eq_opNoteon (h : Header) : h.op = opNoteon ↔ h.op.toNat = 1 := (BitVec.toNat_inj (y := opNoteon)).symm
theorem Header.op_eq_opParam (h : Header) : h.op = opParam ↔ h.op.toNat = 2 := (BitVec.toNat_inj (y := opParam)).symm
theorem Header.op_eq_opDesc (h : Header) : h.op = opDesc ↔ h.op.toNat = 3 := (BitVec.toNat_inj (y := opDesc)).symm
theorem Header.op_eq_opStat (h : Header) : h.op = opStat ↔ h.op.toNat = 4 := (BitVec.toNat_inj (y := opStat)).symm

@[simp] theorem opNoteon_toNat : opNoteon.toNat = 1 := rfl
@[simp] theorem opParam_toNat : opParam.toNat = 2 := rfl
@[simp] theorem opDesc_toNat : opDesc.toNat = 3 := rfl
@[simp] theorem opStat_toNat : opStat.toNat = 4 := rfl

/-! ### The checks of a header (R105), one predicate for each code -/

/-- What BAD_OPCODE checks. -/
abbrev Header.OpOk (h : Header) : Prop := 1 ≤ h.op.toNat ∧ h.op.toNat ≤ 4

/-- What BAD_RESERVED checks. -/
abbrev Header.RsvdOk (h : Header) : Prop := h.rsvd.toNat = 0 ∧ (h.op.toNat = 1 → h.idx.toNat = 0)

/-- What BAD_LENGTH checks of a packet of `n` payload words. -/
abbrev Header.LenOk (q : Nat) (h : Header) (n : Nat) : Prop :=
  n = h.len.toNat ∧ (h.op.toNat = 1 → h.len.toNat = 2) ∧ (h.op.toNat = 2 → h.len.toNat = 1 ∨ h.len.toNat = q) ∧
    (3 ≤ h.op.toNat → h.len.toNat = 0)

/-- What BAD_INDEX checks. -/
abbrev Header.IdxOk (h : Header) : Prop :=
  (h.op.toNat = 2 ∨ h.op.toNat = 3 → h.idx.toNat ≤ 11) ∧ (h.op.toNat = 4 → h.idx.toNat ≤ 14)

/-- The nine checks are the four predicates, in the order of their codes. -/
theorem headerFault_eq (q : Nat) (h : Header) (n : Nat) :
    headerFault q h (1 + n) =
      if ¬h.OpOk then some .badOpcode
      else if ¬h.RsvdOk then some .badReserved
      else if ¬h.LenOk q n then some .badLength
      else if ¬h.IdxOk then some .badIndex
      else none := by
  have hrsvd : h.rsvd = 0 ↔ h.rsvd.toNat = 0 := (BitVec.toNat_inj (y := 0)).symm
  have hidx : h.idx = 0 ↔ h.idx.toNat = 0 := (BitVec.toNat_inj (y := 0)).symm
  have hlen0 : h.len = 0 ↔ h.len.toNat = 0 := (BitVec.toNat_inj (y := 0)).symm
  have hlen1 : h.len = 1 ↔ h.len.toNat = 1 := (BitVec.toNat_inj (y := 1)).symm
  have hlen2 : h.len = 2 ↔ h.len.toNat = 2 := (BitVec.toNat_inj (y := 2)).symm
  simp only [headerFault, ne_eq, h.op_eq_opNoteon, h.op_eq_opParam, h.op_eq_opDesc, h.op_eq_opStat, hrsvd, hidx, hlen0,
    hlen1, hlen2, ← ite_or]
  refine ite_congr (propext (by omega)) (fun _ => rfl) fun hop => ?_
  refine ite_congr (propext (by omega)) (fun _ => rfl) fun _ => ?_
  refine ite_congr (propext (by omega)) (fun _ => rfl) fun _ => ?_
  exact if_congr (by omega) rfl rfl

theorem ite_not_some_eq_none_iff {α : Type} (p : Prop) [Decidable p] (a : α) (o : Option α) :
    (if ¬p then some a else o) = none ↔ p ∧ o = none := by
  by_cases hp : p <;> simp [hp]

theorem headerFault_eq_none_iff {q : Nat} {h : Header} {n : Nat} :
    headerFault q h (1 + n) = none ↔ h.OpOk ∧ h.RsvdOk ∧ h.LenOk q n ∧ h.IdxOk := by
  rw [headerFault_eq, ite_not_some_eq_none_iff, ite_not_some_eq_none_iff, ite_not_some_eq_none_iff,
    ite_not_some_eq_none_iff, and_iff_left rfl]

/-! ### The instruction of a header that passes -/

theorem ParamId.exists_of_le {n : Nat} (h : n ≤ 11) : ∃ id : ParamId, ParamId.ofNat? n = some id ∧ id.toNat = n := by
  interval_cases n <;> exact ⟨_, rfl, rfl⟩

theorem StatReg.exists_of_le {n : Nat} (h : n ≤ 14) : ∃ r : StatReg, StatReg.ofNat? n = some r ∧ r.toNat = n := by
  interval_cases n <;> exact ⟨_, rfl, rfl⟩

theorem instrOf_noteon {h : Header} (hop : h.op.toNat = 1) (f v : Word) : instrOf h [f, v] = .ok (.noteon ⟨f⟩ ⟨v⟩) :=
  if_pos (h.op_eq_opNoteon.2 hop)

theorem instrOf_param {h : Header} {id : ParamId} (hop : h.op.toNat = 2) (hidx : ParamId.ofNat? h.idx.toNat = some id)
    (ws : List Word) : instrOf h ws = .ok (paramInstr id ws) := by
  simp [instrOf, h.op_eq_opNoteon, h.op_eq_opParam, hop, hidx]

theorem instrOf_desc {h : Header} {id : ParamId} (hop : h.op.toNat = 3) (hidx : ParamId.ofNat? h.idx.toNat = some id)
    (ws : List Word) : instrOf h ws = .ok (.desc id) := by
  simp [instrOf, h.op_eq_opNoteon, h.op_eq_opParam, h.op_eq_opDesc, hop, hidx]

theorem instrOf_stat {h : Header} {n : StatReg} (hop : h.op.toNat = 4) (hidx : StatReg.ofNat? h.idx.toNat = some n)
    (ws : List Word) : instrOf h ws = .ok (.stat n) := by
  simp [instrOf, h.op_eq_opNoteon, h.op_eq_opParam, h.op_eq_opDesc, hop, hidx]

/-- The form of a PARAM is the number of its values (R103). -/
theorem paramInstr_map_bits {xs : List F64} (id : ParamId) (h : xs.length ≠ 1) :
    paramInstr id (xs.map F64.bits) = .paramA id xs := by
  unfold paramInstr
  split
  · next w hw => exact absurd (by simpa using congrArg List.length hw) h
  · simp [List.map_map, Function.comp_def]

/-! ### Decoding a packet -/

theorem decode_of_headerFault {q : Nat} {hdr : Word} {ws : List Word} {c : Code}
    (h : headerFault q (Header.ofWord hdr) (1 + ws.length) = some c) :
    decode q (.control (hdr :: ws)) = .error (.rejected c) := by
  simp only [decode, decodePacket, h]

theorem decode_of_instrOf {q : Nat} {hdr : Word} {ws : List Word} {i : Instr}
    (h : headerFault q (Header.ofWord hdr) (1 + ws.length) = none) (hi : instrOf (Header.ofWord hdr) ws = .ok i) :
    decode q (.control (hdr :: ws)) = .ok i := by
  simp only [decode, decodePacket, h, hi]

/-- A packet that decodes passed the checks. -/
theorem decode_control_ok {q : Nat} {hdr : Word} {ws : List Word} {i : Instr} (h : decode q (.control (hdr :: ws)) = .ok i) :
    headerFault q (Header.ofWord hdr) (1 + ws.length) = none ∧ instrOf (Header.ofWord hdr) ws = .ok i := by
  cases hf : headerFault q (Header.ofWord hdr) (1 + ws.length) with
  | some c => rw [decode_of_headerFault hf] at h; cases h
  | none =>
    cases hi : instrOf (Header.ofWord hdr) ws with
    | ok j => rw [decode_of_instrOf hf hi] at h; cases h; exact ⟨rfl, rfl⟩
    | error c => simp [decode, decodePacket, hf, hi] at h

/-- The header that the encoder gives a packet of `n` payload words. -/
def packetHeader (op : BitVec 8) (idx n : Nat) : Header := ⟨op, BitVec.ofNat 8 idx, 0, BitVec.ofNat 32 n⟩

theorem packet_eq (op : BitVec 8) (idx : Nat) (xs : List F64) :
    packet op idx xs = .control ((packetHeader op idx xs.length).toWord :: xs.map F64.bits) := rfl

@[simp] theorem packetHeader_op (op : BitVec 8) (idx n : Nat) : (packetHeader op idx n).op = op := rfl

theorem packetHeader_idx_toNat {idx : Nat} (op : BitVec 8) (n : Nat) (h : idx < 2 ^ 8) :
    (packetHeader op idx n).idx.toNat = idx := Nat.mod_eq_of_lt h

theorem packetHeader_len_toNat {n : Nat} (op : BitVec 8) (idx : Nat) (h : n < 2 ^ 32) :
    (packetHeader op idx n).len.toNat = n := Nat.mod_eq_of_lt h

/-- The encoder's header passes the checks if opcode, index and number of values fit one another. -/
theorem headerFault_packetHeader {q idx n : Nat} {op : BitVec 8} (hidx : idx < 2 ^ 8) (hn : n < 2 ^ 32)
    (hop : 1 ≤ op.toNat ∧ op.toNat ≤ 4) (hnote : op.toNat = 1 → idx = 0 ∧ n = 2)
    (hparam : op.toNat = 2 → idx ≤ 11 ∧ (n = 1 ∨ n = q)) (hdesc : op.toNat = 3 → idx ≤ 11 ∧ n = 0)
    (hstat : op.toNat = 4 → idx ≤ 14 ∧ n = 0) : headerFault q (packetHeader op idx n) (1 + n) = none := by
  have hrsvd : (packetHeader op idx n).rsvd.toNat = 0 := rfl
  simp only [headerFault_eq_none_iff, Header.OpOk, Header.RsvdOk, Header.LenOk, Header.IdxOk, packetHeader_op,
    packetHeader_idx_toNat op n hidx, packetHeader_len_toNat op idx hn, hrsvd]
  refine ⟨hop, ⟨trivial, fun h => (hnote h).1⟩, ⟨trivial, fun h => (hnote h).2, fun h => (hparam h).2, fun h => ?_⟩,
    fun h => ?_, fun h => (hstat h).1⟩ <;> omega

/-- A packet of the encoder decodes to what its header says, if that passes the checks. -/
theorem decode_packet {q idx : Nat} {op : BitVec 8} {xs : List F64} {i : Instr}
    (hok : headerFault q (packetHeader op idx xs.length) (1 + xs.length) = none)
    (hi : instrOf (packetHeader op idx xs.length) (xs.map F64.bits) = .ok i) : decode q (packet op idx xs) = .ok i := by
  rw [packet_eq]
  refine decode_of_instrOf ?_ ?_
  · rwa [Header.ofWord_toWord, List.length_map]
  · rwa [Header.ofWord_toWord]

/-- The encoder's packet for the fields of a header is the packet that the header heads. -/
theorem packet_of_fields {op : BitVec 8} {idx : Nat} {hdr : Word} {ws : List Word} (hop : (Header.ofWord hdr).op = op)
    (hidx : (Header.ofWord hdr).idx.toNat = idx) (hrsvd : (Header.ofWord hdr).rsvd.toNat = 0)
    (hlen : ws.length = (Header.ofWord hdr).len.toNat) : packet op idx (ws.map F64.mk) = .control (hdr :: ws) := by
  have hh : packetHeader op idx ws.length = Header.ofWord hdr := by
    have hr : (Header.ofWord hdr).rsvd = 0 := BitVec.eq_of_toNat_eq hrsvd
    generalize Header.ofWord hdr = h at *
    subst hop hidx
    simp [packetHeader, hlen, ← hr]
  rw [packet_eq, List.length_map, hh, Header.toWord_ofWord]
  simp [Function.comp_def]

theorem ParamId.toNat_lt (id : ParamId) : id.toNat < 2 ^ 8 := id.toNat_le.trans_lt (by decide)

theorem StatReg.toNat_lt (n : StatReg) : n.toNat < 2 ^ 8 := n.toNat_le.trans_lt (by decide)

theorem decode_packet_param {q : Nat} (id : ParamId) {xs : List F64} (h : xs.length = 1 ∨ xs.length = q)
    (hlt : xs.length < 2 ^ 32) : decode q (packet opParam id.toNat xs) = .ok (paramInstr id (xs.map F64.bits)) := by
  refine decode_packet (headerFault_packetHeader id.toNat_lt hlt ?_ ?_ ?_ ?_ ?_) (instrOf_param rfl ?_ _)
  case refine_6 => rw [packetHeader_idx_toNat _ _ id.toNat_lt, ParamId.ofNat?_toNat]
  all_goals simp [id.toNat_le, h]

theorem decode_packet_desc (q : Nat) (id : ParamId) : decode q (packet opDesc id.toNat []) = .ok (.desc id) := by
  refine decode_packet (headerFault_packetHeader id.toNat_lt ?_ ?_ ?_ ?_ ?_ ?_) (instrOf_desc rfl ?_ _)
  case refine_7 => rw [packetHeader_idx_toNat _ _ id.toNat_lt, ParamId.ofNat?_toNat]
  all_goals simp [id.toNat_le]

theorem decode_packet_stat (q : Nat) (n : StatReg) : decode q (packet opStat n.toNat []) = .ok (.stat n) := by
  refine decode_packet (headerFault_packetHeader n.toNat_lt ?_ ?_ ?_ ?_ ?_ ?_) (instrOf_stat rfl ?_ _)
  case refine_7 => rw [packetHeader_idx_toNat _ _ n.toNat_lt, StatReg.ofNat?_toNat]
  all_goals simp [n.toNat_le]

theorem decode_packet_noteon (q : Nat) (f v : F64) : decode q (packet opNoteon 0 [f, v]) = .ok (.noteon f v) := by
  refine decode_packet (headerFault_packetHeader ?_ ?_ ?_ ?_ ?_ ?_ ?_) (instrOf_noteon rfl _ _)
  all_goals simp

theorem decode_request {q : Nat} (h : q < 2 ^ 32) : decode q (.request (BitVec.ofNat 64 q)) = .ok .render := by
  have hword : (BitVec.ofNat 64 q).toNat = q := by
    rw [BitVec.toNat_ofNat]
    omega
  have hreq : RequestsRender q (BitVec.ofNat 64 q) := ⟨hword.symm ▸ h, hword⟩
  simp only [decode, decodeRequest_eq, if_pos hreq]

/-- Settles O1: the encoder's header passes every check, and its fields and the payload are the instruction's operands. -/
theorem decodeEncodeAgree : Obligations.DecodeEncodeAgree := by
  intro q i hwf
  cases i with
  | noteon f v => exact decode_packet_noteon q f v
  | paramK id x => exact decode_packet_param id (.inl rfl) (by simp)
  | paramA id xs =>
    simp only [Instr.wf, Bool.and_eq_true, decide_eq_true_eq] at hwf
    obtain ⟨⟨hq, hne⟩, hlt⟩ := hwf
    have h := decode_packet_param id (.inr hq) hlt
    rwa [paramInstr_map_bits id hne] at h
  | desc id => exact decode_packet_desc q id
  | stat n => exact decode_packet_stat q n
  | render => exact decode_request (of_decide_eq_true hwf)

/-! ### A packet that decodes, and one that does not -/

/-- A passing header's instruction, the packet it heads, and that it is well formed. -/
theorem encode_instrOf {q : Nat} {hdr : Word} {ws : List Word} {i : Instr}
    (hok : headerFault q (Header.ofWord hdr) (1 + ws.length) = none) (hi : instrOf (Header.ofWord hdr) ws = .ok i) :
    i.wf q = true ∧ encode q i = .control (hdr :: ws) := by
  obtain ⟨⟨h1, h4⟩, ⟨hrsvd, hidx0⟩, ⟨hlen, hlen1, hlen2, hlen3⟩, hidx, hidx4⟩ := headerFault_eq_none_iff.1 hok
  have hpacket := fun op idx (hop : (Header.ofWord hdr).op = op) (hi : (Header.ofWord hdr).idx.toNat = idx) =>
    packet_of_fields hop hi hrsvd hlen
  obtain hop | hop | hop | hop : (Header.ofWord hdr).op.toNat = 1 ∨ (Header.ofWord hdr).op.toNat = 2 ∨
    (Header.ofWord hdr).op.toNat = 3 ∨ (Header.ofWord hdr).op.toNat = 4 := by omega
  · obtain ⟨f, v, rfl⟩ := List.length_eq_two.1 (hlen.trans (hlen1 hop))
    rw [instrOf_noteon hop] at hi
    cases hi
    exact ⟨rfl, hpacket _ _ ((Header.op_eq_opNoteon _).2 hop) (hidx0 hop)⟩
  · obtain ⟨id, hid, hn⟩ := ParamId.exists_of_le (hidx (.inl hop))
    rw [instrOf_param hop hid] at hi
    cases hi
    have hp := hpacket _ _ ((Header.op_eq_opParam _).2 hop) hn.symm
    unfold paramInstr
    split
    · exact ⟨rfl, hp⟩
    · next hne =>
      have hne1 : ws.length ≠ 1 := fun h => by
        obtain ⟨w, rfl⟩ := List.length_eq_one_iff.1 h
        exact hne w rfl
      have hlt := (Header.ofWord hdr).len.isLt
      have hq := hlen2 hop
      refine ⟨?_, hp⟩
      simp only [Instr.wf, List.length_map, Bool.and_eq_true, decide_eq_true_eq]
      omega
  · obtain ⟨id, hid, hn⟩ := ParamId.exists_of_le (hidx (.inr hop))
    obtain rfl := List.length_eq_zero_iff.1 (hlen.trans (hlen3 hop.ge))
    rw [instrOf_desc hop hid] at hi
    cases hi
    exact ⟨rfl, hpacket _ _ ((Header.op_eq_opDesc _).2 hop) hn.symm⟩
  · obtain ⟨n, hid, hn⟩ := StatReg.exists_of_le (hidx4 hop)
    obtain rfl := List.length_eq_zero_iff.1 (hlen.trans (hlen3 (by omega)))
    rw [instrOf_stat hop hid] at hi
    cases hi
    exact ⟨rfl, hpacket _ _ ((Header.op_eq_opStat _).2 hop) hn.symm⟩

/-- A request word that decodes is QUANTUM in 32 bits. -/
theorem encode_of_decode_request {q : Nat} {w : Word} {i : Instr} (h : decode q (.request w) = .ok i) :
    i.wf q = true ∧ encode q i = .request w := by
  simp only [decode, decodeRequest_eq] at h
  by_cases hw : RequestsRender q w
  · rw [if_pos hw] at h
    cases h
    obtain ⟨hlt, rfl⟩ := hw
    exact ⟨decide_eq_true hlt, by simp [encode]⟩
  · rw [if_neg hw] at h
    cases h

/-- Settles O2: a packet that decodes passed the checks, which fix its header's fields; a request that decodes is the one word. -/
theorem decodedTransfersAreEncodings : Obligations.DecodedTransfersAreEncodings := by
  intro q t i h
  match t with
  | .request w => exact encode_of_decode_request h
  | .control [] => cases h
  | .control (hdr :: ws) =>
    obtain ⟨hok, hi⟩ := decode_control_ok h
    exact encode_instrOf hok hi

/-- A header that passes every check has an instruction. -/
theorem exists_instrOf {q : Nat} {h : Header} {ws : List Word} (hok : headerFault q h (1 + ws.length) = none) :
    ∃ i, instrOf h ws = .ok i := by
  obtain ⟨⟨h1, h4⟩, -, ⟨hlen, hlen1, -, -⟩, hidx, hidx4⟩ := headerFault_eq_none_iff.1 hok
  obtain hop | hop | hop | hop : h.op.toNat = 1 ∨ h.op.toNat = 2 ∨ h.op.toNat = 3 ∨ h.op.toNat = 4 := by omega
  · obtain ⟨f, v, rfl⟩ := List.length_eq_two.1 (hlen.trans (hlen1 hop))
    exact ⟨_, instrOf_noteon hop f v⟩
  · obtain ⟨id, hid, -⟩ := ParamId.exists_of_le (hidx (.inl hop))
    exact ⟨_, instrOf_param hop hid ws⟩
  · obtain ⟨id, hid, -⟩ := ParamId.exists_of_le (hidx (.inr hop))
    exact ⟨_, instrOf_desc hop hid ws⟩
  · obtain ⟨n, hid, -⟩ := StatReg.exists_of_le (hidx4 hop)
    exact ⟨_, instrOf_stat hop hid ws⟩

/-- Settles O4: the clauses are the four predicates on the fields, in the order in which the checks are made. -/
theorem malformedPacketCodes : Obligations.MalformedPacketCodes := by
  intro q hdr ws op idx rsvd len opOk rsvdOk lenOk idxOk d
  have hfault := headerFault_eq q (Header.ofWord hdr) ws.length
  simp only [Header.OpOk, Header.RsvdOk, Header.LenOk, Header.IdxOk, Header.ofWord_op_toNat, Header.ofWord_idx_toNat,
    Header.ofWord_rsvd_toNat, Header.ofWord_len_toNat] at hfault
  refine ⟨fun h1 => ?_, fun h1 h2 => ?_, fun h1 h2 h3 => ?_, fun h1 h2 h3 h4 => ?_, fun h1 h2 h3 h4 => ?_⟩
  · rw [if_pos h1] at hfault
    exact decode_of_headerFault hfault
  · rw [if_neg (not_not.2 h1), if_pos h2] at hfault
    exact decode_of_headerFault hfault
  · rw [if_neg (not_not.2 h1), if_neg (not_not.2 h2), if_pos h3] at hfault
    exact decode_of_headerFault hfault
  · rw [if_neg (not_not.2 h1), if_neg (not_not.2 h2), if_neg (not_not.2 h3), if_pos h4] at hfault
    exact decode_of_headerFault hfault
  · rw [if_neg (not_not.2 h1), if_neg (not_not.2 h2), if_neg (not_not.2 h3), if_neg (not_not.2 h4)] at hfault
    obtain ⟨i, hi⟩ := exists_instrOf hfault
    exact ⟨i, decode_of_instrOf hfault hi⟩

/-- Settles O3: the decoder computes each of the words written out. -/
theorem specWordsDecode : Obligations.SpecWordsDecode := by
  unfold Obligations.SpecWordsDecode
  decide +kernel

/-- Settles O5: the result word is the code's number, zero-extended. -/
theorem resultCodeNumbers : Obligations.ResultCodeNumbers := by
  unfold Obligations.ResultCodeNumbers
  decide

end Sys2Proof
end

section
/-! Proofs: what each event does to the state (20_memory.md R71 to R81, 60_exceptions.md R299, R302), and the control port. -/

namespace Sys2Proof.Machine

/-! ### The commands of the control port -/

/-- What a command of the control port may write: the queue, REJECTS and the answer (60_exceptions.md R299). -/
abbrev ControlWrites (s t : State) : Prop := t = { s with cq := t.cq, rejects := t.rejects, controlOut := t.controlOut }

theorem State.offer_controlWrites (s : State) (p : Queued) : ControlWrites s (s.offer p) := by
  rcases s.offer_cases p with ⟨_, h⟩ | ⟨_, h⟩ <;> rw [h] <;> rfl

theorem exec_controlWrites {s t : State} {i : Instr} (hi : i ≠ .render) (h : exec i s = .next t) : ControlWrites s t := by
  cases i with
  | noteon f u =>
    injection h with h
    subst h
    split
    · split
      · rfl
      · exact s.offer_controlWrites _
    · rfl
  | paramK id x => injection h with h; subst h; exact s.offer_controlWrites _
  | paramA id xs => injection h with h; subst h; exact s.offer_controlWrites _
  | desc id => injection h with h; subst h; rfl
  | stat n => injection h with h; subst h; rfl
  | render => exact absurd rfl hi

/-- A packet is no render request. -/
theorem ne_render_of_decode_control {q : Nat} {ws : List Word} {i : Instr} (h : decode q (.control ws) = .ok i) :
    i ≠ .render := by
  rintro rfl
  have he := (decodedTransfersAreEncodings q _ _ h).2
  cases he

/-! ### The events, one by one -/

/-- The EXP, ATAN, LN and POW that the machine renders with. -/
abbrev theTransc : Transc := Config.transcendentals.toTransc

theorem serve_control_next {s t : State} {ws : List Word} (h : serve (.transfer (.control ws)) s = .next t) :
    ControlWrites s t := by
  cases hr : s.inReset with
  | true =>
    have hs : serve (.transfer (.control ws)) s = .next { s with controlOut := none } := if_pos hr
    rw [hs] at h
    injection h with h
    subst h
    rfl
  | false =>
    rw [serve_transfer _ hr, serveTransfer] at h
    split at h
    · next i hi => exact exec_controlWrites (ne_render_of_decode_control hi) h
    · injection h with h; subst h; rfl
    · cases h
    · cases h

theorem serve_request_next {s t : State} {req : Word} (h : serve (.transfer (.request req)) s = .next t) :
    s.TakesRequest ∧ t = renderFinish theTransc (renderStart s) := by
  rw [serve_request] at h
  split_ifs at h
  exact exec_render_next h

theorem serve_renderBegin_next {s t : State} {req : Word} (h : serve (.renderBegin req) s = .next t) :
    s.TakesRequest ∧ t = renderStart s := by
  rw [serve_renderBegin] at h
  split_ifs at h with _ hm
  injection h with h
  exact ⟨hm, h.symm⟩

theorem serve_drainEnd_next {s t : State} (h : serve .drainEnd s = .next t) :
    (∃ n, s.phase = .draining n) ∧ t = { s with phase := .rendering } := by
  simp only [serve, endDrain] at h
  split at h
  · next n hp => injection h with h; exact ⟨⟨n, hp⟩, h.symm⟩
  · cases h
  · cases h

theorem serve_renderEnd_next {s t : State} (h : serve .renderEnd s = .next t) :
    s.phase ≠ .idle ∧ t = renderFinish theTransc s := by
  simp only [serve, endRender] at h
  split at h
  · cases h
  · next n hp => injection h with h; exact ⟨by simp [hp], h.symm⟩
  · next hp => injection h with h; exact ⟨by simp [hp], h.symm⟩

theorem serve_resetLevel_true (s : State) :
    serve (.resetLevel true) s =
      if s.phase = .idle then .next { s with inReset := true } else .refused .resetDuringRender := rfl

theorem serve_resetLevel_true_next {s t : State} (h : serve (.resetLevel true) s = .next t) :
    s.phase = .idle ∧ t = { s with inReset := true } := by
  rw [serve_resetLevel_true] at h
  split_ifs at h with hp
  injection h with h
  exact ⟨hp, h.symm⟩

theorem serve_resetLevel_false (s : State) :
    serve (.resetLevel false) s = .next (if s.inReset then s.resetAll else s) := rfl

/-! ### Steps with no effect on the CORE beyond the event's -/

/-- Settles O6: the event is taken, and RESET being released the transfer is decoded and run. -/
theorem stepRunsDecodedInstruction : Obligations.StepRunsDecodedInstruction := by
  intro s t rest i hr hin hdec
  have hdec' : decode (s.pop rest).cfg.raw.quantum t = .ok i := hdec
  rw [step_of_inputs hin, serve_transfer t (show (s.pop rest).inReset = false from hr), serveTransfer, hdec']
  rfl

/-- Settles O7: with no event the step is the identity. -/
theorem idleKeepsState : Obligations.IdleKeepsState := by
  intro s hin
  simp [step, hin]

theorem State.offer_of_room {s : State} {p : Queued} (h : s.occupied + p.size ≤ s.cfg.raw.qcap) :
    s.offer p = (s.append p).reply .accepted [] := if_neg h.not_gt

/-- Settles O9: the note passes its own checks and the space check. -/
theorem noteonIsQueued : Obligations.NoteonIsQueued := by
  intro s f u hf hpos hu hroom
  rw [exec_noteon_of_ok s ((freqOk_iff f).2 ⟨hf, hpos⟩) hu, State.offer_of_room hroom]
  rfl

/-- Settles O10: a k-rate PARAM passes the space check, the only one it has. -/
theorem paramKIsQueued : Obligations.ParamKIsQueued := by
  intro s id x hroom
  rw [exec_paramK, State.offer_of_room hroom]
  rfl

/-- Settles O11: an a-rate PARAM passes the space check, the only one it has. -/
theorem paramAIsQueued : Obligations.ParamAIsQueued := by
  intro s id xs hroom
  rw [exec_paramA, State.offer_of_room hroom]
  rfl

/-- Settles O12: the answer is the row of the parameter table. -/
theorem descAnswersDescriptor : Obligations.DescAnswersDescriptor := fun _ _ => rfl

/-- Settles O13: each register's answer is the one STAT looks up. -/
theorem statAnswersRegister : Obligations.StatAnswersRegister := by
  intro s answers
  refine ⟨?_, ?_, ?_, ?_, ?_, ?_, ?_, ?_, ?_, ?_, ?_, ?_, ?_, ?_, ?_⟩ <;> rfl

/-- Settles O14: a command writes the queue, REJECTS and the answer, so every field named here is kept. -/
theorem controlCommandsLeaveRenderState : Obligations.ControlCommandsLeaveRenderState := by
  intro s t i hi h
  rw [exec_controlWrites hi h]
  simp

/-! ### The drain -/

theorem applyQueued_set_cq (s : State) (p : Queued) (ps : List Queued) :
    applyQueued { s with cq := ps } p = { applyQueued s p with cq := ps } := by
  cases p <;> rfl

theorem foldl_applyQueued_set_cq (qs : List Queued) (s : State) (ps : List Queued) :
    qs.foldl applyQueued { s with cq := ps } = { qs.foldl applyQueued s with cq := ps } := by
  induction qs generalizing s with
  | nil => rfl
  | cons q qs ih => rw [List.foldl_cons, applyQueued_set_cq, ih, List.foldl_cons]

/-- Settles O21: a packet's drain part does not read the queue, so the head may be applied before the rest is queued. -/
theorem drainAppliesInOrder : Obligations.DrainAppliesInOrder := by
  intro s p ps hq
  simp only [drain, hq, List.foldl_cons, applyQueued_set_cq, foldl_applyQueued_set_cq]

/-- The drain of a queue of one packet is that packet's drain part. -/
theorem drain_singleton {s : State} {p : Queued} (h : s.cq = [p]) : drain s = { applyQueued s p with cq := [] } := by
  simp only [drain, h, List.foldl_cons, List.foldl_nil]

theorem drain_singleton_param {s : State} {p : Queued} (h : s.cq = [p]) (id : ParamId) :
    (drain s).param id = (applyQueued s p).param id := by
  rw [drain_singleton h]
  rfl

theorem applyQueued_paramK_param (s : State) (id other : ParamId) (x : F64) :
    (applyQueued s (.paramK id x)).param other =
      if other = id then ⟨.k, id.norm s.cfg x, (s.param id).arr⟩ else s.param other := s.setParam_param id other _

theorem applyQueued_paramA_param (s : State) (id other : ParamId) (xs : List F64) :
    (applyQueued s (.paramA id xs)).param other =
      if other = id then ⟨.a, (s.param id).kval, xs.map (id.norm s.cfg)⟩ else s.param other := s.setParam_param id other _

/-- Settles O23: the write of one register, which the other registers' reads do not see. -/
theorem drainedParamKWrites : Obligations.DrainedParamKWrites := by
  intro s id x hq
  refine ⟨by rw [drain_singleton hq]; rfl, ?_, fun other hne => ?_⟩
  · rw [drain_singleton_param hq, applyQueued_paramK_param, if_pos rfl]
  · rw [drain_singleton_param hq, applyQueued_paramK_param, if_neg hne]

/-- Settles O24: the write of one register, which the other registers' reads do not see. -/
theorem drainedParamAWrites : Obligations.DrainedParamAWrites := by
  intro s id xs hq
  refine ⟨by rw [drain_singleton hq]; rfl, ?_, fun other hne => ?_⟩
  · rw [drain_singleton_param hq, applyQueued_paramA_param, if_pos rfl]
  · rw [drain_singleton_param hq, applyQueued_paramA_param, if_neg hne]

/-! ### QUSED, RESET and the configuration -/

/-- Settles O40: the bounds of the two reads of the queue, and QCAP's of what they lie between. -/
theorem queueReadBounds : Obligations.QueueReadBounds := by
  intro s words
  obtain ⟨hq, hqd⟩ := s.qused_bounds
  obtain ⟨hlo, hhi, hcap⟩ := s.occupied_bounds
  refine ⟨fun h => ?_, fun n h => ?_, fun ⟨h1, h2, _⟩ => ?_⟩
  · have hno : (∀ n, s.phase ≠ .draining n) ∧ s.phase.removing = 0 := by rcases h with h | h <;> simp [h]
    rw [hno.2] at hhi
    exact ⟨hq hno.1, Nat.le_antisymm hhi hlo⟩
  · rw [h] at hhi
    exact ⟨(hqd n h).1, (hqd n h).2, hlo, hhi⟩
  · refine ⟨?_, hcap h1⟩
    cases hp : s.phase with
    | draining n =>
      rw [hp] at h2
      exact (hqd n hp).2.trans (max_le h2 h1)
    | idle => exact (hq (by simp [hp])).trans_le h1
    | rendering => exact (hq (by simp [hp])).trans_le h1

theorem State.ofConfig_param (c : Config) (id : ParamId) : (State.ofConfig c).param id = State.resetParam c id := by
  simp [State.ofConfig, State.param]

/-- Settles O41: the released input leaves the reset state, whose fields are the values listed. -/
theorem resetRestoresEveryValue : Obligations.ResetRestoresEveryValue := by
  intro s rest hin hr
  have hr' : (s.pop rest).inReset = true := hr
  refine ⟨(s.pop rest).resetAll, ?_, rfl, rfl, rfl, rfl, rfl, rfl, rfl, ?_, rfl, rfl, rfl, fun _ => rfl, rfl, rfl, rfl, rfl⟩
  · rw [step_of_inputs hin, serve_resetLevel_false, if_pos hr']
  · exact State.ofConfig_param s.cfg

/-- Settles O42: RESET is looked at before a transfer, and the phase before RESET is asserted. -/
theorem assertedResetServesNothing : Obligations.AssertedResetServesNothing := by
  refine ⟨fun s words rest hin hr => ?_, fun s rest hin hp => ?_, fun s rest hin hp => ?_⟩ <;> rw [step_of_inputs hin]
  · exact if_pos hr
  · exact if_neg hp
  · exact if_pos hp

/-- Settles O35: no event writes the configuration. -/
theorem configurationNeverChanges : Obligations.ConfigurationNeverChanges := by
  intro s t h
  refine step_induction (fun u => u.cfg = s.cfg) h rfl (fun _ _ hu => hu) fun u v hu hv => ?_
  cases hv with
  | rendered | began => exact (drain_cfg u).trans hu
  | _ => exact hu

/-- Settles O39: but for the events excepted, an event writes no render-committed register. -/
theorem committedRegistersChangeAtRenderEnd : Obligations.CommittedRegistersChangeAtRenderEnd := by
  intro s t e rest hin h hreq hend hrel
  rw [step_of_inputs hin] at h
  match e with
  | .transfer (.control ws) => rw [serve_control_next h, State.pop_csr]
  | .transfer (.request w) => exact absurd rfl (hreq w)
  | .renderBegin req => rw [(serve_renderBegin_next h).2]; exact drain_csr _
  | .drainEnd => rw [(serve_drainEnd_next h).2]; rfl
  | .renderEnd => exact absurd rfl hend
  | .resetLevel true => rw [(serve_resetLevel_true_next h).2]; rfl
  | .resetLevel false => exact absurd rfl hrel

/-! ### Overlap of the control port with a RENDER -/

/-- What a control transaction writes, the end of a RENDER neither reads nor writes. -/
theorem renderFinish_of_controlWrites (T : Transc) {s t : State} (h : ControlWrites s t) :
    renderFinish T t = { renderFinish T s with cq := t.cq, rejects := t.rejects, controlOut := t.controlOut } := by
  rw [h]
  rfl

/-- Settles O37: after the drain the events but the RENDER's end are a control transaction, the end of the drain, which has
passed, and what is refused; and what a control transaction writes the stages do not read. -/
theorem overlapLeavesRenderOutput : Obligations.OverlapLeavesRenderOutput := by
  refine ⟨fun s t e rest hp hr hin hend h => ?_, fun T s t ws h => renderFinish_of_controlWrites T (serve_control_next h)⟩
  rw [step_of_inputs hin] at h
  have hbusy : (s.pop rest).phase ≠ .idle := by simp [hp]
  match e with
  | .transfer (.control ws) =>
    rw [serve_control_next h]
    simp
  | .transfer (.request w) => exact absurd (serve_request_next h).1.1 hbusy
  | .renderBegin req => exact absurd (serve_renderBegin_next h).1.1 hbusy
  | .drainEnd =>
    obtain ⟨⟨n, hn⟩, -⟩ := serve_drainEnd_next h
    simp [hp] at hn
  | .renderEnd => exact absurd rfl hend
  | .resetLevel true => exact absurd (serve_resetLevel_true_next h).1 hbusy
  | .resetLevel false =>
    rw [serve_resetLevel_false, if_neg (by simp [hr])] at h
    injection h with h
    subst h
    simp

end Sys2Proof.Machine
end

section
/-! Proofs: the rounding and the operations that round with it (00_scope.md R9). -/

namespace Sys2Proof.F64

/-! ### The rounding -/

/-- The neighbours of the largest finite magnitude in units: half a unit in the last place above it is the overflow threshold. -/
theorem unitsOfMag_overflow : unitsOfMag (infMag - 1) + unitsOfMag (infMag - 1 + 1) = 2 * ((2 ^ 54 - 1) * 2 ^ 2044) := by
  have h1 := unitsOfMag_eq 2045 (2 ^ 53 - 1) (by decide) (.inr (by decide))
  have h2 := unitsOfMag_eq 2046 (2 ^ 52) (by decide) (.inr le_rfl)
  rw [show infMag - 1 + 1 = 2046 * 2 ^ 52 + 2 ^ 52 by decide, show infMag - 1 = 2045 * 2 ^ 52 + (2 ^ 53 - 1) by decide, h1, h2,
    pow_succ 2 2045, pow_succ 2 2044]
  generalize 2 ^ 2044 = ulp
  omega

theorem magOfRatio_eq_infMag_iff {num den : Nat} (hd : 0 < den) :
    magOfRatio num den = infMag ↔ (2 ^ 54 - 1) * 2 ^ 2044 * den ≤ num := by
  have hpast := lt_rawMag_iff num den (infMag - 1) hd
  have hodd : (infMag - 1) % 2 = 1 := by decide
  have hpos : 0 < infMag := by decide
  have hmul : 2 * ((2 ^ 54 - 1) * 2 ^ 2044) * den = 2 * ((2 ^ 54 - 1) * 2 ^ 2044 * den) := Nat.mul_assoc ..
  rw [unitsOfMag_overflow, hmul] at hpast
  rw [magOfRatio_eq_min]
  generalize (2 ^ 54 - 1) * 2 ^ 2044 * den = bound at *
  omega

/-- The distance in units, times `den`, of a magnitude from the exact value. -/
abbrev dist (num den m : Nat) : Nat := ((unitsOfMag m : Int) * den - num).natAbs

/-- Below the exact value, the nearer the larger. -/
theorem dist_lt_of_lt_of_le {num den a m : Nat} (hd : 0 < den) (ha : unitsOfMag a * den ≤ num) (h : m < a) :
    dist num den a < dist num den m := by
  have := Nat.mul_lt_mul_of_pos_right (unitsOfMag_strictMono h) hd
  simp only [dist, ← Nat.cast_mul]
  omega

/-- Above it, the nearer the smaller. -/
theorem dist_lt_of_gt_of_ge {num den b m : Nat} (hd : 0 < den) (hb : num ≤ unitsOfMag b * den) (h : b < m) :
    dist num den b < dist num den m := by
  have := Nat.mul_lt_mul_of_pos_right (unitsOfMag_strictMono h) hd
  simp only [dist, ← Nat.cast_mul]
  omega

/-- The rounding takes a nearest magnitude, and an even one if another is as near. -/
theorem rawMag_nearest {num den : Nat} (hd : 0 < den) (m : Nat) :
    dist num den (rawMag num den) ≤ dist num den m ∧
      (dist num den (rawMag num den) = dist num den m → m ≠ rawMag num den → rawMag num den % 2 = 0) := by
  obtain ⟨a, hlo, hhi, hraw⟩ := rawMag_spec num den hd
  have hbelow := fun (h : m < a) => dist_lt_of_lt_of_le hd hlo h
  have habove := fun (h : a + 1 < m) => dist_lt_of_gt_of_ge hd hhi.le h
  have hsum : (unitsOfMag a + unitsOfMag (a + 1)) * den = unitsOfMag a * den + unitsOfMag (a + 1) * den := Nat.add_mul ..
  have hda : dist num den a = num - unitsOfMag a * den := by
    simp only [dist, ← Nat.cast_mul]
    omega
  have hdb : dist num den (a + 1) = unitsOfMag (a + 1) * den - num := by
    simp only [dist, ← Nat.cast_mul]
    omega
  rw [hraw, hsum]
  obtain h | rfl | rfl | h : m < a ∨ m = a ∨ m = a + 1 ∨ a + 1 < m := by omega
  · have := hbelow h
    split <;> omega
  · split <;> omega
  · split <;> omega
  · have := habove h
    split <;> omega

/-! ### The operations -/

theorem sign_add_mag (x : F64) : x.bits.toNat = (if x.sign then 2 ^ 63 else 0) + x.mag := by
  have := x.bits.isLt
  simp only [sign, mag, decide_eq_true_eq]
  split <;> omega

theorem unitsOfMag_eq_ite (m : Nat) :
    unitsOfMag m = if m < 2 ^ 52 then m else (2 ^ 52 + m % 2 ^ 52) * 2 ^ (m / 2 ^ 52 - 1) := by
  unfold unitsOfMag
  by_cases h : m < 2 ^ 52
  · rw [if_pos h, if_pos (Nat.div_eq_of_lt h), Nat.mod_eq_of_lt h]
  · have : m / 2 ^ 52 ≠ 0 := by omega
    rw [if_neg h, if_neg this]

theorem add_finite_sign {x y : F64} (hx : x.isFinite = true) (hy : y.isFinite = true) :
    (x.add y).sign =
      if x.signedUnits + y.signedUnits = 0 then x.sign && y.sign else decide (x.signedUnits + y.signedUnits < 0) := by
  rw [add_finite hx hy]
  split
  · exact sign_mk' _ _ (by decide)
  · exact sign_mk' _ _ (magOfRatio_lt _ _)

theorem add_finite_mag {x y : F64} (hx : x.isFinite = true) (hy : y.isFinite = true) :
    (x.add y).mag = magOfRatio (x.signedUnits + y.signedUnits).natAbs 1 := by
  rw [add_finite hx hy]
  split
  · next h => rw [h, mag_mk' _ _ (by decide), Int.natAbs_zero, magOfRatio_zero]
  · exact mag_mk' _ _ (magOfRatio_lt _ _)

theorem mul_finite_sign {x y : F64} (hx : x.isFinite = true) (hy : y.isFinite = true) :
    (x.mul y).sign = (x.sign != y.sign) := by
  rw [mul_finite hx hy, sign_mk' _ _ (magOfRatio_lt _ _)]

theorem mul_finite_mag {x y : F64} (hx : x.isFinite = true) (hy : y.isFinite = true) :
    (x.mul y).mag = magOfRatio (x.units * y.units) unit := by
  rw [mul_finite hx hy, mag_mk' _ _ (magOfRatio_lt _ _)]

theorem div_finite_sign {x y : F64} (hx : x.isFinite = true) (hy : y.isFinite = true) (h : y.isZero = false) :
    (x.div y).sign = (x.sign != y.sign) := by
  rw [div_finite hx hy h, sign_mk' _ _ (magOfRatio_lt _ _)]

theorem div_finite_mag {x y : F64} (hx : x.isFinite = true) (hy : y.isFinite = true) (h : y.isZero = false) :
    (x.div y).mag = magOfRatio (x.units * unit) y.units := by
  rw [div_finite hx hy h, mag_mk' _ _ (magOfRatio_lt _ _)]

/-! ### The comparisons -/

theorem lt_finite {x y : F64} (hx : x.isFinite = true) (hy : y.isFinite = true) :
    lt x y = decide (x.signedUnits < y.signedUnits) := by
  simp [lt, not_isNaN_of_isFinite hx, not_isNaN_of_isFinite hy, key_lt_iff]

theorem le_finite {x y : F64} (hx : x.isFinite = true) (hy : y.isFinite = true) :
    le x y = decide (x.signedUnits ≤ y.signedUnits) := by
  have hk : x.key ≤ y.key ↔ x.signedUnits ≤ y.signedUnits := by
    have := key_lt_iff y x
    omega
  simp [le, not_isNaN_of_isFinite hx, not_isNaN_of_isFinite hy, hk]

theorem eq_finite {x y : F64} (hx : x.isFinite = true) (hy : y.isFinite = true) :
    eq x y = decide (x.signedUnits = y.signedUnits) := by
  have hk : x.key = y.key ↔ x.signedUnits = y.signedUnits := by
    have := key_lt_iff x y
    have := key_lt_iff y x
    omega
  simp [eq, not_isNaN_of_isFinite hx, not_isNaN_of_isFinite hy, hk]

/-! ### Operands that are not finite -/

theorem isNaN_add_of_isNaN {x y : F64} (h : x.isNaN = true ∨ y.isNaN = true) : (x.add y).isNaN = true := by
  have hor : (x.isNaN || y.isNaN) = true := by simpa using h
  rw [add, if_pos hor, nan_isNaN]

theorem isNaN_mul_of_isNaN {x y : F64} (h : x.isNaN = true ∨ y.isNaN = true) : (x.mul y).isNaN = true := by
  have hor : (x.isNaN || y.isNaN) = true := by simpa using h
  rw [mul, if_pos hor, nan_isNaN]

theorem isNaN_div_of_isNaN {x y : F64} (h : x.isNaN = true ∨ y.isNaN = true) : (x.div y).isNaN = true := by
  have hor : (x.isNaN || y.isNaN) = true := by simpa using h
  rw [div, if_pos hor, nan_isNaN]

theorem compare_of_isNaN {x y : F64} (h : x.isNaN = true ∨ y.isNaN = true) :
    lt x y = false ∧ le x y = false ∧ eq x y = false := by
  rcases h with h | h <;> simp [lt, le, eq, h]

/-- A zero magnitude is `isZero`, another is not. -/
theorem isZero_eq (x : F64) : x.isZero = decide (x.mag = 0) := rfl

theorem not_isZero_of_isInf {x : F64} (h : x.isInf = true) : x.isZero = false := by
  rw [isZero_eq, (isInf_iff x).1 h]
  decide

section
variable {x y : F64} (hx : x.isInf = true)
include hx

theorem add_isInf_isFinite (hy : y.isFinite = true) : x.add y = x := by
  simp [add, hx, not_isNaN_of_isInf hx, not_isNaN_of_isFinite hy, not_isInf_of_isFinite hy]

theorem add_isFinite_isInf (hy : y.isFinite = true) : y.add x = x := by
  simp [add, hx, not_isNaN_of_isInf hx, not_isNaN_of_isFinite hy, not_isInf_of_isFinite hy]

theorem add_isInf_isInf (hy : y.isInf = true) :
    (x.sign = y.sign → x.add y = x) ∧ (x.sign ≠ y.sign → (x.add y).isNaN = true) := by
  refine ⟨fun h => ?_, fun h => ?_⟩
  · simp [add, hx, hy, not_isNaN_of_isInf hx, not_isNaN_of_isInf hy, h]
  · simp [add, hx, hy, not_isNaN_of_isInf hx, not_isNaN_of_isInf hy, h]

/-- A product with an infinity: an infinity of the product's sign, but a NaN with a zero. -/
theorem mul_isInf (hy : y.isNaN = false) :
    (y.isZero = false → x.mul y = ofSignMag (x.sign != y.sign) infMag ∧ y.mul x = ofSignMag (y.sign != x.sign) infMag) ∧
    (y.isZero = true → (x.mul y).isNaN = true ∧ (y.mul x).isNaN = true) := by
  refine ⟨fun h => ⟨?_, ?_⟩, fun h => ⟨?_, ?_⟩⟩ <;>
    simp [mul, hx, hy, h, not_isNaN_of_isInf hx, not_isZero_of_isInf hx]

theorem div_isInf_isFinite (hy : y.isFinite = true) : x.div y = ofSignMag (x.sign != y.sign) infMag := by
  simp [div, hx, not_isNaN_of_isInf hx, not_isNaN_of_isFinite hy, not_isInf_of_isFinite hy]

theorem div_isFinite_isInf (hy : y.isFinite = true) : y.div x = ofSignMag (y.sign != x.sign) 0 := by
  simp [div, hx, not_isNaN_of_isInf hx, not_isNaN_of_isFinite hy, not_isInf_of_isFinite hy]

theorem div_isInf_isInf (hy : y.isInf = true) : (x.div y).isNaN = true := by
  simp [div, hx, hy, not_isNaN_of_isInf hx, not_isNaN_of_isInf hy]

/-- An infinity is beyond every finite value, on the side of its sign. -/
theorem lt_isInf_isFinite (hy : y.isFinite = true) : lt x y = x.sign ∧ lt y x = !x.sign := by
  cases hs : x.sign with
  | true =>
    have h := lt_of_isInf_of_sign hx hs hy
    exact ⟨h, F64.not_lt_of_le ((le_iff x y).2 (((lt_iff x y).1 h).imp_right (And.imp_right le_of_lt)))⟩
  | false =>
    have h := lt_of_isInf_of_not_sign hx hs hy
    exact ⟨F64.not_lt_of_le ((le_iff y x).2 (((lt_iff y x).1 h).imp_right (And.imp_right le_of_lt))), h⟩

end

theorem isInf_ofSignMag (s : Bool) : (ofSignMag s infMag).isInf = true := by
  rw [isInf_iff, mag_mk' _ _ infMag_lt]

/-- A finite value by a zero: a NaN for a zero, else an infinity. -/
theorem div_isFinite_isZero {x y : F64} (hx : x.isFinite = true) (hy : y.isZero = true) :
    (x.isZero = true → (x.div y).isNaN = true) ∧
    (x.isZero = false → x.div y = ofSignMag (x.sign != y.sign) infMag) := by
  have hyf := isFinite_of_isZero hy
  refine ⟨fun h => ?_, fun h => ?_⟩ <;>
    simp [div, hy, h, not_isNaN_of_isFinite hx, not_isInf_of_isFinite hx, not_isNaN_of_isFinite hyf, not_isInf_of_isFinite hyf]

/-! ### The statement, clause by clause -/

theorem finite_operations {x y : F64} (hx : x.isFinite = true) (hy : y.isFinite = true) :
    let sum := x.signedUnits + y.signedUnits
    let diff := x.signedUnits - y.signedUnits
    ((x.add y).sign = if sum = 0 then x.sign && y.sign else decide (sum < 0)) ∧
    (x.add y).mag = magOfRatio sum.natAbs 1 ∧
    ((x.sub y).sign = if diff = 0 then x.sign && !y.sign else decide (diff < 0)) ∧
    (x.sub y).mag = magOfRatio diff.natAbs 1 ∧
    (x.mul y).sign = (x.sign != y.sign) ∧
    (x.mul y).mag = magOfRatio (unitsOfMag x.mag * unitsOfMag y.mag) unit ∧
    (y.mag ≠ 0 →
      (x.div y).sign = (x.sign != y.sign) ∧ (x.div y).mag = magOfRatio (unitsOfMag x.mag * unit) (unitsOfMag y.mag)) ∧
    lt x y = decide (x.signedUnits < y.signedUnits) ∧
    le x y = decide (x.signedUnits ≤ y.signedUnits) ∧
    eq x y = decide (x.signedUnits = y.signedUnits) := by
  intro sum diff
  have hyn : y.neg.isFinite = true := by rwa [neg_isFinite]
  have hdiff : x.signedUnits + y.neg.signedUnits = diff := by rw [neg_signedUnits, ← Int.sub_eq_add_neg]
  refine ⟨add_finite_sign hx hy, add_finite_mag hx hy, ?_, ?_, mul_finite_sign hx hy, mul_finite_mag hx hy, fun h => ?_,
    lt_finite hx hy, le_finite hx hy, eq_finite hx hy⟩
  · rw [sub, add_finite_sign hx hyn, hdiff, neg_sign]
  · rw [sub, add_finite_mag hx hyn, hdiff]
  · have hy0 : y.isZero = false := decide_eq_false h
    exact ⟨div_finite_sign hx hy hy0, div_finite_mag hx hy hy0⟩

theorem inf_finite_operations {x y : F64} (hx : x.isInf = true) (hy : y.isFinite = true) :
    x.add y = x ∧ y.add x = x ∧ x.sub y = x ∧ y.sub x = x.neg ∧
      (y.mag ≠ 0 → (x.mul y).isInf = true ∧ (x.mul y).sign = (x.sign != y.sign) ∧
        (y.mul x).isInf = true ∧ (y.mul x).sign = (y.sign != x.sign)) ∧
      (y.mag = 0 → (x.mul y).isNaN = true ∧ (y.mul x).isNaN = true) ∧
      (x.div y).isInf = true ∧ (x.div y).sign = (x.sign != y.sign) ∧
      (y.div x).mag = 0 ∧ (y.div x).sign = (y.sign != x.sign) ∧
      lt x y = x.sign ∧ lt y x = !x.sign := by
  have hyn : y.neg.isFinite = true := by rwa [neg_isFinite]
  have hxn : x.neg.isInf = true := by rwa [neg_isInf]
  obtain ⟨hmul, hmul0⟩ := mul_isInf hx (not_isNaN_of_isFinite hy)
  have hsign : ∀ s, (ofSignMag s infMag).sign = s := fun s => sign_mk' s _ infMag_lt
  refine ⟨add_isInf_isFinite hx hy, add_isFinite_isInf hx hy, add_isInf_isFinite hx hyn, add_isFinite_isInf hxn hy,
    fun h => ?_, fun h => hmul0 (decide_eq_true h), ?_, ?_, ?_, ?_, lt_isInf_isFinite hx hy⟩
  · obtain ⟨h1, h2⟩ := hmul (decide_eq_false h)
    rw [h1, h2]
    exact ⟨isInf_ofSignMag _, hsign _, isInf_ofSignMag _, hsign _⟩
  · rw [div_isInf_isFinite hx hy, isInf_ofSignMag]
  · rw [div_isInf_isFinite hx hy, hsign]
  · rw [div_isFinite_isInf hx hy, mag_mk' _ _ (by decide)]
  · rw [div_isFinite_isInf hx hy, sign_mk' _ _ (by decide)]

theorem inf_inf_operations {x y : F64} (hx : x.isInf = true) (hy : y.isInf = true) :
    (x.div y).isNaN = true ∧ (x.mul y).isInf = true ∧ (x.mul y).sign = (x.sign != y.sign) ∧
      (x.sign = y.sign → x.add y = x ∧ (x.sub y).isNaN = true) ∧
      (x.sign ≠ y.sign → (x.add y).isNaN = true ∧ x.sub y = x) := by
  have hyn : y.neg.isInf = true := by rwa [neg_isInf]
  obtain ⟨hsame, hdiff⟩ := add_isInf_isInf hx hy
  obtain ⟨hsame', hdiff'⟩ := add_isInf_isInf hx hyn
  have hmul := ((mul_isInf hx (not_isNaN_of_isInf hy)).1 (not_isZero_of_isInf hy)).1
  rw [neg_sign] at hsame' hdiff'
  refine ⟨div_isInf_isInf hx hy, ?_, ?_, fun h => ⟨hsame h, hdiff' (by simp [h])⟩,
    fun h => ⟨hdiff h, hsame' (Bool.eq_not.2 h)⟩⟩
  · rw [hmul, isInf_ofSignMag]
  · rw [hmul, sign_mk' _ _ infMag_lt]

theorem finite_div_zero {x y : F64} (hx : x.isFinite = true) (hy : y.mag = 0) :
    (x.mag = 0 → (x.div y).isNaN = true) ∧
    (x.mag ≠ 0 → (x.div y).isInf = true ∧ (x.div y).sign = (x.sign != y.sign)) := by
  obtain ⟨h0, h1⟩ := div_isFinite_isZero hx ((isZero_iff y).2 hy)
  refine ⟨fun h => h0 (decide_eq_true h), fun h => ?_⟩
  rw [h1 (decide_eq_false h)]
  exact ⟨isInf_ofSignMag _, sign_mk' _ _ infMag_lt⟩

/-- Settles O59: the rounding takes the nearer of the two neighbours of the exact value, the even one at a tie, and each
operation rounds with it once. -/
theorem roundingIsNearestEven : Obligations.RoundingIsNearestEven := by
  refine ⟨fun x => ⟨x.sign_add_mag, x.mag_lt⟩, unitsOfMag_eq_ite, fun x => ?_, fun x => ?_, fun n => ?_,
    fun x y => finite_operations, fun x y h => ?_, fun x y hx => ⟨inf_finite_operations hx, inf_inf_operations hx⟩,
    fun x y => finite_div_zero, fun num den hd => ⟨magOfRatio_eq_infMag_iff hd, fun hlt m _ => ?_⟩⟩
  · cases hs : x.sign <;> simp [signedUnits, units, hs]
  · exact ⟨neg_sign x, neg_mag x, abs_sign x, abs_mag x⟩
  · exact ⟨sign_mk' _ _ (magOfRatio_lt _ _), mag_mk' _ _ (magOfRatio_lt _ _)⟩
  · have hyn : x.isNaN = true ∨ y.neg.isNaN = true := by rwa [neg_isNaN]
    exact ⟨isNaN_add_of_isNaN h, isNaN_add_of_isNaN hyn, isNaN_mul_of_isNaN h, isNaN_div_of_isNaN h, compare_of_isNaN h⟩
  · have hraw : magOfRatio num den = rawMag num den := by
      rw [magOfRatio_eq_min] at hlt ⊢
      omega
    rw [hraw]
    exact rawMag_nearest hd m

end Sys2Proof.F64
end

section
/-! Proofs: floor and frac (00_scope.md R11), and results that need no rounding or cannot overflow. -/

namespace Sys2Proof.F64

/-! ### Representable results -/

theorem unit_eq : unit = 2 ^ 1074 := rfl

/-- A multiple of a power of two with a 53-bit factor is a value of the format. -/
theorem exists_mag_of_mul_two_pow (j k : Nat) (hj : j ≤ 2 ^ 53) : ∃ m, unitsOfMag m = j * 2 ^ k := by
  induction k generalizing j with
  | zero => exact ⟨0 * 2 ^ 52 + j, unitsOfMag_eq 0 j hj (.inl rfl)⟩
  | succ k ih =>
    rcases Nat.lt_or_ge j (2 ^ 52) with h | h
    · obtain ⟨m, hm⟩ := ih (j * 2) (by omega)
      exact ⟨m, by rw [hm, Nat.mul_assoc, ← Nat.pow_succ']⟩
    · exact ⟨(k + 1) * 2 ^ 52 + j, unitsOfMag_eq (k + 1) j hj (.inr h)⟩

theorem unitsOfMag_le_iff {a b : Nat} : unitsOfMag a ≤ unitsOfMag b ↔ a ≤ b := unitsOfMag_strictMono.le_iff_le

theorem unitsOfMag_lt_iff {a b : Nat} : unitsOfMag a < unitsOfMag b ↔ a < b := unitsOfMag_strictMono.lt_iff_lt

@[simp] theorem one_units : one.units = unit := by rw [units, one_mag, unitsOfMag_one]

theorem units_le_iff {x y : F64} : x.units ≤ y.units ↔ x.mag ≤ y.mag := unitsOfMag_le_iff

theorem signedUnits_of_pos {x : F64} (h : x.sign = false) : x.signedUnits = x.units := by simp [signedUnits, h]

theorem signedUnits_ofSignMag (s : Bool) {m : Nat} (h : m < 2 ^ 63) :
    (ofSignMag s m).signedUnits = if s then -(unitsOfMag m : Int) else unitsOfMag m := by
  rw [signedUnits, units, sign_mk' s m h, mag_mk' s m h]

/-- The largest finite magnitude in units. -/
theorem unitsOfMag_max : unitsOfMag (infMag - 1) = (2 ^ 53 - 1) * (2 ^ 2044 * 2) := by
  rw [show infMag - 1 = 2045 * 2 ^ 52 + (2 ^ 53 - 1) by decide, unitsOfMag_eq 2045 _ (by decide) (.inr (by decide)),
    pow_succ 2 2044]

theorem isFinite_of_units_le {x : F64} (h : x.units ≤ unit) : x.isFinite = true := by
  rw [← one_units, units_le_iff] at h
  exact (isFinite_iff x).2 (h.trans_lt (by decide))

theorem magOfRatio_unit : magOfRatio unit 1 = one.mag := by
  have h := magOfRatio_exact one.mag 1 Nat.one_pos (by decide)
  rwa [one_mag, unitsOfMag_one, Nat.mul_one, ← one_mag] at h

/-- The sum of a finite value and one of magnitude 1.0 at most does not overflow. -/
theorem add_isFinite {x y : F64} (hx : x.units ≤ unit) (hy : y.isFinite = true) : (x.add y).isFinite = true := by
  have hxf := isFinite_of_units_le hx
  have hyle : y.units ≤ unitsOfMag (infMag - 1) :=
    unitsOfMag_le_iff.2 (Nat.le_sub_one_of_lt ((isFinite_iff y).1 hy))
  have hone : unit < 2 ^ 2044 := by
    rw [unit_eq]
    exact Nat.pow_lt_pow_right (by decide) (by decide)
  have hsum : (x.signedUnits + y.signedUnits).natAbs ≤ x.units + y.units := by
    rw [← signedUnits_natAbs x, ← signedUnits_natAbs y]
    exact Int.natAbs_add_le _ _
  rw [isFinite_iff, add_finite_mag hxf hy]
  refine lt_of_le_of_ne (magOfRatio_le_infMag _ _) fun h => ?_
  rw [magOfRatio_eq_infMag_iff Nat.one_pos, Nat.mul_one] at h
  rw [unitsOfMag_max] at hyle
  generalize 2 ^ 2044 = ulp at *
  omega

theorem add_isFinite' {x y : F64} (hx : x.isFinite = true) (hy : y.units ≤ unit) : (x.add y).isFinite = true := by
  have hyf := isFinite_of_units_le hy
  have hcomm : (x.add y).mag = (y.add x).mag := by rw [add_finite_mag hx hyf, add_finite_mag hyf hx, Int.add_comm]
  rw [isFinite_iff, hcomm, ← isFinite_iff]
  exact add_isFinite hy hx

/-- A product with a factor of magnitude 1.0 at most is no larger than the other factor. -/
theorem mul_mag_le {x y : F64} (hx : x.isFinite = true) (hy : y.isFinite = true) (hy1 : y.units ≤ unit) :
    (x.mul y).mag ≤ x.mag := by
  rw [mul_finite_mag hx hy]
  exact magOfRatio_le_of_le unit_pos (Nat.mul_le_mul_left _ hy1)

/-- A quotient by a value no smaller is at most 1.0. -/
theorem div_mag_le_one {x y : F64} (hx : x.isFinite = true) (hy : y.isFinite = true) (hy0 : y.isZero = false)
    (h : x.units ≤ y.units) : (x.div y).mag ≤ one.mag := by
  rw [div_finite_mag hx hy hy0]
  refine magOfRatio_le_of_le (units_pos_of_not_isZero hy0) ?_
  rw [one_mag, unitsOfMag_one, Nat.mul_comm]
  exact Nat.mul_le_mul_left _ h

/-! ### floor -/

/-- The whole part of a finite value is a value of the format: the value's own magnitude if that is large, else small enough. -/
theorem exists_mag_of_floor {x : F64} (hx : x.isFinite = true) :
    ∃ m < infMag, unitsOfMag m = (x.signedUnits / (unit : Int)).natAbs * unit := by
  obtain ⟨k, f, hm, hf, hk⟩ := exists_binade x.mag
  have hu : x.units = f * 2 ^ k := by rw [units, hm, unitsOfMag_eq k f hf.le hk]
  have hunit : (0 : Int) < unit := by exact_mod_cast unit_pos
  rcases Nat.lt_or_ge k 1074 with h | h
  · have hlt : x.units < 2 ^ 53 * unit := by
      rw [hu, unit_eq]
      exact Nat.mul_lt_mul_of_lt_of_le hf (Nat.pow_le_pow_right (by decide) h.le) (Nat.two_pow_pos _)
    have habs := signedUnits_natAbs x
    have hlo : -(2 ^ 53 : Int) ≤ x.signedUnits / unit := by
      rw [Int.le_ediv_iff_mul_le hunit]
      generalize unit = u at *
      omega
    have hhi : x.signedUnits / unit < 2 ^ 53 := by
      rw [Int.ediv_lt_iff_lt_mul hunit]
      generalize unit = u at *
      omega
    exact exists_mag_of_whole _ (by omega)
  · refine ⟨x.mag, (isFinite_iff x).1 hx, ?_⟩
    have hdvd : (unit : Int) ∣ x.signedUnits := by
      rw [Int.natCast_dvd, signedUnits_natAbs, hu]
      exact (Nat.pow_dvd_pow 2 h).mul_left f
    rw [← Int.natAbs_natCast unit, ← Int.natAbs_mul, Int.natAbs_natCast, Int.ediv_mul_cancel hdvd, signedUnits_natAbs, units]

theorem floor_of_isZero {x : F64} (h : x.isZero = true) : x.floor = x := by
  rw [floor, if_neg (by rw [isFinite_of_isZero h]; decide), if_pos h]

theorem floor_of_not_isZero {x : F64} (hx : x.isFinite = true) (h : x.isZero = false) :
    x.floor = ofSignMag (decide (x.signedUnits / (unit : Int) < 0))
      (magOfRatio ((x.signedUnits / (unit : Int)).natAbs * unit) 1) := by
  rw [floor, if_neg (by rw [hx]; decide), if_neg (by rw [h]; decide)]

/-- `floor` is exact: the whole multiple of 1.0 at or below the value. -/
theorem floor_spec {x : F64} (hx : x.isFinite = true) :
    x.floor.isFinite = true ∧ x.floor.signedUnits = x.signedUnits / (unit : Int) * unit := by
  cases h0 : x.isZero with
  | true =>
    rw [floor_of_isZero h0, signedUnits_of_isZero h0, Int.zero_ediv, Int.zero_mul]
    exact ⟨hx, rfl⟩
  | false =>
    obtain ⟨m, hm, hu⟩ := exists_mag_of_floor hx
    have hmag := magOfRatio_exact m 1 Nat.one_pos hm.le
    rw [Nat.mul_one, hu] at hmag
    have hm63 : m < 2 ^ 63 := hm.trans infMag_lt
    rw [floor_of_not_isZero hx h0, hmag, isFinite_iff, mag_mk' _ _ hm63, signedUnits_ofSignMag _ hm63, hu]
    refine ⟨hm, ?_⟩
    push_cast
    by_cases hneg : x.signedUnits / (unit : Int) < 0
    · rw [if_pos (decide_eq_true hneg), abs_of_neg hneg, Int.neg_mul, Int.neg_neg]
    · rw [if_neg (by rwa [decide_eq_true_eq]), abs_of_nonneg (Int.not_lt.1 hneg)]

/-! ### frac -/

/-- The difference that `frac` takes is the remainder, at most 1.0 once rounded. -/
theorem sub_floor_key {x : F64} (hx : x.isFinite = true) :
    (x.sub x.floor).isFinite = true ∧ 0 ≤ (x.sub x.floor).key ∧ (x.sub x.floor).key ≤ one.key := by
  obtain ⟨hf, hfl⟩ := floor_spec hx
  obtain ⟨-, -, hsign, hmag, -⟩ := finite_operations hx hf
  have hunit : (0 : Int) < unit := by exact_mod_cast unit_pos
  have hdm := Int.emod_add_ediv_mul x.signedUnits unit
  have hlo := Int.emod_nonneg x.signedUnits hunit.ne'
  have hhi := Int.emod_lt_of_pos x.signedUnits hunit
  have hd : x.signedUnits - x.floor.signedUnits = x.signedUnits % unit := by omega
  rw [hd] at hsign hmag
  have hle : (x.sub x.floor).mag ≤ one.mag := by
    rw [hmag]
    refine magOfRatio_le_of_le Nat.one_pos ?_
    rw [one_mag, unitsOfMag_one]
    generalize unit = u at *
    omega
  have hkey : (x.sub x.floor).key = (x.sub x.floor).mag := by
    by_cases h0 : x.signedUnits % unit = 0
    · rw [h0, Int.natAbs_zero, magOfRatio_zero] at hmag
      rw [key_of_isZero (decide_eq_true hmag), hmag]
      rfl
    · rw [if_neg h0] at hsign
      exact key_of_pos (hsign.trans (decide_eq_false (not_lt.2 hlo)))
  rw [hkey, key_of_pos one_sign, isFinite_iff]
  exact ⟨hle.trans_lt (by decide), by omega, by omega⟩

theorem frac_mem {x : F64} (hx : x.isFinite = true) : le zero x.frac = true ∧ lt x.frac one = true := by
  obtain ⟨hf, h0, h1⟩ := sub_floor_key hx
  have hnan := not_isNaN_of_isFinite hf
  have hone : one.isNaN = false := by decide
  have hfrac : x.frac = if eq (x.sub x.floor) one then zero else x.sub x.floor := rfl
  rw [hfrac]
  split
  · exact ⟨by decide, by decide⟩
  · next hne =>
    rw [eq_iff] at hne
    exact ⟨(le_iff _ _).2 ⟨by decide, hnan, by rwa [key_of_isZero (by decide)]⟩,
      (lt_iff _ _).2 ⟨hnan, hone, lt_of_le_of_ne h1 fun h => hne ⟨hnan, hone, h⟩⟩⟩

/-- Settles O60: `floor` is the exact whole part, and `frac` the remainder, rounded to 1.0 at most. -/
theorem fracInUnitInterval : Obligations.FracInUnitInterval := by
  intro x hx
  obtain ⟨hf, hfl⟩ := floor_spec hx
  have hunit : (0 : Int) < unit := by exact_mod_cast unit_pos
  refine ⟨hf, ?_, ?_, ?_, rfl, frac_mem hx⟩
  · rw [hfl]
    exact Int.dvd_mul_left _ _
  · rw [hfl]
    exact Int.ediv_mul_le _ hunit.ne'
  · rw [hfl, Int.lt_iff_add_one_le, Int.add_one_le_iff]
    have := Int.lt_ediv_add_one_mul_self x.signedUnits hunit
    rwa [Int.add_mul, Int.one_mul] at this

end Sys2Proof.F64
end

section
/-! Proofs: the gain of a note, the envelope and the saturation (42_voicebank.md R150, R153; 44_filter.md R202). -/

namespace Sys2Proof.F64

/-! ### Values in [0, 1], and signs of products -/

/-- What is between +0.0 and 1.0 has a magnitude of 1.0 at most. -/
theorem units_le_of_unit_interval {x : F64} (h0 : le zero x = true) (h1 : le x one = true) :
    x.isFinite = true ∧ x.units ≤ unit := by
  have hf := isFinite_of_le_of_le zero_isFinite one_isFinite h0 h1
  obtain ⟨-, -, hk0⟩ := (le_iff _ _).1 h0
  obtain ⟨-, -, hk1⟩ := (le_iff _ _).1 h1
  refine ⟨hf, ?_⟩
  rw [← one_units, units_le_iff]
  rw [key_of_isZero (by decide)] at hk0
  rw [key_of_pos one_sign] at hk1
  cases hs : x.sign with
  | false => rw [key_of_pos hs] at hk1; omega
  | true => rw [key_of_neg hs] at hk0; omega

theorem le_one_of_mag_le {x : F64} (h : x.mag ≤ one.mag) : le x one = true := by
  have hf : x.isFinite = true := (isFinite_iff x).2 (h.trans_lt (by decide))
  refine (le_iff _ _).2 ⟨not_isNaN_of_isFinite hf, by decide, ?_⟩
  rw [key_of_pos one_sign, key]
  split <;> omega

/-- A sign flipped on the second factor flips the product's, unless that is a NaN. -/
theorem mul_neg_of_not_isNaN {x y : F64} (h : (x.mul y).isNaN = false) : x.mul y.neg = (x.mul y).neg := by
  have hflip : ∀ (s t : Bool) (m : Nat), m < 2 ^ 63 → ofSignMag (s != !t) m = (ofSignMag (s != t) m).neg := fun s t m hm => by
    rw [neg, sign_mk' _ _ hm, mag_mk' _ _ hm]
    cases s <;> cases t <;> rfl
  have hnan : (x.isNaN || y.isNaN) = false := by
    rw [Bool.eq_false_iff]
    intro hor
    rw [isNaN_mul_of_isNaN (by simpa using hor)] at h
    cases h
  have hzero : y.neg.isZero = y.isZero := by rw [isZero_eq, neg_mag, ← isZero_eq]
  have hunits : y.neg.units = y.units := by rw [units, neg_mag, ← units]
  unfold mul at h ⊢
  simp only [neg_isNaN, neg_isInf, neg_sign, hzero, hunits, hnan, Bool.false_eq_true, if_false] at h ⊢
  split
  · next hinf =>
    rw [if_pos hinf] at h
    split
    · next h0 => rw [if_pos h0, nan_isNaN] at h; cases h
    · exact hflip _ _ _ infMag_lt
  · exact hflip _ _ _ (magOfRatio_lt _ _)

/-- A zero times a finite value is a zero. -/
theorem isZero_mul_of_isFinite {x y : F64} (hx : x.isZero = true) (hy : y.isFinite = true) : (x.mul y).isZero = true := by
  have hu : x.units = 0 := by rw [units, (isZero_iff x).1 hx, unitsOfMag_zero]
  rw [isZero_iff, mul_finite_mag (isFinite_of_isZero hx) hy, hu, Nat.zero_mul, magOfRatio_zero]

/-- A product with a zero that is no NaN is a zero. -/
theorem isZero_mul_of_isZero {x y : F64} (hx : x.isZero = true) (h : (x.mul y).isNaN = false) : (x.mul y).isZero = true := by
  cases hy : y.isFinite with
  | true => exact isZero_mul_of_isFinite hx hy
  | false =>
    have hbad : (x.mul y).isNaN = true := by
      cases hn : y.isNaN with
      | true => exact isNaN_mul_of_isNaN (.inr hn)
      | false =>
        have hi : y.isInf = true := by
          simp only [isFinite, isNaN, isInf, decide_eq_false_iff_not, decide_eq_true_eq] at hy hn ⊢
          omega
        exact ((mul_isInf hi (not_isNaN_of_isFinite (isFinite_of_isZero hx))).2 hx).2
    rw [hbad] at h
    cases h

/-- A zero divided by a finite value that is none is a zero. -/
theorem isZero_div_of_isZero {x y : F64} (hx : x.isZero = true) (hy : y.isFinite = true) (hy0 : y.isZero = false) :
    (x.div y).isZero = true := by
  have hu : x.units = 0 := by rw [units, (isZero_iff x).1 hx, unitsOfMag_zero]
  rw [isZero_iff, div_finite_mag (isFinite_of_isZero hx) hy hy0, hu, Nat.zero_mul, magOfRatio_zero]

theorem isZero_neg {x : F64} : x.neg.isZero = x.isZero := by rw [isZero_eq, neg_mag, ← isZero_eq]

theorem not_isZero_of_pos {x : F64} (h : lt zero x = true) : x.isZero = false := by
  rw [← Bool.not_eq_true]
  intro h0
  obtain ⟨-, -, hk⟩ := (lt_iff _ _).1 h
  rw [key_of_isZero h0, key_of_isZero (by decide)] at hk
  exact hk.false

/-- Above a bound that is positive, a value is positive. -/
protected theorem lt_of_lt_of_le {x y z : F64} (hxy : lt x y = true) (hyz : le y z = true) : lt x z = true := by
  obtain ⟨hx, -, hxy⟩ := (lt_iff _ _).1 hxy
  obtain ⟨-, hz, hyz⟩ := (le_iff _ _).1 hyz
  exact (lt_iff _ _).2 ⟨hx, hz, hxy.trans_le hyz⟩

end Sys2Proof.F64

namespace Sys2Proof.Machine

theorem vcurve_mem {x : F64} (h0 : F64.le F64.zero x = true) (h1 : F64.le x F64.one = true) :
    F64.le F64.zero (vcurve x) = true ∧ F64.le (vcurve x) F64.one = true := by
  obtain ⟨hf, hu⟩ := F64.units_le_of_unit_interval h0 h1
  have hmag : (vcurve x).mag ≤ F64.one.mag := (F64.mul_mag_le hf hf hu).trans (F64.units_le_iff.1 (by rwa [F64.one_units]))
  have hsign : (vcurve x).sign = false := by rw [vcurve, F64.mul_finite_sign hf hf, bne_self_eq_false]
  have hfin : (vcurve x).isFinite = true := (F64.isFinite_iff _).2 (hmag.trans_lt (by decide))
  exact ⟨F64.zero_le_of_sign hsign hfin, F64.le_one_of_mag_le hmag⟩

/-- The gain of a velocity that is no NaN is in [0, 1]. -/
theorem noteGain_mem {u : F64} (hu : u.isNaN = false) :
    F64.le F64.zero (noteGain u) = true ∧ F64.le (noteGain u) F64.one = true := by
  obtain ⟨h0, h1⟩ := F64.clamp_mem (lo := F64.zero) (hi := F64.one) hu (by decide)
  exact vcurve_mem h0 h1

/-- Settles O43: the clamp answers a value in [0, 1], and the square of one is in [0, 1]. -/
theorem noteGainInUnitInterval : Obligations.NoteGainInUnitInterval := fun _ hu => ⟨rfl, noteGain_mem hu⟩

/-- The envelope of elapsed time 0 is 1.0: its exponent is a zero. -/
theorem env_zero {T : Transc} (hT : T.Lawful) {d : F64} (hf : d.isFinite = true) (hpos : F64.lt F64.zero d = true) :
    env T F64.zero d = F64.one := by
  refine hT.exp_zero _ ?_
  rw [F64.isZero_neg]
  exact F64.isZero_div_of_isZero (by decide) hf (F64.not_isZero_of_pos hpos)

/-- Settles O45: a legal decay is finite and positive. -/
theorem envelopeStartsAtOne : Obligations.EnvelopeStartsAtOne := fun _ _ _ hT ⟨hf, hmin, _⟩ =>
  env_zero hT hf (F64.lt_of_lt_of_le (by decide) hmin)

/-! ### The saturation -/

/-- 2 ÷ PI, rounded. -/
abbrev satFactor : F64 := F64.two.div F64.pi

theorem satFactor_isFinite : satFactor.isFinite = true := by decide +kernel

/-- The largest arc tangent, scaled, is 1.0 at most. -/
theorem satFactor_mul_piHalfBound : (satFactor.mul F64.piHalfBound).mag ≤ F64.one.mag := by decide +kernel

/-- An arc tangent's magnitude is PI_HALF_BOUND at most, so it is finite. -/
theorem atan_mem {T : Transc} (hT : T.Lawful) {x : F64} (hx : x.isNaN = false) :
    (T.atan x).isFinite = true ∧ (T.atan x).mag ≤ F64.piHalfBound.mag := by
  obtain ⟨-, -, hk⟩ := (F64.le_iff _ _).1 (hT.atan_bound x hx)
  rw [F64.key_of_pos (F64.abs_sign _), F64.abs_mag, F64.key_of_pos (by decide)] at hk
  have hmag : (T.atan x).mag ≤ F64.piHalfBound.mag := by omega
  exact ⟨(F64.isFinite_iff _).2 (hmag.trans_lt (by decide)), hmag⟩

theorem saturate_mag_le_one {T : Transc} (hT : T.Lawful) {x g : F64} (h : (g.mul x).isNaN = false) :
    (saturate T x g).mag ≤ F64.one.mag := by
  obtain ⟨hf, hmag⟩ := atan_mem hT h
  refine le_trans ?_ satFactor_mul_piHalfBound
  rw [saturate, F64.mul_finite_mag satFactor_isFinite hf, F64.mul_finite_mag satFactor_isFinite (by decide)]
  refine F64.magOfRatio_mono F64.unit_pos F64.unit_pos (Nat.mul_le_mul_right _ (Nat.mul_le_mul_left _ ?_))
  exact F64.units_le_iff.2 hmag

/-- Settles O49: the bound is that of the arc tangent; the signs pass through the two products and the odd arc tangent; and at
gain 0 its argument is a zero. -/
theorem saturationBounds : Obligations.SaturationBounds := by
  intro T x g hT h
  have hle := saturate_mag_le_one hT h
  have hnan : (saturate T x g).isNaN = false :=
    F64.not_isNaN_of_isFinite ((F64.isFinite_iff _).2 (hle.trans_lt (by decide)))
  refine ⟨F64.le_one_of_mag_le (by rwa [F64.abs_mag]), ?_, fun hg => ?_⟩
  · rw [saturate, F64.mul_neg_of_not_isNaN h, hT.atan_odd _ h]
    exact F64.mul_neg_of_not_isNaN hnan
  · have hatan : (T.atan (g.mul x)).isZero = true := by
      rcases F64.eq_zero_or_eq_neg_zero (F64.isZero_mul_of_isZero hg h) with h0 | h0
      · rw [h0, hT.atan_zero]
        rfl
      · rw [h0, hT.atan_odd _ (by decide), hT.atan_zero]
        decide
    have hu : (T.atan (g.mul x)).units = 0 := by rw [F64.units, (F64.isZero_iff _).1 hatan, F64.unitsOfMag_zero]
    rw [F64.isZero_iff, saturate, F64.mul_finite_mag satFactor_isFinite (atan_mem hT h).1, hu, Nat.mul_zero,
      F64.magOfRatio_zero]

end Sys2Proof.Machine
end

section
/-! Proofs: the waveforms, the morph between them and the oscillator's first output (43_oscillator.md R180 to R189). -/

namespace Sys2Proof.F64

/-! ### Sums and products that are exact -/

theorem add_comm_of_isFinite {x y : F64} (hx : x.isFinite = true) (hy : y.isFinite = true) : x.add y = y.add x := by
  refine ext_sign_mag ?_ ?_
  · rw [add_finite_sign hx hy, add_finite_sign hy hx, Int.add_comm, Bool.and_comm]
  · rw [add_finite_mag hx hy, add_finite_mag hy hx, Int.add_comm]

theorem mul_comm_of_isFinite {x y : F64} (hx : x.isFinite = true) (hy : y.isFinite = true) : x.mul y = y.mul x := by
  rw [mul_finite hx hy, mul_finite hy hx, Nat.mul_comm, bne_comm]

protected theorem one_mul {x : F64} (hx : x.isFinite = true) : one.mul x = x := by
  rw [mul_comm_of_isFinite one_isFinite hx, F64.mul_one hx]

theorem zero_isZero : zero.isZero = true := by decide

theorem add_of_isZero_right {x y : F64} (hy : y.isZero = true) (hx : x.isFinite = true) (hne : x ≠ neg zero) : x.add y = x := by
  rw [add_comm_of_isFinite hx (isFinite_of_isZero hy), add_of_isZero hy hx hne]

/-- A finite value times −1.0 is its negation, bit for bit. -/
theorem mul_negOne {x : F64} (hx : x.isFinite = true) : x.mul negOne = x.neg := by
  have hm : x.mul one.neg = (x.mul one).neg :=
    mul_neg_of_not_isNaN (by rw [F64.mul_one hx]; exact not_isNaN_of_isFinite hx)
  rw [F64.mul_one hx] at hm
  exact hm

/-- A rounded result is 0 only if the exact one is: units are whole. -/
theorem eq_zero_of_magOfRatio_eq_zero {n : Nat} (h : magOfRatio n 1 = 0) : n = 0 := by
  by_contra hn
  have h1 : unitsOfMag 1 = 1 := by decide
  have := le_magOfRatio_of_le (num := n) (den := 1) (m := 1) Nat.one_pos (by decide) (by omega)
  omega

/-- A sum is −0.0 only if its second operand is. -/
theorem add_ne_neg_zero {x y : F64} (hx : x.isFinite = true) (hy : y.isFinite = true) (hy0 : y.isZero = false) :
    x.add y ≠ neg zero := by
  intro h
  have hmag := add_finite_mag hx hy
  have hsign := add_finite_sign hx hy
  rw [h, neg_mag, zero_mag] at hmag
  have hsum := Int.natAbs_eq_zero.1 (eq_zero_of_magOfRatio_eq_zero hmag.symm)
  rw [h, if_pos hsum, neg_sign, zero_sign] at hsign
  obtain ⟨hxs, hys⟩ : x.sign = true ∧ y.sign = true := by simpa using hsign.symm
  have hpos := units_pos_of_not_isZero hy0
  simp only [signedUnits, hxs, hys, if_true] at hsum
  omega

/-- A difference that is a value of the format is not rounded. -/
theorem signedUnits_sub_of_exact {x y : F64} {m : Nat} (hx : x.isFinite = true) (hy : y.isFinite = true) (hm : m ≤ infMag)
    (h : (x.signedUnits - y.signedUnits).natAbs = unitsOfMag m) :
    (x.sub y).signedUnits = x.signedUnits - y.signedUnits := by
  obtain ⟨-, -, hsign, hmag, -⟩ := finite_operations hx hy
  have hexact := magOfRatio_exact m 1 Nat.one_pos hm
  rw [Nat.mul_one] at hexact
  rw [signedUnits, units, hmag, h, hexact, ← h, hsign]
  generalize x.signedUnits - y.signedUnits = d
  by_cases h0 : d = 0
  · rw [h0, Int.natAbs_zero, Int.ofNat_zero, Int.neg_zero, ite_self]
  · rw [if_neg h0]
    by_cases hneg : d < 0
    · rw [if_pos (decide_eq_true hneg)]
      omega
    · rw [if_neg (by rwa [decide_eq_true_eq])]
      omega

/-! ### Shares of 1.0 -/

/-- Below 1.0 neighbouring magnitudes are half a unit in the last place of 1.0 apart at most. -/
theorem unitsOfMag_succ_le_of_lt_one {a : Nat} (h : a < one.mag) : unitsOfMag (a + 1) ≤ unitsOfMag a + 2 ^ 1021 := by
  obtain ⟨k, f, rfl, hf, hk⟩ := exists_binade a
  rw [one_mag] at h
  have hk' : 2 ^ k ≤ 2 ^ 1021 := Nat.pow_le_pow_right (by decide) (by omega)
  rw [Nat.add_assoc, unitsOfMag_eq k f hf.le hk, unitsOfMag_eq k (f + 1) hf (by omega), Nat.succ_mul]
  omega

theorem unitsOfMag_before_one : unitsOfMag (one.mag - 1) + 2 ^ 1021 = unit := by
  have h := unitsOfMag_eq 1021 (2 ^ 53 - 1) (by decide) (.inr (by decide))
  have h1 := unitsOfMag_eq 1021 (2 ^ 53) le_rfl (.inr (by decide))
  rw [show 1021 * 2 ^ 52 + 2 ^ 53 = 1023 * 2 ^ 52 by decide, unitsOfMag_one] at h1
  rw [one_mag, show 1023 * 2 ^ 52 - 1 = 1021 * 2 ^ 52 + (2 ^ 53 - 1) by decide, h, h1]
  generalize 2 ^ 1021 = ulp
  omega

theorem unitsOfMag_after_one : unitsOfMag (one.mag + 1) = unit + 2 * 2 ^ 1021 := by
  have h := unitsOfMag_eq 1022 (2 ^ 52 + 1) (by decide) (.inr (by decide))
  have h1 := unitsOfMag_eq 1022 (2 ^ 52) (by decide) (.inr le_rfl)
  rw [show 1022 * 2 ^ 52 + 2 ^ 52 = 1023 * 2 ^ 52 by decide, unitsOfMag_one] at h1
  rw [one_mag, show 1023 * 2 ^ 52 + 1 = 1022 * 2 ^ 52 + (2 ^ 52 + 1) by decide, h, h1, pow_succ 2 1021]
  generalize 2 ^ 1021 = ulp
  omega

/-- What is no further from 1.0 than half the distance to the magnitude before it rounds to 1.0, an even magnitude. -/
theorem magOfRatio_near_one {n : Nat} (hlo : 2 * unit ≤ 2 * n + 2 ^ 1021) (hhi : 2 * n ≤ 2 * unit + 2 ^ 1021) :
    magOfRatio n 1 = one.mag := by
  have hbefore := lt_rawMag_iff n 1 (one.mag - 1) Nat.one_pos
  have hafter := lt_rawMag_iff n 1 one.mag Nat.one_pos
  have hpos := Nat.two_pow_pos 1021
  have h0 : unitsOfMag one.mag = unit := unitsOfMag_one
  have hsucc : one.mag - 1 + 1 = one.mag := by decide
  have hodd : (one.mag - 1) % 2 = 1 := by decide
  have hinf : one.mag < infMag := by decide
  rw [hsucc, h0, ← unitsOfMag_before_one] at hbefore
  rw [h0, unitsOfMag_after_one, ← unitsOfMag_before_one] at hafter
  rw [← unitsOfMag_before_one] at hlo hhi
  rw [magOfRatio_eq_min]
  generalize unitsOfMag (one.mag - 1) = before at *
  generalize 2 ^ 1021 = ulp at *
  generalize rawMag n 1 = raw at *
  generalize one.mag = o at *
  generalize infMag = top at *
  omega

/-- A share of 1.0 and its rounded complement add up to 1.0, once rounded. -/
theorem magOfRatio_complement {n : Nat} (hn : n ≤ unit) :
    magOfRatio (unitsOfMag (magOfRatio n 1) + (unit - n)) 1 = one.mag := by
  obtain ⟨a, hlo, hhi, hraw⟩ := rawMag_spec n 1 Nat.one_pos
  have hone : unitsOfMag one.mag = unit := unitsOfMag_one
  rcases Nat.lt_or_eq_of_le hn with hlt | heq
  · have ha : a < one.mag := by
      rw [← unitsOfMag_lt_iff, hone]
      exact lt_of_le_of_lt (by rwa [Nat.mul_one] at hlo) hlt
    have hgap := unitsOfMag_succ_le_of_lt_one ha
    have hmag : magOfRatio n 1 = rawMag n 1 := by
      have htop : one.mag < infMag := by decide
      have hle : rawMag n 1 ≤ a + 1 := by
        rw [hraw]
        split <;> omega
      exact Nat.min_eq_left ((hle.trans ha).trans htop.le)
    have hnear : 2 * unit ≤ 2 * (unitsOfMag (rawMag n 1) + (unit - n)) + 2 ^ 1021 ∧
        2 * (unitsOfMag (rawMag n 1) + (unit - n)) ≤ 2 * unit + 2 ^ 1021 := by
      rw [hraw]
      generalize 2 ^ 1021 = ulp at *
      generalize unit = u at *
      split <;> omega
    rw [hmag]
    exact magOfRatio_near_one hnear.1 hnear.2
  · rw [heq, magOfRatio_unit, hone, Nat.sub_self, Nat.add_zero, magOfRatio_unit]

/-- Two negated values whose sum rounds to 1.0 add up to −1.0. -/
theorem neg_add_neg_eq_negOne {x y : F64} (hx : x.isFinite = true) (hy : y.isFinite = true)
    (hsum : 0 < x.signedUnits + y.signedUnits) (h : magOfRatio (x.signedUnits + y.signedUnits).natAbs 1 = one.mag) :
    x.neg.add y.neg = negOne := by
  have hxn : x.neg.isFinite = true := by rwa [neg_isFinite]
  have hyn : y.neg.isFinite = true := by rwa [neg_isFinite]
  have hneg : x.neg.signedUnits + y.neg.signedUnits = -(x.signedUnits + y.signedUnits) := by
    rw [neg_signedUnits, neg_signedUnits, Int.neg_add]
  refine ext_sign_mag ?_ ?_
  · rw [add_finite_sign hxn hyn, hneg, if_neg (by omega), decide_eq_true (by omega)]
    decide
  · rw [add_finite_mag hxn hyn, hneg, Int.natAbs_neg, h]
    decide

/-! ### frac -/

/-- `frac` answers no −0.0. -/
theorem frac_sign {x : F64} (hx : x.isFinite = true) : x.frac.sign = false := by
  obtain ⟨hf, hfl⟩ := floor_spec hx
  obtain ⟨hsf, hk0, -⟩ := sub_floor_key hx
  obtain ⟨-, -, hsign, hmag, -⟩ := finite_operations hx hf
  have hfrac : x.frac = if eq (x.sub x.floor) one then zero else x.sub x.floor := rfl
  rw [hfrac]
  split
  · exact zero_sign
  · by_cases hd : x.signedUnits - x.floor.signedUnits = 0
    · rw [hsign, if_pos hd]
      have hsame : x.floor.sign = x.sign := by
        cases h0 : x.isZero with
        | true => rw [floor_of_isZero h0]
        | false =>
          have hx0 := units_pos_of_not_isZero h0
          have hxs := signedUnits_natAbs x
          have hfs := signedUnits_natAbs x.floor
          have hf0 : x.floor.isZero = false := by
            rw [← Bool.not_eq_true]
            intro hz
            have := signedUnits_of_isZero hz
            omega
          rw [Bool.eq_iff_iff, ← signedUnits_neg_iff_sign hf0, ← signedUnits_neg_iff_sign h0]
          omega
      rw [hsame, Bool.and_not_self]
    · cases hs : (x.sub x.floor).sign with
      | false => rfl
      | true =>
        rw [key_of_neg hs] at hk0
        have hm0 : (x.sub x.floor).mag = 0 := by omega
        rw [hmag] at hm0
        exact absurd (Int.natAbs_eq_zero.1 (eq_zero_of_magOfRatio_eq_zero hm0)) hd

theorem frac_of_isZero {x : F64} (h : x.isZero = true) : x.frac = zero := by
  have hfrac : x.frac = if eq (x.sub x) one then zero else x.sub x := by rw [frac, floor_of_isZero h]
  rw [hfrac]
  rcases eq_zero_or_eq_neg_zero h with rfl | rfl <;> decide

end Sys2Proof.F64

namespace Sys2Proof.Machine

/-! ### The waveforms at a finite phase -/

/-- `(2.0 × v) − 1.0` of a `v` in [0, 1) is finite and no −0.0. -/
theorem ramp_isFinite {v : F64} (h0 : F64.le F64.zero v = true) (h1 : F64.lt v F64.one = true) :
    ((F64.two.mul v).sub F64.one).isFinite = true ∧ (F64.two.mul v).sub F64.one ≠ F64.neg F64.zero := by
  obtain ⟨hvn, -, hk⟩ := (F64.lt_iff _ _).1 h1
  obtain ⟨hf, hu⟩ := F64.units_le_of_unit_interval h0 ((F64.le_iff _ _).2 ⟨hvn, by decide, hk.le⟩)
  have htwo : F64.two.isFinite = true := by decide
  have hmul : (F64.two.mul v).isFinite = true := by
    rw [F64.isFinite_iff]
    exact (F64.mul_mag_le htwo hf hu).trans_lt (by decide)
  have hone : F64.one.neg.units ≤ F64.unit := by rw [F64.units, F64.neg_mag, ← F64.units, F64.one_units]
  exact ⟨F64.add_isFinite' hmul hone, F64.add_ne_neg_zero hmul (by decide) (by decide)⟩

theorem saw_isFinite {p : F64} (hp : p.isFinite = true) : (saw p).isFinite = true ∧ saw p ≠ F64.neg F64.zero := by
  obtain ⟨h0, h1⟩ := F64.frac_mem hp
  exact ramp_isFinite h0 h1

theorem wsaw_isFinite {T : Transc} (hT : T.Lawful) {p pw : F64} (hp : p.isFinite = true)
    (he : F64.lt F64.zero (warpExponent T pw) = true) :
    (wsaw T p pw).isFinite = true ∧ wsaw T p pw ≠ F64.neg F64.zero := by
  obtain ⟨h0, h1⟩ := hT.pow_range _ _ (F64.frac_sign hp) (F64.frac_mem hp).2 he
  exact ramp_isFinite h0 h1

theorem square_isFinite (p pw : F64) : (square p pw).isFinite = true ∧ square p pw ≠ F64.neg F64.zero := by
  unfold square
  split <;> exact ⟨by decide, by decide⟩

/-! ### The morph -/

theorem morph_of_lt {T : Transc} {p sh pw : F64} (h : F64.lt sh F64.one = true) :
    morph T p sh pw = ((F64.one.sub sh).mul (wsaw T p pw)).add (sh.mul (saw p)) := if_pos h

theorem morph_of_not_lt {T : Transc} {p sh pw : F64} (h : F64.lt sh F64.one = false) :
    morph T p sh pw = ((F64.two.sub sh).mul (saw p)).add ((sh.sub F64.one).mul (square p pw)) :=
  if_neg (by rw [h]; decide)

/-- Settles O47: at an endpoint one weight is 1.0 and the other 0.0, and no waveform is −0.0. -/
theorem morphEndpoints : Obligations.MorphEndpoints := by
  refine ⟨fun T p sh pw => ⟨rfl, rfl, rfl, morph_of_lt, morph_of_not_lt⟩, fun T p pw hT hp he => ?_⟩
  obtain ⟨hsaw, hsaw0⟩ := saw_isFinite hp
  obtain ⟨hw, hw0⟩ := wsaw_isFinite hT hp he
  obtain ⟨hsq, hsq0⟩ := square_isFinite p pw
  have hzsaw := F64.isZero_mul_of_isFinite F64.zero_isZero hsaw
  have hzsq := F64.isZero_mul_of_isFinite F64.zero_isZero hsq
  have h10 : F64.one.sub F64.zero = F64.one := by decide +kernel
  have h11 : F64.one.sub F64.one = F64.zero := by decide +kernel
  have h21 : F64.two.sub F64.one = F64.one := by decide +kernel
  have h22 : F64.two.sub F64.two = F64.zero := by decide +kernel
  refine ⟨?_, ?_, ?_⟩
  · rw [morph_of_lt (by decide), h10, F64.one_mul hw, F64.add_of_isZero_right hzsaw hw hw0]
  · rw [morph_of_not_lt (by decide), h21, h11, F64.one_mul hsaw, F64.add_of_isZero_right hzsq hsaw hsaw0]
  · rw [morph_of_not_lt (by decide), h22, h21, F64.one_mul hsq, F64.add_of_isZero hzsaw hsq hsq0]

/-! ### At phase 0 -/

theorem saw_of_isZero {p : F64} (hp : p.isZero = true) : saw p = F64.negOne := by
  rw [saw, F64.frac_of_isZero hp]
  decide +kernel

theorem wsaw_of_isZero {T : Transc} (hT : T.Lawful) {p pw : F64} (hp : p.isZero = true)
    (he : F64.lt F64.zero (warpExponent T pw) = true) : wsaw T p pw = F64.negOne := by
  rw [wsaw, F64.frac_of_isZero hp, hT.pow_zero _ he]
  decide +kernel

theorem square_of_isZero {p pw : F64} (hp : p.isZero = true) (hpw : F64.le F64.zero pw = true) :
    square p pw = F64.negOne := by
  rw [square, F64.frac_of_isZero hp, F64.not_lt_of_le hpw]
  rfl

/-- The two shares of a shape below 1, each of −1.0, make −1.0: the complement's rounding is undone by the sum's. -/
theorem shares_below_one {sh : F64} (h0 : F64.le F64.zero sh = true) (h1 : F64.lt sh F64.one = true) :
    ((F64.one.sub sh).mul F64.negOne).add (sh.mul F64.negOne) = F64.negOne := by
  obtain ⟨hnan, -, hk⟩ := (F64.lt_iff _ _).1 h1
  have hle := (F64.le_iff sh F64.one).2 ⟨hnan, by decide, hk.le⟩
  have hf := F64.isFinite_of_le_of_le F64.zero_isFinite F64.one_isFinite h0 hle
  rw [F64.lt_finite hf F64.one_isFinite, decide_eq_true_eq, F64.signedUnits_of_pos F64.one_sign, F64.one_units] at h1
  rw [F64.le_finite F64.zero_isFinite hf, decide_eq_true_eq, F64.signedUnits_of_isZero (by decide)] at h0
  obtain ⟨-, -, hsign, hmag, -⟩ := F64.finite_operations F64.one_isFinite hf
  rw [F64.signedUnits_of_pos F64.one_sign, F64.one_units] at hsign hmag
  have hsh : ∃ n : Nat, sh.signedUnits = n := Int.eq_ofNat_of_zero_le h0
  obtain ⟨n, hn⟩ := hsh
  rw [hn] at hsign hmag h1
  have hd : ((F64.unit : Int) - n).natAbs = F64.unit - n := by omega
  rw [hd] at hmag
  rw [if_neg (by omega), decide_eq_false (by omega)] at hsign
  have hsub : (F64.one.sub sh).isFinite = true := F64.add_isFinite (by rw [F64.one_units]) (by rwa [F64.neg_isFinite])
  have hsu : (F64.one.sub sh).signedUnits = F64.unitsOfMag (F64.magOfRatio (F64.unit - n) 1) := by
    rw [F64.signedUnits_of_pos hsign, F64.units, hmag]
  have hround := F64.magOfRatio_complement (Nat.sub_le F64.unit n)
  rw [Nat.sub_sub_self (by omega)] at hround
  have htotal : ((F64.one.sub sh).signedUnits + sh.signedUnits).natAbs =
      F64.unitsOfMag (F64.magOfRatio (F64.unit - n) 1) + n := by
    rw [hsu, hn]
    omega
  rw [F64.mul_negOne hsub, F64.mul_negOne hf]
  refine F64.neg_add_neg_eq_negOne hsub hf ?_ (by rw [htotal, hround])
  refine lt_of_le_of_ne (by omega) fun hz => ?_
  rw [← htotal, ← hz] at hround
  exact absurd hround (by decide)

theorem unit_eq_mul : F64.unit = 2 ^ 52 * 2 ^ 1022 := by
  rw [← F64.one_units, F64.units, show F64.one.mag = 1022 * 2 ^ 52 + 2 ^ 52 by decide,
    F64.unitsOfMag_eq 1022 _ (by decide) (.inr le_rfl)]

theorem two_units : F64.two.units = 2 * F64.unit := by
  rw [F64.units, show F64.two.mag = 1022 * 2 ^ 52 + 2 ^ 53 by decide, F64.unitsOfMag_eq 1022 _ le_rfl (.inr (by decide)),
    unit_eq_mul]
  generalize 2 ^ 1022 = ulp
  omega

/-- The shapes from 1.0 to 2.0 in units: whole multiples of the last place of 1.0. -/
theorem units_from_one_to_two {x : F64} (h1 : F64.one.mag ≤ x.mag) (h2 : x.mag ≤ F64.two.mag) :
    ∃ j ≤ 2 ^ 52, x.units = F64.unit + j * 2 ^ 1022 ∧ x.units + (2 ^ 52 - j) * 2 ^ 1022 = 2 * F64.unit := by
  have hone : F64.one.mag = 1022 * 2 ^ 52 + 2 ^ 52 := by decide
  have htwo : F64.two.mag = 1022 * 2 ^ 52 + 2 ^ 53 := by decide
  obtain ⟨j, hj⟩ : ∃ j, x.mag = 1022 * 2 ^ 52 + (2 ^ 52 + j) := ⟨x.mag - F64.one.mag, by omega⟩
  have hj52 : j ≤ 2 ^ 52 := by omega
  have hx : x.units = (2 ^ 52 + j) * 2 ^ 1022 := by rw [F64.units, hj, F64.unitsOfMag_eq 1022 _ (by omega) (.inr (by omega))]
  rw [hx, unit_eq_mul]
  generalize 2 ^ 1022 = ulp
  have hsplit : (2 ^ 52 - j) * ulp + j * ulp = 2 ^ 52 * ulp := by rw [← Nat.add_mul, Nat.sub_add_cancel hj52]
  exact ⟨j, hj52, Nat.add_mul .., by rw [Nat.add_mul]; omega⟩

/-- A difference that is a share of 1.0 in whole last places of it is exact. -/
theorem signedUnits_sub_of_share {x y : F64} {j : Nat} (hx : x.isFinite = true) (hy : y.isFinite = true) (hj : j ≤ 2 ^ 52)
    (h : x.signedUnits - y.signedUnits = (j * 2 ^ 1022 : Nat)) :
    (x.sub y).signedUnits = (j * 2 ^ 1022 : Nat) ∧ (x.sub y).isFinite = true := by
  obtain ⟨m, hm⟩ := F64.exists_mag_of_mul_two_pow j 1022 (hj.trans (by decide))
  have hle : j * 2 ^ 1022 ≤ F64.unit := by
    rw [unit_eq_mul]
    exact Nat.mul_le_mul_right _ hj
  have hm1 : m ≤ F64.one.mag := by
    rw [← F64.unitsOfMag_le_iff, hm]
    exact hle.trans_eq F64.one_units.symm
  have hsub := F64.signedUnits_sub_of_exact hx hy (hm1.trans (by decide)) (by rw [h, hm, Int.natAbs_natCast])
  have hu : (x.sub y).units = j * 2 ^ 1022 := by rw [← F64.signedUnits_natAbs, hsub, h, Int.natAbs_natCast]
  exact ⟨hsub.trans h, F64.isFinite_of_units_le (hu.trans_le hle)⟩

/-- From shape 1 on both shares are exact. -/
theorem shares_from_one {sh : F64} (h1 : F64.le F64.one sh = true) (h2 : F64.le sh F64.two = true) :
    ((F64.two.sub sh).mul F64.negOne).add ((sh.sub F64.one).mul F64.negOne) = F64.negOne := by
  have htwo : F64.two.isFinite = true := by decide
  have hf := F64.isFinite_of_le_of_le F64.one_isFinite htwo h1 h2
  have hs : sh.sign = false := F64.sign_of_pos (F64.lt_of_lt_of_le (by decide) h1)
  obtain ⟨-, -, hk1⟩ := (F64.le_iff _ _).1 h1
  obtain ⟨-, -, hk2⟩ := (F64.le_iff _ _).1 h2
  rw [F64.key_of_pos F64.one_sign, F64.key_of_pos hs, Int.ofNat_le] at hk1
  rw [F64.key_of_pos hs, F64.key_of_pos (by decide), Int.ofNat_le] at hk2
  obtain ⟨j, hj, hlo, hhi⟩ := units_from_one_to_two hk1 hk2
  have hsh := F64.signedUnits_of_pos hs
  have hone := F64.signedUnits_of_pos F64.one_sign
  have htwoS : F64.two.signedUnits = F64.two.units := F64.signedUnits_of_pos (by decide)
  rw [F64.one_units] at hone
  rw [two_units] at htwoS
  obtain ⟨ha, haf⟩ := signedUnits_sub_of_share htwo hf (Nat.sub_le (2 ^ 52) j) (by omega)
  obtain ⟨hb, hbf⟩ := signedUnits_sub_of_share hf F64.one_isFinite hj (by omega)
  have hsum : (F64.two.sub sh).signedUnits + (sh.sub F64.one).signedUnits = F64.unit := by omega
  have hpos := F64.unit_pos
  rw [F64.mul_negOne haf, F64.mul_negOne hbf]
  refine F64.neg_add_neg_eq_negOne haf hbf (by omega) ?_
  rw [hsum, Int.natAbs_natCast, F64.magOfRatio_unit]

/-- The morph between waveforms that all stand at −1.0. -/
theorem morph_of_isZero {T : Transc} (hT : T.Lawful) {c : Config} {p sh pw : F64} (hp : p.isZero = true)
    (hsh : LegalValue c .shape sh) (hpw : LegalValue c .pulseWidth pw) (he : F64.lt F64.zero (warpExponent T pw) = true) :
    morph T p sh pw = F64.negOne := by
  obtain ⟨hshf, h0, h2⟩ := hsh
  have hpw0 : F64.le F64.zero pw = true := F64.le_trans (by decide) hpw.2.1
  cases hlt : F64.lt sh F64.one with
  | true => rw [morph_of_lt hlt, wsaw_of_isZero hT hp he, saw_of_isZero hp, shares_below_one h0 hlt]
  | false =>
    have h1 := F64.le_of_not_lt (F64.not_isNaN_of_isFinite hshf) (by decide) hlt
    rw [morph_of_not_lt hlt, saw_of_isZero hp, square_of_isZero hp hpw0, shares_from_one h1 h2]

end Sys2Proof.Machine

namespace Sys2Proof

/-- The constants of a well-formed configuration that the oscillators and the reverb weigh with (00_scope.md R7). -/
structure Config.ConstantsOk (c : Config) : Prop where
  fastDecay_isFinite : c.raw.fastDecay.isFinite = true
  fastDecay_pos : F64.lt F64.zero c.raw.fastDecay = true
  detuneK_isFinite : c.raw.detuneK.isFinite = true
  apDecay_isFinite : c.raw.apDecay.isFinite = true
  combDecayOffset_ok : c.raw.combDecayOffset.toList.all RawConfig.combDecayOk = true

theorem Config.constantsOk (c : Config) : c.ConstantsOk := by
  have h := c.wf
  simp only [RawConfig.wf, Bool.and_eq_true] at h
  constructor <;> tauto

end Sys2Proof

namespace Sys2Proof.Machine

/-- The played phase of phase 0 at time 0 is a zero: its factor is finite. -/
theorem playedPhase_zero {T : Transc} (hT : T.Lawful) {c : Config} {pd : F64} (hpd : LegalValue c .phaseDrop pd) :
    (playedPhase T c F64.zero pd F64.zero).isZero = true := by
  have henv : fastEnv T c F64.zero = F64.one :=
    env_zero hT c.constantsOk.fastDecay_isFinite c.constantsOk.fastDecay_pos
  have hfactor : (F64.one.add pd).isFinite = true := F64.add_isFinite (by rw [F64.one_units]) hpd.1
  rw [playedPhase, henv, F64.mul_one hpd.1]
  exact F64.isZero_mul_of_isFinite F64.zero_isZero hfactor

/-- The unison of a phase that is a zero: the detuned phases are zeros too, their factors being finite. -/
theorem unison_of_isZero {T : Transc} (hT : T.Lawful) {c : Config} {p s sh pw : F64} (hp : p.isZero = true)
    (hs : LegalValue c .detuneSpread s) (hsh : LegalValue c .shape sh) (hpw : LegalValue c .pulseWidth pw)
    (he : F64.lt F64.zero (warpExponent T pw) = true) : unison T c p s sh pw = F64.negOne := by
  obtain ⟨hsf, hs1⟩ := F64.units_le_of_unit_interval hs.2.1 hs.2.2
  have hk := c.constantsOk.detuneK_isFinite
  have hks : (c.raw.detuneK.mul s).isFinite = true :=
    (F64.isFinite_iff _).2 ((F64.mul_mag_le hk hsf hs1).trans_lt ((F64.isFinite_iff _).1 hk))
  have hone : F64.one.units ≤ F64.unit := by rw [F64.one_units]
  have hz : ∀ r : F64, r.isFinite = true → morph T (p.mul r) sh pw = F64.negOne := fun r hr =>
    morph_of_isZero hT (F64.isZero_mul_of_isFinite hp hr) hsh hpw he
  unfold unison
  split
  · exact morph_of_isZero hT hp hsh hpw he
  · simp only [morph_of_isZero hT hp hsh hpw he, hz _ (F64.add_isFinite hone hks),
      hz (F64.one.sub (c.raw.detuneK.mul s)) (F64.add_isFinite hone (by rwa [F64.neg_isFinite]))]
    decide +kernel

/-- Settles O46: the played phase is a zero, where every waveform stands at −1.0, and so do their morph and their unison. -/
theorem oscillatorStartsAtMinusOne : Obligations.OscillatorStartsAtMinusOne :=
  fun _ _ _ _ _ _ hT hpd hs hsh hpw he => unison_of_isZero hT (playedPhase_zero hT hpd) hs hsh hpw he

end Sys2Proof.Machine
end

section
/-! Proofs: the normalisation of a kernel's output, and a kernel over zeros (46_reverb.md R239, R244). -/

namespace Sys2Proof.Machine

/-! ### The peak -/

/-- One comparison of the search for the peak. -/
abbrev peakStep (m x : F64) : F64 := if F64.lt m x.abs then x.abs else m

/-- What the search from `m` over finite samples has found: a value that is `m` or a sample's magnitude, and no less than any. -/
structure PeakFrom (m : F64) (p : List F64) (top : F64) : Prop where
  isFinite : top.isFinite = true
  sign : top.sign = false
  start_le : m.mag ≤ top.mag
  mem_le : ∀ x ∈ p, x.mag ≤ top.mag
  attained : top = m ∨ ∃ x ∈ p, x.abs = top

theorem peakStep_spec {m x : F64} (hm : m.isFinite = true) (hs : m.sign = false) (hx : x.isFinite = true) :
    (peakStep m x).isFinite = true ∧ (peakStep m x).sign = false ∧ m.mag ≤ (peakStep m x).mag ∧
      x.mag ≤ (peakStep m x).mag ∧ (peakStep m x = m ∨ peakStep m x = x.abs) := by
  have hxf : x.abs.isFinite = true := by rwa [F64.isFinite_iff, F64.abs_mag, ← F64.isFinite_iff]
  have hlt : F64.lt m x.abs = true ↔ m.mag < x.mag := by
    rw [F64.lt_iff, F64.key_of_pos hs, F64.key_of_pos (F64.abs_sign x), F64.abs_mag]
    simp [F64.not_isNaN_of_isFinite hm, F64.not_isNaN_of_isFinite hxf]
  by_cases h : F64.lt m x.abs = true
  · rw [peakStep, if_pos h, F64.abs_mag]
    exact ⟨hxf, F64.abs_sign x, (hlt.1 h).le, le_rfl, .inr rfl⟩
  · rw [peakStep, if_neg h]
    exact ⟨hm, hs, le_rfl, not_lt.1 (mt hlt.2 h), .inl rfl⟩

theorem foldl_peakStep {p : List F64} (hp : ∀ x ∈ p, x.isFinite = true) {m : F64} (hm : m.isFinite = true)
    (hs : m.sign = false) : PeakFrom m p (p.foldl peakStep m) := by
  induction p generalizing m with
  | nil => exact ⟨hm, hs, le_rfl, nofun, .inl rfl⟩
  | cons x p ih =>
    obtain ⟨hf, hs', hle, hx, heq⟩ := peakStep_spec hm hs (hp x List.mem_cons_self)
    obtain ⟨hfin, hsign, hstart, hmem, hatt⟩ := ih (fun y hy => hp y (List.mem_cons_of_mem x hy)) hf hs'
    refine ⟨hfin, hsign, hle.trans hstart, fun y hy => ?_, ?_⟩
    · rcases List.mem_cons.1 hy with rfl | hy
      · exact hx.trans hstart
      · exact hmem y hy
    · rcases hatt with h | ⟨y, hy, h⟩
      · rcases heq with h' | h'
        · exact .inl (h.trans h')
        · exact .inr ⟨x, List.mem_cons_self, (h.trans h').symm⟩
      · exact .inr ⟨y, List.mem_cons_of_mem x hy, h⟩

theorem peak_spec {p : List F64} (hp : ∀ x ∈ p, x.isFinite = true) : PeakFrom F64.zero p (peak p) :=
  foldl_peakStep hp F64.zero_isFinite F64.zero_sign

theorem peak_isZero_iff {p : List F64} (hp : ∀ x ∈ p, x.isFinite = true) :
    (peak p).isZero = true ↔ ∀ x ∈ p, x.isZero = true := by
  have h := peak_spec hp
  refine ⟨fun h0 x hx => ?_, fun h0 => ?_⟩
  · rw [F64.isZero_iff] at h0 ⊢
    exact Nat.eq_zero_of_le_zero (h0 ▸ h.mem_le x hx)
  · rcases h.attained with he | ⟨x, hx, he⟩
    · rw [he]
      exact F64.zero_isZero
    · rw [← he, F64.isZero_iff, F64.abs_mag]
      exact (F64.isZero_iff x).1 (h0 x hx)

/-! ### The normalisation -/

theorem normalise_of_isZero {p : List F64} (h : (peak p).isZero = true) : normalise p = p :=
  if_pos (F64.eq_zero_of_isZero h)

theorem normalise_of_not_isZero {p : List F64} (hs : (peak p).sign = false) (h : (peak p).isZero = false) :
    normalise p = p.map fun x => x.div (peak p) := by
  refine if_neg fun he => ?_
  obtain ⟨-, -, hk⟩ := (F64.eq_iff _ _).1 he
  rw [F64.key_of_pos hs, F64.key_of_isZero F64.zero_isZero, Int.natCast_eq_zero] at hk
  rw [(F64.isZero_iff _).2 hk] at h
  cases h

/-- A value divided by its own magnitude is 1.0 or −1.0. -/
theorem abs_div_abs {x m : F64} (hx : x.isFinite = true) (hm : m.isFinite = true) (h0 : m.isZero = false) (h : x.abs = m) :
    (x.div m).abs = F64.one := by
  have hu : x.units = m.units := by rw [← h, F64.units, F64.units, F64.abs_mag]
  have hexact := F64.magOfRatio_exact F64.one.mag m.units (F64.units_pos_of_not_isZero h0) (by decide)
  refine F64.ext_sign_mag ((F64.abs_sign _).trans F64.one_sign.symm) ?_
  rw [F64.abs_mag, F64.div_finite_mag hx hm h0, hu, Nat.mul_comm, ← F64.one_units]
  exact hexact

/-- Settles O56: the peak is a sample's magnitude and no sample's is larger, and a quotient by it rounds to 1.0 at most. -/
theorem normalisedPeakIsOne : Obligations.NormalisedPeakIsOne := by
  intro p hp
  have hpk := peak_spec hp
  refine ⟨peak_isZero_iff hp, normalise_of_isZero, fun h0 => ?_⟩
  rw [normalise_of_not_isZero hpk.sign h0]
  refine ⟨rfl, ?_, fun y hy => ?_⟩
  · rcases hpk.attained with he | ⟨x, hx, he⟩
    · rw [he, F64.zero_isZero] at h0
      cases h0
    · exact ⟨_, List.mem_map_of_mem hx, abs_div_abs (hp x hx) hpk.isFinite h0 he⟩
  · obtain ⟨x, hx, rfl⟩ := List.mem_map.1 hy
    refine F64.le_one_of_mag_le ?_
    rw [F64.abs_mag]
    exact F64.div_mag_le_one (hp x hx) hpk.isFinite h0 (F64.units_le_iff.2 (hpk.mem_le x hx))

/-! ### Buffers of zeros -/

/-- Every sample is a zero, of either sign. -/
abbrev AllZero (xs : List F64) : Prop := ∀ x ∈ xs, x.isZero = true

theorem isZero_add {x y : F64} (hx : x.isZero = true) (hy : y.isZero = true) : (x.add y).isZero = true := by
  rw [F64.add_of_isZero_of_isZero hx hy, F64.isZero_iff, F64.mag_mk' _ _ (by decide)]

theorem isZero_mul_right {x y : F64} (hx : x.isFinite = true) (hy : y.isZero = true) : (x.mul y).isZero = true := by
  rw [F64.mul_comm_of_isFinite hx (F64.isFinite_of_isZero hy)]
  exact F64.isZero_mul_of_isFinite hy hx

theorem AllZero.at' {xs : List F64} (h : AllZero xs) (i : Nat) : (at' xs i).isZero = true := by
  unfold Machine.at'
  rcases Nat.lt_or_ge i xs.length with hi | hi
  · rw [List.getD_eq_getElem _ _ hi]
    exact h _ (List.getElem_mem hi)
  · rw [List.getD_eq_default _ _ hi]
    exact F64.zero_isZero

/-- What holds of a list's elements and of a value holds of them with the value put anywhere. -/
theorem forall_mem_set {α : Type} {Q : α → Prop} {xs : List α} (h : ∀ x ∈ xs, Q x) {x : α} (hx : Q x) (i : Nat) :
    ∀ y ∈ xs.set i x, Q y :=
  fun y hy => (List.mem_or_eq_of_mem_set hy).elim (h y) fun he => he ▸ hx

theorem AllZero.set {xs : List F64} (h : AllZero xs) (i : Nat) {x : F64} (hx : x.isZero = true) : AllZero (xs.set i x) :=
  forall_mem_set h hx i

theorem AllZero.zipWith {f : F64 → F64 → F64}
    (hf : ∀ x y : F64, x.isZero = true → y.isZero = true → (f x y).isZero = true) {xs ys : List F64}
    (hx : AllZero xs) (hy : AllZero ys) : AllZero (List.zipWith f xs ys) := by
  intro z hz
  rw [← List.map_uncurry_zip_eq_zipWith] at hz
  obtain ⟨⟨x, y⟩, hxy, rfl⟩ := List.mem_map.1 hz
  exact hf x y (hx x (List.of_mem_zip hxy).1) (hy y (List.of_mem_zip hxy).2)

theorem AllZero.comb {xs : List F64} (h : AllZero xs) (d : Nat) {g : F64} (hg : g.isFinite = true) : AllZero (comb xs d g) :=
  forUpTo_induction AllZero _ _ _ h fun i _ _ hb =>
    hb.set _ (isZero_add (hb.at' _) (F64.isZero_mul_of_isFinite (hb.at' i) hg))

theorem AllZero.allpassTerm {p : List F64} (h : AllZero p) {k : F64} (hk : k.isFinite = true) (i : Nat) (j : Int) :
    AllZero (allpassTerm p k i j) := by
  unfold Machine.allpassTerm
  split
  · exact h.set _ (isZero_add (h.at' i) (isZero_mul_right hk (h.at' _)))
  · exact h

theorem AllZero.allpass {p : List F64} (h : AllZero p) (D : Int) {a : F64} (ha : a.isFinite = true) (L : Int) :
    AllZero (allpass p D a L) :=
  forUpTo_induction AllZero _ _ _ h fun i _ _ hb => (hb.allpassTerm (by rwa [F64.neg_isFinite]) i _).allpassTerm ha i _

end Sys2Proof.Machine

namespace Sys2Proof

/-- Every comb decay offset is finite (00_scope.md R7). -/
theorem Config.combDecayOffset_isFinite (c : Config) (j : Fin 4) : c.raw.combDecayOffset[j].isFinite = true := by
  have hmem := Vector.mem_toList_iff.2 (Vector.getElem_mem (xs := c.raw.combDecayOffset) j.isLt)
  have hok := List.all_eq_true.1 c.constantsOk.combDecayOffset_ok _ hmem
  simp only [RawConfig.combDecayOk, Bool.and_eq_true] at hok
  exact hok.1.1

end Sys2Proof

namespace Sys2Proof.Machine

/-- A comb's decay is finite for a legal decay parameter, which is below 1.0. -/
theorem combDecay_isFinite {c : Config} {P : Vector ParamReg 12} (h : LegalValue c .reverbDecay (resolve P .reverbDecay 0))
    (j : Fin 4) : (combDecay c P j).isFinite = true := by
  obtain ⟨-, h0, h1⟩ := h
  have hmax : F64.le (ParamId.max c .reverbDecay) F64.one = true := by
    simp only [ParamId.max]
    decide
  obtain ⟨-, hu⟩ := F64.units_le_of_unit_interval h0 (F64.le_trans h1 hmax)
  exact F64.add_isFinite hu (c.combDecayOffset_isFinite j)

theorem AllZero.combSum_combBank {c : Config} {P : Vector ParamReg 12} {dry : List F64} (h : AllZero dry)
    (hdecay : LegalValue c .reverbDecay (resolve P .reverbDecay 0)) : AllZero (combSum (combBank c P dry)) := by
  have hcomb := fun j => h.comb (combDelay c P j) (combDecay_isFinite hdecay j)
  have hadd : ∀ x y : F64, x.isZero = true → y.isZero = true → (x.add y).isZero = true := fun _ _ => isZero_add
  exact (((hcomb 0).zipWith hadd (hcomb 1)).zipWith hadd (hcomb 2)).zipWith hadd (hcomb 3)

/-- The mix weighs with 1.0 − mix and mix, both finite. -/
theorem AllZero.mixDry {mix : F64} (hmix : mix.isFinite = true) {dry combs : List F64} (hd : AllZero dry)
    (hc : AllZero combs) : AllZero (mixDry mix dry combs) := by
  have hrest : (F64.one.sub mix).isFinite = true := F64.add_isFinite (by rw [F64.one_units]) (by rwa [F64.neg_isFinite])
  exact hd.zipWith (fun _ _ hx hy => isZero_add (isZero_mul_right hrest hx) (isZero_mul_right hmix hy)) hc

theorem AllZero.allpassCascade {p : List F64} (h : AllZero p) (c : Config) : AllZero (allpassCascade c p) :=
  forUpTo_induction AllZero _ _ _ h fun _ _ _ hb => hb.allpass _ c.constantsOk.apDecay_isFinite _

/-- Settles O57: every stage of a kernel weighs with finite values, so that zeros stay zeros, whose peak is 0. -/
theorem silentKernelStaysSilent : Obligations.SilentKernelStaysSilent := by
  intro c P dry hmix hdecay hdry
  have hout := (AllZero.mixDry hmix.1 hdry (AllZero.combSum_combBank hdry hdecay)).allpassCascade c
  have hpeak := (peak_isZero_iff fun x hx => F64.isFinite_of_isZero (hout x hx)).2 hout
  rw [kernelProc, normalise_of_isZero hpeak]
  exact hout

end Sys2Proof.Machine
end

section
/-! Proofs: the synthesis, the filter and the bitcrusher of a block, frame by frame (42_voicebank.md R153 to R156,
44_filter.md R200 to R205, 45_bitcrusher.md R220 to R222). -/

namespace Sys2Proof.Machine

/-! ### The synthesis -/

/-- Frame `i + k` sums the voices after `k` advances. -/
theorem synthFrames_syn (T : Transc) (c : Config) (P : Vector ParamReg 12) (clock : Word) (n i : Nat) (vs : List Voice) :
    (synthFrames T c P clock n i vs).syn =
      (List.range n).map fun k => sumVoices T c P clock (i + k) ((List.map (Voice.advance c))^[k] vs) := by
  induction n generalizing i vs with
  | zero => rfl
  | succ n ih =>
    rw [synthFrames, ih, List.range_succ_eq_map, List.map_cons, List.map_map]
    refine congrArg (sumVoices T c P clock i vs :: ·) (List.map_congr_left fun k _ => ?_)
    simp [Nat.add_assoc, Nat.add_comm 1]

/-- The inactive voices add nothing to a frame, which is the sum over the active ones. -/
theorem sumVoices_eq_foldl_filter (T : Transc) (c : Config) (P : Vector ParamReg 12) (clock : Word) (i : Nat)
    (vs : List Voice) :
    sumVoices T c P clock i vs =
      (vs.filter Voice.active).foldl (fun acc v => acc.add (voiceTerm T c P clock i v)) F64.zero := by
  rw [List.foldl_filter]
  rfl

/-- The elapsed frames as an integer remainder. -/
theorem elapsedFrames_toNat (clock trig : Word) (i : Nat) :
    (elapsedFrames clock i trig).toNat = (((clock.toNat : Int) + i - trig.toNat) % 2 ^ 64).toNat := by
  have := trig.isLt
  simp only [elapsedFrames, BitVec.toNat_sub, BitVec.toNat_add, BitVec.toNat_ofNat]
  omega

/-- Settles O44: the sum and the advances of the frames, with the terms written out. -/
theorem synthesisSumsEachFrame : Obligations.SynthesisSumsEachFrame := by
  intro T c P clock n i vs seconds envelope played wave osc frame next after
  have hseconds : ∀ j v, seconds j v = elapsed c clock j v := fun j v => by
    rw [elapsed, elapsedFrames_toNat]
  have hframe : ∀ j ws, frame j ws = sumVoices T c P clock j ws := fun j ws => by
    rw [sumVoices_eq_foldl_filter]
    simp only [frame, osc, played, hseconds]
    rfl
  refine ⟨?_, synthFrames_voices T c P clock n i vs⟩
  simp only [synthFrames_syn, hframe]
  rfl

/-! ### The filter -/

/-- A block filtered in two parts: the second starts from the cells that the first leaves. -/
theorem filterFrames_append (T : Transc) (c : Config) (P : Vector ParamReg 12) (xs ys : List F64) (i : Nat) (z : FilterCells) :
    filterFrames T c P (xs ++ ys) i z =
      ⟨(filterFrames T c P xs i z).flt ++
          (filterFrames T c P ys (i + xs.length) (filterFrames T c P xs i z).cells).flt,
        (filterFrames T c P ys (i + xs.length) (filterFrames T c P xs i z).cells).cells⟩ := by
  induction xs generalizing i z with
  | nil => rfl
  | cons x xs ih =>
    rw [List.cons_append, filterFrames, ih, filterFrames, List.length_cons, Nat.add_assoc, Nat.add_comm 1]
    rfl

@[simp] theorem filterFrames_flt_length (T : Transc) (c : Config) (P : Vector ParamReg 12) (xs : List F64) (i : Nat)
    (z : FilterCells) : (filterFrames T c P xs i z).flt.length = xs.length := by
  induction xs generalizing i z with
  | nil => rfl
  | cons x xs ih => exact congrArg (· + 1) (ih (i + 1) _)

/-- Frame `k` of a block and the cells after it, from the cells that the frames before it leave. -/
theorem filterFrames_getElem (T : Transc) (c : Config) (P : Vector ParamReg 12) {xs : List F64} (i : Nat) (z : FilterCells)
    {k : Nat} {x : F64} (h : xs[k]? = some x) :
    (filterFrames T c P xs i z).flt[k]? =
        some (filterFrame T c P x (i + k) (filterFrames T c P (xs.take k) i z).cells).out ∧
      (filterFrames T c P (xs.take (k + 1)) i z).cells =
        (filterFrame T c P x (i + k) (filterFrames T c P (xs.take k) i z).cells).cells := by
  obtain ⟨hk, rfl⟩ := List.getElem?_eq_some_iff.1 h
  have hlen : (xs.take k).length = k := List.length_take_of_le hk.le
  have hsplit : xs = xs.take k ++ xs[k] :: xs.drop (k + 1) := by rw [List.getElem_cons_drop, List.take_append_drop]
  refine ⟨?_, ?_⟩
  · conv_lhs => rw [hsplit]
    rw [filterFrames_append, List.getElem?_append_right (by simp [hlen]), filterFrames_flt_length, hlen, Nat.sub_self]
    rfl
  · rw [List.take_succ_eq_append_getElem hk, filterFrames_append, hlen]
    rfl

/-- Settles O50: the formulas are the definitions', and a block split before frame `k` and after it says how cells pass on. -/
theorem filterBlockFollowsRecursion : Obligations.FilterBlockFollowsRecursion := by
  refine fun T c P => ⟨fun fc hfc => ?_, fun x g => rfl, fun x n w => rfl, fun xs i z => ?_⟩
  · exact if_neg (by rw [hfc]; decide)
  · refine ⟨filterFrames_flt_length T c P xs i z, rfl, ?_, fun k x hx => filterFrames_getElem T c P i z hx⟩
    simp only [List.take_length]

/-! ### The groups of the bitcrusher -/

theorem holdFactor_eq (P : Vector ParamReg 12) (g : Nat) :
    (holdFactor P g : Int) = max 1 (min (resolve P .crushFactor g).roundHalfUp 128) :=
  Int.toNat_of_nonneg (Int.le_trans (by decide) (Int.le_max_left 1 _))

theorem holdFactor_mem (P : Vector ParamReg 12) (g : Nat) : 1 ≤ holdFactor P g ∧ holdFactor P g ≤ 128 := by
  have := holdFactor_eq P g
  omega

/-- `roundHalfUp` answers the integer within half a unit, the larger at a tie (00_scope.md R11). -/
theorem roundHalfUp_mem {x : F64} (hx : x.isFinite = true) :
    (2 * x.roundHalfUp - 1) * F64.unit ≤ 2 * x.signedUnits ∧ 2 * x.signedUnits < (2 * x.roundHalfUp + 1) * F64.unit := by
  have hunit : (0 : Int) < F64.unit := by exact_mod_cast F64.unit_pos
  have hr : x.roundHalfUp = (2 * x.signedUnits + F64.unit) / (2 * F64.unit) := if_pos hx
  have hlo := Int.ediv_mul_le (2 * x.signedUnits + F64.unit) (b := 2 * F64.unit) (by omega)
  have hhi := Int.lt_ediv_add_one_mul_self (2 * x.signedUnits + F64.unit) (show (0 : Int) < 2 * F64.unit by omega)
  rw [← hr] at hlo hhi
  have h1 : (2 * x.roundHalfUp - 1) * F64.unit = x.roundHalfUp * (2 * F64.unit) - F64.unit := by ring
  have h2 : (2 * x.roundHalfUp + 1) * F64.unit = (x.roundHalfUp + 1) * (2 * F64.unit) - F64.unit := by ring
  rw [h1, h2]
  omega

/-- The start of the group after the one that starts at frame `g` (45_bitcrusher.md R221). -/
abbrev nextGroup (P : Vector ParamReg 12) (g : Nat) : Nat := g + holdFactor P g

theorem lt_nextGroup (P : Vector ParamReg 12) (g : Nat) : g < nextGroup P g :=
  Nat.lt_add_of_pos_right (holdFactor_mem P g).1

theorem le_iterate_nextGroup (P : Vector ParamReg 12) (m g : Nat) : g ≤ (nextGroup P)^[m] g :=
  Function.id_le_iterate_of_id_le (fun g => (lt_nextGroup P g).le) m g

/-- Group starts rise, so that every frame from the first on stands in a group. -/
theorem exists_group (P : Vector ParamReg 12) (j : Nat) : ∃ m, (nextGroup P)^[m] 0 ≤ j ∧ j < (nextGroup P)^[m + 1] 0 := by
  induction j with
  | zero => exact ⟨0, le_rfl, lt_nextGroup P 0⟩
  | succ j ih =>
    obtain ⟨m, hlo, hhi⟩ := ih
    rcases Nat.lt_or_ge (j + 1) ((nextGroup P)^[m + 1] 0) with h | h
    · exact ⟨m, Nat.le_succ_of_le hlo, h⟩
    · refine ⟨m + 1, h, ?_⟩
      rw [Function.iterate_succ_apply' _ (m + 1)]
      exact lt_of_le_of_lt hhi (lt_nextGroup P _)

/-- The frames from a group start on, as many as the block still has. -/
theorem crushFrom_length (P : Vector ParamReg 12) (q : Nat) (flt : List F64) {fuel g : Nat} (h : q ≤ g + fuel) :
    (crushFrom P q flt fuel g).length = q - g := by
  induction fuel generalizing g with
  | zero => exact (Nat.sub_eq_zero_of_le h).symm
  | succ fuel ih =>
    have hnext := (holdFactor_mem P g).1
    unfold crushFrom
    split
    · rw [List.length_append, List.length_replicate, ih (by omega)]
      omega
    · rw [List.length_nil]
      omega

/-- The frame at which each frame of the block is held: the start of its group. -/
theorem crushFrom_getElem (P : Vector ParamReg 12) (q : Nat) (flt : List F64) {fuel g m j : Nat} (hfuel : q ≤ g + fuel)
    (hlo : (nextGroup P)^[m] g ≤ j) (hhi : j < (nextGroup P)^[m + 1] g) (hj : j < q) (hg : g ≤ j) :
    (crushFrom P q flt fuel g)[j - g]? = some (at' flt ((nextGroup P)^[m] g)) := by
  induction fuel generalizing g m with
  | zero => omega
  | succ fuel ih =>
    have hpos := (holdFactor_mem P g).1
    rw [crushFrom, if_pos (hg.trans_lt hj)]
    cases m with
    | zero =>
      have hj' : j < g + holdFactor P g := hhi
      rw [List.getElem?_append_left (by rw [List.length_replicate]; omega), List.getElem?_replicate_of_lt (by omega)]
      rfl
    | succ m =>
      rw [Function.iterate_succ_apply] at hlo hhi ⊢
      have hnext : g + holdFactor P g ≤ j := (le_iterate_nextGroup P m _).trans hlo
      rw [List.getElem?_append_right (by rw [List.length_replicate]; omega), List.length_replicate]
      have hidx : j - g - (min (g + holdFactor P g) q - g) = j - (g + holdFactor P g) := by omega
      rw [hidx]
      exact ih (by omega) hlo hhi hnext

/-- Group starts are multiples of a hold factor that is the same at every frame of the block. -/
theorem iterate_nextGroup_of_constant {P : Vector ParamReg 12} {n h : Nat} (hc : ∀ g < n, holdFactor P g = h) {m : Nat}
    (hm : (nextGroup P)^[m] 0 < n) : (nextGroup P)^[m] 0 = h * m := by
  induction m with
  | zero => rfl
  | succ m ih =>
    rw [Function.iterate_succ_apply'] at hm ⊢
    have hlt := (lt_nextGroup P ((nextGroup P)^[m] 0)).trans hm
    rw [nextGroup, hc _ hlt, ih hlt, Nat.mul_succ]

theorem crush_length (P : Vector ParamReg 12) (q : Nat) (flt : List F64) : (crush P q flt).length = q :=
  crushFrom_length P q flt (Nat.le_add_left q 0)

/-- A frame holds the first frame of its group. -/
theorem crush_getElem (P : Vector ParamReg 12) (flt : List F64) {m j : Nat} (hlo : (nextGroup P)^[m] 0 ≤ j)
    (hhi : j < (nextGroup P)^[m + 1] 0) (hj : j < flt.length) :
    (crush P flt.length flt)[j]? = flt[(nextGroup P)^[m] 0]? := by
  have h := crushFrom_getElem P flt.length flt (Nat.le_add_left _ 0) hlo hhi hj (Nat.zero_le j)
  rw [Nat.sub_zero] at h
  rw [crush, h, at', List.getD_eq_getElem _ _ (hlo.trans_lt hj), List.getElem?_eq_getElem (hlo.trans_lt hj)]

/-- A frame of a block with one hold factor `h` holds frame `j / h * h`. -/
theorem crush_getElem_of_constant {P : Vector ParamReg 12} {flt : List F64} {h j : Nat}
    (hc : ∀ g < flt.length, holdFactor P g = h) (hj : j < flt.length) :
    (crush P flt.length flt)[j]? = flt[j / h * h]? := by
  obtain ⟨m, hlo, hhi⟩ := exists_group P j
  have hstart := iterate_nextGroup_of_constant hc (hlo.trans_lt hj)
  have hnext : (nextGroup P)^[m + 1] 0 = h * (m + 1) := by
    rw [Function.iterate_succ_apply', nextGroup, hc _ (hlo.trans_lt hj), hstart, Nat.mul_succ]
  have hdiv : j / h = m := Nat.div_eq_of_lt_le (by rwa [Nat.mul_comm, ← hstart]) (by rwa [Nat.mul_comm, ← hnext])
  rw [crush_getElem P flt hlo hhi hj, hstart, hdiv, Nat.mul_comm]

/-- Settles O51: the groups cover the block, each frame holds its group's first, and one hold factor makes the starts
multiples. -/
theorem crushHoldsFirstFrame : Obligations.CrushHoldsFirstFrame := by
  intro P flt cru start
  refine ⟨holdFactor_eq P, fun x => roundHalfUp_mem, holdFactor_mem P, crush_length P _ flt, fun j _ => exists_group P j,
    fun m j hlo hhi hj => crush_getElem P flt hlo hhi hj, fun h hc => ⟨fun j => crush_getElem_of_constant hc, ?_⟩⟩
  rintro rfl
  refine List.ext_getElem? fun j => ?_
  rcases Nat.lt_or_ge j flt.length with hj | hj
  · rw [crush_getElem_of_constant hc hj, Nat.div_one, Nat.mul_one]
  · rw [List.getElem?_eq_none hj, List.getElem?_eq_none ((crush_length P _ flt).trans_le hj)]

end Sys2Proof.Machine
end

section
/-! Proofs: the invariants of the queue, the parameters and the voices (10_state.md R34, R37, R38, R44). -/

namespace Sys2Proof

/-- The sizes of a well-formed configuration (00_scope.md R7). -/
theorem Config.sizes (c : Config) :
    1 ≤ c.raw.numVoices ∧ 1 ≤ c.raw.quantum ∧ c.raw.quantum ≤ c.raw.kernel ∧
      c.raw.kernel + c.raw.quantum ≤ c.raw.rbLen := by
  have h := c.wf
  simp only [RawConfig.wf, Bool.and_eq_true, decide_eq_true_eq] at h
  tauto

theorem Config.rbLen_pos (c : Config) : 0 < c.raw.rbLen := by
  have := c.sizes
  omega

theorem Config.kernel_pos (c : Config) : 0 < c.raw.kernel := by
  have := c.sizes
  omega

theorem ParamId.index_ofIndex : ∀ k : Fin 12, (ParamId.ofIndex k).index = k := by decide

end Sys2Proof

namespace Sys2Proof.Machine

/-! ### What an invariant of the render state has to survive -/

/-- All of the state that only a RENDER and the release of RESET write is the same. -/
abbrev SameRenderState (s t : State) : Prop :=
  t = { s with
    cq := t.cq
    rejects := t.rejects
    phase := t.phase
    inReset := t.inReset
    controlOut := t.controlOut
    inputs := t.inputs
    freeIdx := t.freeIdx }

theorem Served.keeps {Q : State → Prop} {s t : State} (h : Served s t) (hQ : Q s) (hsame : ∀ u, SameRenderState s u → Q u)
    (hstart : Q (renderStart s)) (hfinish : ∀ u, Q u → Q (renderFinish theTransc u)) (hreset : Q s.resetAll) : Q t := by
  cases h with
  | same => exact hQ
  | rendered => exact hfinish _ hstart
  | began => exact hstart
  | finished => exact hfinish _ hQ
  | released => exact hreset
  | answered | rejected | queued | notServed | drained | asserted => exact hsame _ rfl

/-- A property of the render state that the drain, the stages and the reset state keep is kept by every step. -/
theorem step_keeps {Q : State → Prop} {s t : State} (h : step s = .next t) (hQ : Q s)
    (hsame : ∀ u v, SameRenderState u v → Q u → Q v) (hstart : ∀ rest, Q (renderStart (s.pop rest)))
    (hfinish : ∀ u, Q u → Q (renderFinish theTransc u)) (hreset : ∀ rest, Q (s.pop rest).resetAll) : Q t := by
  rcases step_cases h with ⟨_, rfl⟩ | ⟨e, rest, _, h⟩
  · exact hQ
  · have hpop : Q (s.pop rest) := hsame s _ rfl hQ
    exact (serve_cases h).keeps hpop (fun u hu => hsame _ u hu hpop) (hstart rest) hfinish (hreset rest)

/-! ### The queue (R44) -/

theorem QueueInv.of_nil {s : State} (hcq : s.cq = []) (hp : s.phase.removing ≤ s.cfg.raw.qcap) : QueueInv s := by
  refine ⟨?_, hp, ?_⟩
  · simp [State.queueWords, hcq]
  · simp [hcq]

theorem QueueInv.renderStart {s : State} (h : QueueInv s) : QueueInv (renderStart s) := by
  refine .of_nil rfl ?_
  rw [renderStart_cfg]
  exact h.1

theorem QueueInv.renderFinish {T : Transc} {s : State} (h : QueueInv s) : QueueInv (renderFinish T s) :=
  ⟨h.1, Nat.zero_le _, h.2.2⟩

theorem QueueInv.append {s : State} {p : Queued} (h : QueueInv s) (hv : Queued.valid s.cfg p = true)
    (hroom : s.occupied + p.size ≤ s.cfg.raw.qcap) : QueueInv ((s.append p).reply .accepted []) := by
  obtain ⟨-, hrem, hvalid⟩ := h
  have hwords := s.occupied_bounds.1
  refine ⟨?_, hrem, fun r hr => ?_⟩
  · have hsize : ((s.append p).reply .accepted []).queueWords = s.queueWords + p.size := s.append_queueWords p
    rw [hsize]
    exact (Nat.add_le_add_right hwords _).trans hroom
  · rcases List.mem_append.1 hr with hr | hr
    · exact hvalid r hr
    · rw [List.mem_singleton.1 hr]
      exact hv

/-- Settles O28: a packet is queued only if it fits beside all that is queued, and a drain found what CQ held. -/
theorem stepKeepsQueueInv : Obligations.StepKeepsQueueInv := by
  intro s t hs h
  refine step_induction QueueInv h hs (fun _ _ hq => hq) fun u v hu hv => ?_
  cases hv with
  | queued p hv hroom => exact hu.append hv hroom
  | rendered => exact hu.renderStart.renderFinish
  | began => exact hu.renderStart
  | finished => exact hu.renderFinish
  | drained => exact ⟨hu.1, Nat.zero_le _, hu.2.2⟩
  | released => exact .of_nil rfl (Nat.zero_le _)
  | same | answered | rejected | notServed | asserted => exact hu

/-! ### The parameters (R38) -/

/-- Every parameter's register is sound. -/
abbrev ParamsSound (s : State) : Prop := ∀ id : ParamId, ParamReg.Sound s.cfg id (s.param id)

theorem State.param_ofIndex (s : State) (k : Fin 12) : s.param (ParamId.ofIndex k) = s.params[k] := by
  simp only [State.param, ParamId.index_ofIndex]

theorem paramsSound_iff (s : State) :
    ParamsSound s ↔ ∀ k : Fin 12, ParamReg.Sound s.cfg (ParamId.ofIndex k) s.params[k] := by
  refine ⟨fun h k => ?_, fun h id => ?_⟩
  · have hk := h (ParamId.ofIndex k)
    rwa [State.param_ofIndex] at hk
  · have hk := h id.index
    rwa [ParamId.ofIndex_index] at hk

theorem ParamsSound.setParam {s : State} (h : ParamsSound s) {id : ParamId} {p : ParamReg} (hp : ParamReg.Sound s.cfg id p) :
    ParamsSound (s.setParam id p) := by
  intro other
  rw [State.setParam_param]
  split
  · next he => rw [he]; exact hp
  · exact h other

/-- Any write stores legal values, an a-rate one in all QUANTUM elements of the array. -/
theorem ParamsSound.applyQueued {s : State} (h : ParamsSound s) {p : Queued} (hv : Queued.valid s.cfg p = true) :
    ParamsSound (applyQueued s p) := by
  cases p with
  | noteon f u => exact h
  | paramK id x =>
    obtain ⟨hlen, -, -⟩ := h id
    exact h.setParam ⟨hlen, id.norm_legal s.cfg x, nofun⟩
  | paramA id xs =>
    obtain ⟨-, hk, -⟩ := h id
    have hlen : xs.length = s.cfg.raw.quantum := of_decide_eq_true hv
    refine h.setParam ⟨(List.length_map _).trans hlen, hk, fun _ y hy => ?_⟩
    obtain ⟨x, -, rfl⟩ := List.mem_map.1 hy
    exact id.norm_legal s.cfg x

theorem ParamsSound.drain {s : State} (h : ParamsSound s) (hq : QueueInv s) : ParamsSound (drain s) := by
  have hboth := drain_induction (fun t => t.cfg = s.cfg ∧ ParamsSound t) (fun p => Queued.valid s.cfg p = true) s hq.2.2
    ⟨rfl, h⟩ (fun t p hv ht => ⟨(applyQueued_cfg t p).trans ht.1, ht.2.applyQueued (ht.1 ▸ hv)⟩) fun _ ht => ht
  exact hboth.2

theorem at'_mem {xs : List F64} {i : Nat} (h : i < xs.length) : at' xs i ∈ xs := by
  rw [at', List.getD_eq_getElem _ _ h]
  exact List.getElem_mem h

/-- A reverted register holds the last element of its array, a legal value. -/
theorem ParamReg.Sound.revert {c : Config} {id : ParamId} {p : ParamReg} (h : ParamReg.Sound c id p) :
    ParamReg.Sound c id (p.revert c.raw.quantum) := by
  obtain ⟨hlen, hk, ha⟩ := h
  cases hm : p.mode with
  | k =>
    rw [ParamReg.revert_of_k _ hm]
    exact ⟨hlen, hk, ha⟩
  | a =>
    rw [ParamReg.revert_of_a _ hm]
    have hq := c.sizes.2.1
    exact ⟨hlen, ha hm _ (at'_mem (by omega)), nofun⟩

theorem ParamsSound.renderFinish {T : Transc} {s : State} (h : ParamsSound s) : ParamsSound (renderFinish T s) := by
  intro id
  rw [renderFinish_param]
  exact (h id).revert

theorem ParamsSound.ofConfig (c : Config) : ParamsSound (State.ofConfig c) := by
  intro id
  rw [State.ofConfig_param]
  exact ⟨List.length_replicate, id.default_legal c, nofun⟩

/-- Settles O29: each write normalises, and the reversion takes a value that a write normalised. -/
theorem stepKeepsParamInv : Obligations.StepKeepsParamInv := by
  intro s t ⟨hq, hp⟩ h
  have hsound : ParamsSound t := step_keeps h ((paramsSound_iff s).2 hp) (fun u v hv hu => by rw [hv]; exact hu)
    (fun rest => ParamsSound.drain (s := s.pop rest) ((paramsSound_iff s).2 hp) hq) (fun u hu => hu.renderFinish)
    fun _ => ParamsSound.ofConfig s.cfg
  exact ⟨stepKeepsQueueInv s t hq h, (paramsSound_iff t).1 hsound⟩

theorem resolve_of_k {s : State} {id : ParamId} (i : Nat) (h : (s.param id).mode = .k) :
    resolve s.params id i = (s.param id).kval := by
  rw [State.param] at h
  simp only [resolve, h]
  rfl

theorem resolve_of_a {s : State} {id : ParamId} (i : Nat) (h : (s.param id).mode = .a) :
    resolve s.params id i = at' (s.param id).arr i := by
  rw [State.param] at h
  simp only [resolve, h]
  rfl

/-- Settles O26: either mode looks up a value that the invariant says is legal. -/
theorem resolvedValuesAreLegal : Obligations.ResolvedValuesAreLegal := by
  intro s id i ⟨_, hp⟩ hi
  obtain ⟨hlen, hk, ha⟩ := (paramsSound_iff s).2 hp id
  have hi' : i < (s.param id).arr.length := hlen ▸ hi
  refine ⟨resolve_of_k i, fun hm => ?_, ?_⟩
  · rw [resolve_of_a i hm, at', List.getD_eq_getElem _ _ hi', List.getElem?_eq_getElem hi']
  · cases hm : (s.param id).mode with
    | k => rw [resolve_of_k i hm]; exact hk
    | a => rw [resolve_of_a i hm]; exact ha hm _ (at'_mem hi')

/-- Settles O27: the rows are the definitions', and their order was shown with the normalisation. -/
theorem descriptorsAreConsistent : Obligations.DescriptorsAreConsistent :=
  ⟨fun _ => rfl, fun c id =>
    ⟨id.min_isFinite, (id.default_legal c).1, id.max_isFinite c, id.min_le_default c, id.default_le_max c⟩⟩

end Sys2Proof.Machine
end

section
/-! Proofs: the invariants of the voices (10_state.md R34, R37; 42_voicebank.md R152, R156, R158). -/

namespace Sys2Proof.F64

protected theorem eq_comm (x y : F64) : eq x y = eq y x := by
  rw [Bool.eq_iff_iff, eq_iff, eq_iff]
  exact ⟨fun ⟨hx, hy, hk⟩ => ⟨hy, hx, hk.symm⟩, fun ⟨hy, hx, hk⟩ => ⟨hx, hy, hk.symm⟩⟩

end Sys2Proof.F64

namespace Sys2Proof.Machine

/-! ### The voices' keys: what distinct notes are about -/

/-- What tells one note from another. -/
abbrev Voice.note (v : Voice) : Bool × F64 := (v.active, v.freq)

theorem distinctNotes_iff (vs : List Voice) :
    DistinctNotes vs ↔ (vs.map Voice.note).Pairwise fun m n => (m.1 && n.1 && F64.eq m.2 n.2) = false := by
  rw [List.pairwise_map]

theorem distinctNotes_congr {vs ws : List Voice} (h : vs.map Voice.note = ws.map Voice.note) :
    DistinctNotes vs ↔ DistinctNotes ws := by
  rw [distinctNotes_iff, distinctNotes_iff, h]

/-- An element in whose place the relation holds both ways may be put anywhere. -/
theorem pairwise_set {α : Type} {R : α → α → Prop} {xs : List α} {x : α} (h : xs.Pairwise R)
    (hx : ∀ y ∈ xs, R x y ∧ R y x) (i : Nat) : (xs.set i x).Pairwise R := by
  induction xs generalizing i with
  | nil => exact h
  | cons y xs ih =>
    obtain ⟨hy, hxs⟩ := List.pairwise_cons.1 h
    have hx' : ∀ z ∈ xs, R x z ∧ R z x := fun z hz => hx z (List.mem_cons_of_mem y hz)
    cases i with
    | zero => exact List.pairwise_cons.2 ⟨fun z hz => (hx' z hz).1, hxs⟩
    | succ i =>
      refine List.pairwise_cons.2 ⟨fun z hz => ?_, ih hxs hx' i⟩
      rcases List.mem_or_eq_of_mem_set hz with hz | rfl
      · exact hy z hz
      · exact (hx y List.mem_cons_self).2

/-- A voice that sounds the same note may take a voice's place. -/
theorem distinctNotes_set_of_note_eq {vs : List Voice} {m : Nat} {v w : Voice} (hv : vs[m]? = some v) (h : w.note = v.note) :
    DistinctNotes (vs.set m w) ↔ DistinctNotes vs := by
  refine distinctNotes_congr ?_
  have hm : (vs.map Voice.note)[m]? = some v.note := by rw [List.getElem?_map, hv, Option.map_some]
  obtain ⟨hlt, hget⟩ := List.getElem?_eq_some_iff.1 hm
  rw [List.map_set, h, ← hget, List.set_getElem_self]

/-- A note that no voice sounds may take any voice's place. -/
theorem DistinctNotes.set_of_new {vs : List Voice} (h : DistinctNotes vs) {x : Voice}
    (hnew : ∀ v ∈ vs, v.active = true → F64.eq v.freq x.freq = false) (i : Nat) : DistinctNotes (vs.set i x) := by
  refine pairwise_set h (fun w hw => ?_) i
  cases hact : w.active with
  | false => exact ⟨by simp, by simp⟩
  | true =>
    have hne := hnew w hw hact
    exact ⟨by simp [F64.eq_comm x.freq, hne], by simp [hne]⟩

/-! ### The trigger -/

/-- The voices after a trigger: a sounding voice triggered again, or a new one at the cursor in a frequency that none sounds. -/
theorem triggeredVoices_cases (f g : F64) (s : State) :
    (∃ m v, s.voices[m]? = some v ∧ v.active = true ∧
      triggeredVoices f g s = s.voices.set m (v.retrigger g s.clock)) ∨
    ((∀ v ∈ s.voices, v.active = true → F64.eq v.freq f = false) ∧
      triggeredVoices f g s = s.voices.set s.cur ⟨F64.zero, f, g, s.clock, true⟩) := by
  cases hm : soundingVoice f s.voices with
  | some m =>
    obtain ⟨hlt, hv, -⟩ := List.findIdx?_eq_some_iff_getElem.1 hm
    have hget := List.getElem?_eq_getElem hlt
    exact .inl ⟨m, _, hget, ((Voice.sounds_iff f _).1 hv).1, triggeredVoices_of_sounding g hm hget⟩
  | none =>
    have hnone := List.findIdx?_eq_none_iff.1 hm
    exact .inr ⟨fun v hv => (v.sounds_eq_false_iff f).1 (hnone v hv), triggeredVoices_of_not_sounding g hm⟩

/-- The voice register file and the cursor are sound. -/
abbrev VoicesSound (s : State) : Prop :=
  s.voices.length = s.cfg.raw.numVoices ∧ s.cur < s.cfg.raw.numVoices ∧ (∀ v ∈ s.voices, Voice.Sound v) ∧
    DistinctNotes s.voices

/-- A trigger keeps voices that are sound: the gain is in [0, 1], and a new note's frequency is one that no voice sounds. -/
theorem VoicesSound.trigger {s : State} (h : VoicesSound s) {f g : F64} (hf : freqOk f = true)
    (h0 : F64.le F64.zero g = true) (h1 : F64.le g F64.one = true) : VoicesSound (trigger f g s) := by
  obtain ⟨hlen, -, hsound, hdist⟩ := h
  have hcur : (s.cur + 1) % s.cfg.raw.numVoices < s.cfg.raw.numVoices := Nat.mod_lt _ s.cfg.sizes.1
  rcases triggeredVoices_cases f g s with ⟨m, v, hv, hact, hset⟩ | ⟨hnone, hset⟩
  · have hnew : Voice.Sound (v.retrigger g s.clock) :=
      ⟨fun hno => absurd (hact.symm.trans hno) (by decide),
        fun _ => ⟨((hsound v (List.mem_of_getElem? hv)).2 hact).1, h0, h1⟩⟩
    rw [VoicesSound, State.trigger_voices, hset, List.length_set]
    have hnote : (v.retrigger g s.clock).note = v.note := rfl
    exact ⟨hlen, hcur, forall_mem_set hsound hnew m, (distinctNotes_set_of_note_eq hv hnote).2 hdist⟩
  · have hnew : Voice.Sound ⟨F64.zero, f, g, s.clock, true⟩ := ⟨nofun, fun _ => ⟨hf, h0, h1⟩⟩
    rw [VoicesSound, State.trigger_voices, hset, List.length_set]
    exact ⟨hlen, hcur, forall_mem_set hsound hnew _, hdist.set_of_new hnone _⟩

/-- A queued note was checked when it was queued: its frequency and its gain are a sounding voice's. -/
theorem VoicesSound.applyQueued {s : State} (h : VoicesSound s) {p : Queued} (hv : Queued.valid s.cfg p = true) :
    VoicesSound (applyQueued s p) := by
  cases p with
  | noteon f u =>
    simp only [Queued.valid, Bool.and_eq_true, Bool.not_eq_true'] at hv
    obtain ⟨h0, h1⟩ := noteGain_mem hv.2
    exact h.trigger hv.1 h0 h1
  | paramK id x => exact h
  | paramA id xs => exact h

theorem VoicesSound.drain {s : State} (h : VoicesSound s) (hq : QueueInv s) : VoicesSound (drain s) := by
  have hboth := drain_induction (fun t => t.cfg = s.cfg ∧ VoicesSound t) (fun p => Queued.valid s.cfg p = true) s hq.2.2
    ⟨rfl, h⟩ (fun t p hv ht => ⟨(applyQueued_cfg t p).trans ht.1, ht.2.applyQueued (ht.1 ▸ hv)⟩) fun _ ht => ht
  exact hboth.2

/-! ### The advances -/

theorem Voice.Sound.advance {v : Voice} (h : Voice.Sound v) (c : Config) : Voice.Sound (v.advance c) := by
  cases hact : v.active with
  | false => rwa [Voice.advance_of_inactive c hact]
  | true =>
    rw [Voice.advance_frame]
    exact ⟨fun hno => absurd (hact.symm.trans hno) (by decide), fun _ => h.2 hact⟩

/-- A property of a voice that an advance keeps is kept by any number of them. -/
theorem iterate_advance_keeps {Q : Voice → Prop} {c : Config} (hQ : ∀ v, Q v → Q (v.advance c)) (n : Nat) {v : Voice}
    (h : Q v) : Q ((Voice.advance c)^[n] v) := by
  induction n with
  | zero => exact h
  | succ n ih =>
    rw [Function.iterate_succ_apply']
    exact hQ _ ih

/-- The end of a RENDER advances each voice QUANTUM times. -/
theorem renderFinish_voices_eq_map (T : Transc) (s : State) :
    (renderFinish T s).voices = s.voices.map (Voice.advance s.cfg)^[s.cfg.raw.quantum] := by
  rw [renderFinish_voices, synthFrames_voices, iterate_map_advance]

theorem VoicesSound.renderFinish {T : Transc} {s : State} (h : VoicesSound s) : VoicesSound (renderFinish T s) := by
  obtain ⟨hlen, hcur, hsound, hdist⟩ := h
  have hvoices := renderFinish_voices_eq_map T s
  refine ⟨?_, hcur, fun w hw => ?_, ?_⟩
  · rw [hvoices, List.length_map]
    exact hlen
  · rw [hvoices] at hw
    obtain ⟨v, hv, rfl⟩ := List.mem_map.1 hw
    exact iterate_advance_keeps (fun u hu => hu.advance s.cfg) _ (hsound v hv)
  · refine (distinctNotes_congr ?_).2 hdist
    rw [hvoices, List.map_map]
    refine List.map_congr_left fun v _ => ?_
    rw [Function.comp_apply, Voice.iterate_advance_frame]

theorem VoicesSound.ofConfig (c : Config) : VoicesSound (State.ofConfig c) := by
  refine ⟨List.length_replicate, c.sizes.1, fun v hv => ?_, List.pairwise_replicate.2 (.inr rfl)⟩
  rw [List.eq_of_mem_replicate hv]
  exact ⟨fun _ => rfl, nofun⟩

theorem VoicesSound.step {s t : State} (h : VoicesSound s) (hq : QueueInv s) (hst : step s = .next t) : VoicesSound t :=
  step_keeps hst h (fun u v hv hu => by rw [hv]; exact hu) (fun rest => VoicesSound.drain (s := s.pop rest) h hq)
    (fun _ hu => hu.renderFinish) fun _ => VoicesSound.ofConfig s.cfg

/-- Settles O30: a trigger writes a voice that sounds its frequency, or one in a frequency that no voice sounds. -/
theorem stepKeepsVoiceInv : Obligations.StepKeepsVoiceInv :=
  fun s t ⟨hq, hv⟩ h => ⟨stepKeepsQueueInv s t hq h, VoicesSound.step hv hq h⟩

/-! ### The phases (R34, R156) -/

/-- Every phase is in range. -/
abbrev PhasesInRange (s : State) : Prop := ∀ v ∈ s.voices, Voice.PhaseInRange v

/-- The increment of a phase is finite for a rate of at least 1: it is no larger than the frequency. -/
theorem increment_isFinite {c : Config} (hrate : F64.le F64.one c.raw.sampleRate = true) {f : F64} (hf : f.isFinite = true) :
    (f.div c.raw.sampleRate).isFinite = true := by
  obtain ⟨hr, hpos⟩ := c.sampleRate_ok
  have hunits : F64.unit ≤ c.raw.sampleRate.units := by
    obtain ⟨-, -, hk⟩ := (F64.le_iff _ _).1 hrate
    rw [F64.key_of_pos F64.one_sign, F64.key_of_pos (F64.sign_of_pos hpos), Int.ofNat_le, ← F64.units_le_iff,
      F64.one_units] at hk
    exact hk
  rw [F64.isFinite_iff, F64.div_finite_mag hf hr (F64.not_isZero_of_pos hpos)]
  refine lt_of_le_of_lt (F64.magOfRatio_le_of_le ?_ ?_) ((F64.isFinite_iff f).1 hf)
  · exact lt_of_lt_of_le F64.unit_pos hunits
  · exact Nat.mul_le_mul_left _ hunits

theorem Voice.PhaseInRange.advance {c : Config} (hrate : F64.le F64.one c.raw.sampleRate = true) {v : Voice}
    (hv : Voice.Sound v) (h : Voice.PhaseInRange v) : Voice.PhaseInRange (v.advance c) := by
  cases hact : v.active with
  | false => rwa [Voice.advance_of_inactive c hact]
  | true =>
    obtain ⟨h0, h1⟩ := h
    obtain ⟨hn, hone, hk⟩ := (F64.lt_iff _ _).1 h1
    obtain ⟨-, hu⟩ := F64.units_le_of_unit_interval h0 ((F64.le_iff _ _).2 ⟨hn, hone, hk.le⟩)
    have hf := ((freqOk_iff _).1 (hv.2 hact).1).1
    have hphase : (v.advance c).phase = (v.phase.add (v.freq.div c.raw.sampleRate)).frac := by simp [Voice.advance, hact]
    rw [Voice.PhaseInRange, hphase]
    exact F64.frac_mem (F64.add_isFinite hu (increment_isFinite hrate hf))

theorem PhasesInRange.applyQueued {s : State} (h : PhasesInRange s) (p : Queued) : PhasesInRange (applyQueued s p) := by
  have hzero : F64.le F64.zero F64.zero = true ∧ F64.lt F64.zero F64.one = true := by decide
  cases p with
  | noteon f u =>
    show ∀ v ∈ triggeredVoices f (noteGain u) s, Voice.PhaseInRange v
    rcases triggeredVoices_cases f (noteGain u) s with ⟨m, v, -, -, hset⟩ | ⟨-, hset⟩ <;> rw [hset]
    · exact forall_mem_set h hzero m
    · exact forall_mem_set h hzero _
  | paramK id x => exact h
  | paramA id xs => exact h

theorem PhasesInRange.drain {s : State} (h : PhasesInRange s) : PhasesInRange (drain s) :=
  drain_induction PhasesInRange (fun _ => True) s (fun _ _ => trivial) h (fun _ p _ ht => ht.applyQueued p) fun _ ht => ht

theorem PhasesInRange.renderFinish {T : Transc} {s : State} (hrate : F64.le F64.one s.cfg.raw.sampleRate = true)
    (hv : VoicesSound s) (h : PhasesInRange s) : PhasesInRange (renderFinish T s) := by
  obtain ⟨-, -, hsound, -⟩ := hv
  intro w hw
  rw [renderFinish_voices_eq_map] at hw
  obtain ⟨v, hvm, rfl⟩ := List.mem_map.1 hw
  have hboth := iterate_advance_keeps (Q := fun u => Voice.Sound u ∧ Voice.PhaseInRange u)
    (fun u hu => ⟨hu.1.advance s.cfg, Voice.PhaseInRange.advance hrate hu.1 hu.2⟩) s.cfg.raw.quantum
    ⟨hsound v hvm, h v hvm⟩
  exact hboth.2

theorem PhasesInRange.ofConfig (c : Config) : PhasesInRange (State.ofConfig c) := by
  intro v hv
  rw [List.eq_of_mem_replicate hv]
  exact (by decide : Voice.PhaseInRange Voice.idle)

/-- Settles O31: a trigger sets the phase to 0, and an advance takes the `frac` of a finite sum. -/
theorem stepKeepsPhaseInv : Obligations.StepKeepsPhaseInv := by
  intro s t ⟨⟨hq, hv⟩, hrate, hphase⟩ h
  have hboth : F64.le F64.one t.cfg.raw.sampleRate = true ∧ VoicesSound t ∧ PhasesInRange t := by
    refine step_keeps (Q := fun u => F64.le F64.one u.cfg.raw.sampleRate = true ∧ VoicesSound u ∧ PhasesInRange u) h
      ⟨hrate, hv, hphase⟩ (fun u w hw hu => by rw [hw]; exact hu) (fun rest => ⟨?_, ?_, ?_⟩)
      (fun u ⟨hr, hu, hp⟩ => ⟨hr, hu.renderFinish, hp.renderFinish hr hu⟩)
      fun _ => ⟨hrate, VoicesSound.ofConfig s.cfg, PhasesInRange.ofConfig s.cfg⟩
    · rw [renderStart_cfg]; exact hrate
    · exact VoicesSound.drain (s := s.pop rest) hv hq
    · exact PhasesInRange.drain (s := s.pop rest) hphase
  exact ⟨stepKeepsVoiceInv s t ⟨hq, hv⟩ h, hboth.1, hboth.2.2⟩

/-! ### Active voices (R158) -/

/-- The voice at an index sounds. -/
abbrev ActiveAt (i : Nat) (s : State) : Prop := ∃ w, s.voices[i]? = some w ∧ w.active = true

theorem exists_active_modify {i j : Nat} {vs : List Voice} {f : Voice → Voice}
    (hf : ∀ v : Voice, v.active = true → (f v).active = true) (h : ∃ w, vs[i]? = some w ∧ w.active = true) :
    ∃ w, (vs.modify j f)[i]? = some w ∧ w.active = true := by
  obtain ⟨w, hw, hact⟩ := h
  rw [List.getElem?_modify, hw]
  refine ⟨_, rfl, ?_⟩
  split
  · exact hf w hact
  · exact hact

theorem ActiveAt.applyQueued {i : Nat} {s : State} (h : ActiveAt i s) (p : Queued) : ActiveAt i (applyQueued s p) := by
  cases p with
  | noteon f u =>
    show ∃ w, (triggeredVoices f (noteGain u) s)[i]? = some w ∧ w.active = true
    unfold triggeredVoices
    split
    · exact exists_active_modify (fun _ hv => hv) h
    · exact exists_active_modify (fun _ _ => rfl) h
  | paramK id x => exact h
  | paramA id xs => exact h

theorem ActiveAt.renderStart {i : Nat} {s : State} (h : ActiveAt i s) : ActiveAt i (renderStart s) :=
  drain_induction (ActiveAt i) (fun _ => True) s (fun _ _ => trivial) h (fun _ p _ ht => ht.applyQueued p) fun _ ht => ht

theorem ActiveAt.renderFinish {i : Nat} {T : Transc} {s : State} (h : ActiveAt i s) : ActiveAt i (renderFinish T s) := by
  obtain ⟨w, hw, hact⟩ := h
  rw [ActiveAt, renderFinish_voices_eq_map, List.getElem?_map, hw]
  refine ⟨_, rfl, ?_⟩
  rw [Voice.iterate_advance_frame]
  exact hact

/-- Settles O36: a trigger makes voices active, an advance keeps them so, and the other events but the release write none. -/
theorem voicesStayActive : Obligations.VoicesStayActive := by
  intro s t h hrel i v hv hact
  have hs : ActiveAt i s := ⟨v, hv, hact⟩
  show ActiveAt i t
  rcases step_cases h with ⟨_, rfl⟩ | ⟨e, rest, hin, h⟩
  · exact hs
  · have hpop : ActiveAt i (s.pop rest) := hs
    match e with
    | .transfer (.control ws) => rw [serve_control_next h]; exact hpop
    | .transfer (.request w) => rw [(serve_request_next h).2]; exact hpop.renderStart.renderFinish
    | .renderBegin req => rw [(serve_renderBegin_next h).2]; exact hpop.renderStart
    | .drainEnd => rw [(serve_drainEnd_next h).2]; exact hpop
    | .renderEnd => rw [(serve_renderEnd_next h).2]; exact hpop.renderFinish
    | .resetLevel true => rw [(serve_resetLevel_true_next h).2]; exact hpop
    | .resetLevel false => exact absurd hin (hrel rest)

end Sys2Proof.Machine
end

section
/-! Proofs: the ring buffers under a RENDER, their memory, and what a RENDER answers (46_reverb.md R232, R241 to R243;
47_render.md R274 to R276). -/

namespace Sys2Proof.Machine

/-! ### The reverb engine -/

/-- The engine with a quantum pushed. -/
abbrev Engine.pushed (c : Config) (cru : List F64) (e : Engine) : Engine := { e with rbi := e.rbi.push c.raw.rbLen cru }

theorem Engine.feed_of_kernel {c : Config} {P : Vector ParamReg 12} {cru : List F64} {e : Engine}
    (h : c.raw.kernel ≤ (e.rbi.push c.raw.rbLen cru).avail) : e.feed c P cru = (e.pushed c cru).kernel c P := if_pos h

theorem Engine.feed_of_no_kernel {c : Config} {P : Vector ParamReg 12} {cru : List F64} {e : Engine}
    (h : (e.rbi.push c.raw.rbLen cru).avail < c.raw.kernel) : e.feed c P cru = e.pushed c cru := if_neg h.not_ge

/-- Both ring buffers of an engine are sound. -/
abbrev Engine.Sound (len : Nat) (e : Engine) : Prop := RingBuffer.Sound len e.rbi ∧ RingBuffer.Sound len e.rbo

theorem Engine.Sound.feed {c : Config} {e : Engine} (h : e.Sound c.raw.rbLen) (P : Vector ParamReg 12) (cru : List F64) :
    (e.feed c P cru).Sound c.raw.rbLen := by
  obtain ⟨hi, ho⟩ := h
  have hi' := RingBuffer.push_sound cru hi
  rcases Nat.lt_or_ge (e.rbi.push c.raw.rbLen cru).avail c.raw.kernel with hk | hk
  · rw [Engine.feed_of_no_kernel hk]
    exact ⟨hi', ho⟩
  · rw [Engine.feed_of_kernel hk]
    exact ⟨RingBuffer.afterPull_sound hi', RingBuffer.push_sound _ ho⟩

theorem renderFinish_rbi (T : Transc) (s : State) :
    (renderFinish T s).rbi = (s.engine.feed s.cfg s.params (renderFinish T s).work.cru).rbi := rfl

theorem renderFinish_rbo (T : Transc) (s : State) :
    (renderFinish T s).rbo =
      (s.engine.feed s.cfg s.params (renderFinish T s).work.cru).rbo.afterPull s.cfg.raw.rbLen s.cfg.raw.quantum := rfl

theorem RingInv.renderFinish {T : Transc} {s : State} (h : RingInv s) : RingInv (renderFinish T s) := by
  obtain ⟨hi, ho⟩ := Engine.Sound.feed (e := s.engine) h s.params (Machine.renderFinish T s).work.cru
  rw [RingInv, renderFinish_rbi, renderFinish_rbo]
  exact ⟨hi, RingBuffer.afterPull_sound ho⟩

theorem RingInv.renderStart {s : State} (h : RingInv s) : RingInv (renderStart s) := by
  have hrbi : (Machine.renderStart s).rbi = s.rbi := drain_rbi s
  have hrbo : (Machine.renderStart s).rbo = s.rbo := drain_rbo s
  rw [RingInv, hrbi, hrbo, renderStart_cfg]
  exact h

theorem RingBuffer.empty_sound {len : Nat} (h : 0 < len) : RingBuffer.Sound len RingBuffer.empty :=
  ⟨⟨List.Pairwise.nil, nofun⟩, nofun, h, h, Nat.zero_le len, (Nat.zero_mod len).symm⟩

theorem RingInv.ofConfig (c : Config) : RingInv (State.ofConfig c) :=
  ⟨RingBuffer.empty_sound c.rbLen_pos, RingBuffer.empty_sound c.rbLen_pos⟩

/-- Settles O32: pushes and pulls keep a buffer sound, and nothing else touches one. -/
theorem stepKeepsRingInv : Obligations.StepKeepsRingInv := fun s _ hs h =>
  step_keeps h hs (fun u v hv hu => by rw [hv]; exact hu) (fun rest => RingInv.renderStart (s := s.pop rest) hs)
    (fun _ hu => hu.renderFinish) fun _ => RingInv.ofConfig s.cfg

/-! ### The lengths of the kernel's buffers -/

@[simp] theorem allpass_length (p : List F64) (D : Int) (a : F64) (L : Int) : (allpass p D a L).length = p.length :=
  forUpTo_induction (fun y : List F64 => y.length = p.length) _ _ _ rfl fun _ _ _ h => by simpa using h

@[simp] theorem allpassCascade_length (c : Config) (p : List F64) : (allpassCascade c p).length = p.length :=
  forUpTo_induction (fun y : List F64 => y.length = p.length) _ _ _ rfl fun _ _ _ h => by simpa using h

@[simp] theorem normalise_length (p : List F64) : (normalise p).length = p.length := by
  unfold normalise
  split <;> simp

theorem combSum_length (c : Config) (P : Vector ParamReg 12) (dry : List F64) :
    (combSum (combBank c P dry)).length = dry.length := by
  simp [combSum, combBank]

theorem kernelProc_length (c : Config) (P : Vector ParamReg 12) (dry : List F64) :
    (kernelProc c P dry (combBank c P dry)).length = dry.length := by
  simp [kernelProc, mixDry, combSum_length]

/-! ### Occupancy (R243) -/

/-- An engine that holds less than one kernel in all, its dry buffer of a kernel's length. -/
abbrev Engine.Occupied (c : Config) (e : Engine) : Prop :=
  e.rbi.avail + e.rbo.avail < c.raw.kernel ∧ e.dry.length = c.raw.kernel

/-- A quantum goes in and one comes out; a kernel moves from one buffer to the other. -/
theorem Engine.Occupied.feed {c : Config} {e : Engine} (h : e.Occupied c) (P : Vector ParamReg 12) {cru : List F64}
    (hcru : cru.length = c.raw.quantum) : ((e.feed c P cru).drained c).Occupied c := by
  obtain ⟨hocc, hdry⟩ := h
  obtain ⟨-, hq, hqk, hlen⟩ := c.sizes
  have hpush := RingBuffer.push_avail (len := c.raw.rbLen) (rb := e.rbi) cru (by omega)
  rcases Nat.lt_or_ge (e.rbi.push c.raw.rbLen cru).avail c.raw.kernel with hk | hk
  · rw [Engine.feed_of_no_kernel hk]
    refine ⟨?_, hdry⟩
    simp only [Engine.drained, RingBuffer.afterPull_avail]
    omega
  · rw [Engine.feed_of_kernel hk]
    have hd := RingBuffer.pulled_length c.raw.rbLen c.raw.kernel (e.rbi.push c.raw.rbLen cru) e.dry hdry
    have hout := fun dry => RingBuffer.push_avail (len := c.raw.rbLen) (rb := e.rbo)
      (kernelProc c P dry (combBank c P dry)) (by omega)
    simp only [kernelProc_length] at hout
    refine ⟨?_, hd⟩
    simp only [Engine.drained, Engine.kernel, RingBuffer.afterPull_avail, hout, hd]
    omega

/-- The blocks of a RENDER have QUANTUM frames. -/
theorem renderFinish_cru_length (T : Transc) (s : State) : (renderFinish T s).work.cru.length = s.cfg.raw.quantum := by
  rw [renderFinish_cru, crush_length]

theorem OccupancyInv.renderFinish {T : Transc} {s : State} (h : OccupancyInv s) : OccupancyInv (renderFinish T s) :=
  Engine.Occupied.feed (e := s.engine) h s.params (renderFinish_cru_length T s)

theorem OccupancyInv.renderStart {s : State} (h : OccupancyInv s) : OccupancyInv (renderStart s) := by
  have hrbi : (Machine.renderStart s).rbi = s.rbi := drain_rbi s
  have hrbo : (Machine.renderStart s).rbo = s.rbo := drain_rbo s
  have hwork : (Machine.renderStart s).work = s.work := drain_work s
  rw [OccupancyInv, hrbi, hrbo, hwork, renderStart_cfg]
  exact h

theorem OccupancyInv.ofConfig (c : Config) : OccupancyInv (State.ofConfig c) := ⟨c.kernel_pos, List.length_replicate⟩

/-- Settles O33: a RENDER pushes a quantum and pulls one, and a kernel only moves frames, so the sum stays below a kernel. -/
theorem stepKeepsOccupancyInv : Obligations.StepKeepsOccupancyInv := fun s _ hs h =>
  step_keeps h hs (fun u v hv hu => by rw [hv]; exact hu) (fun rest => OccupancyInv.renderStart (s := s.pop rest) hs)
    (fun _ hu => hu.renderFinish) fun _ => OccupancyInv.ofConfig s.cfg

/-- Settles O34: each invariant holds of its part of the reset state. -/
theorem resetMeetsInvariants : Obligations.ResetMeetsInvariants := by
  intro c
  have hq : QueueInv (State.ofConfig c) := .of_nil rfl (Nat.zero_le _)
  exact ⟨⟨hq, (paramsSound_iff _).1 (ParamsSound.ofConfig c)⟩, ⟨hq, VoicesSound.ofConfig c⟩, RingInv.ofConfig c,
    OccupancyInv.ofConfig c, fun hrate => ⟨⟨hq, VoicesSound.ofConfig c⟩, hrate, PhasesInRange.ofConfig c⟩⟩

/-! ### The memory frame of a RENDER -/

/-- A push writes the cells from the write index on, one a frame. -/
theorem RingBuffer.push_read_other {len : Nat} {rb : RingBuffer} {xs : List F64} {a : Nat} (hw : rb.w < len)
    (h : ∀ k < xs.length, a ≠ (rb.w + k) % len) : Memory.read (rb.push len xs).data a = Memory.read rb.data a := by
  induction xs generalizing rb with
  | nil => rfl
  | cons x xs ih =>
    have hlen : 0 < len := Nat.zero_lt_of_lt hw
    have hhere : a ≠ rb.w := by
      have := h 0 (Nat.succ_pos _)
      rwa [Nat.add_zero, Nat.mod_eq_of_lt hw] at this
    have hrest : ∀ k < xs.length, a ≠ ((rb.pushOne len x).w + k) % len := fun k hk => by
      have := h (k + 1) (Nat.succ_lt_succ hk)
      rwa [Nat.add_comm k, ← Nat.add_assoc, ← Nat.mod_add_mod] at this
    rw [RingBuffer.push_cons, ih (Nat.mod_lt _ hlen) hrest]
    exact Memory.read_write_other _ _ _ _ hhere

theorem Engine.feed_rbi_data (c : Config) (P : Vector ParamReg 12) (cru : List F64) (e : Engine) :
    (e.feed c P cru).rbi.data = (e.rbi.push c.raw.rbLen cru).data := by
  rcases Nat.lt_or_ge (e.rbi.push c.raw.rbLen cru).avail c.raw.kernel with hk | hk
  · rw [Engine.feed_of_no_kernel hk]
  · rw [Engine.feed_of_kernel hk]
    rfl

/-- RBO's cells change only among a kernel's from its write index. -/
theorem Engine.feed_rbo_read_other {c : Config} {e : Engine} (P : Vector ParamReg 12) (cru : List F64) {a : Nat}
    (hw : e.rbo.w < c.raw.rbLen) (hdry : e.dry.length = c.raw.kernel)
    (h : ∀ k < c.raw.kernel, a ≠ (e.rbo.w + k) % c.raw.rbLen) :
    Memory.read (e.feed c P cru).rbo.data a = Memory.read e.rbo.data a := by
  rcases Nat.lt_or_ge (e.rbi.push c.raw.rbLen cru).avail c.raw.kernel with hk | hk
  · rw [Engine.feed_of_no_kernel hk]
  · rw [Engine.feed_of_kernel hk]
    refine RingBuffer.push_read_other hw fun k hkl => h k ?_
    rwa [kernelProc_length, RingBuffer.pulled_length _ _ _ _ hdry] at hkl

/-- The state after a RENDER that is taken. -/
abbrev rendered (s : State) : State := renderFinish theTransc (renderStart s)

/-- The reverb engine after its feed in a RENDER. -/
def renderedEngine (s : State) : Engine := s.engine.feed s.cfg (drain s).params (rendered s).work.cru

theorem rendered_cru_length (s : State) : (rendered s).work.cru.length = s.cfg.raw.quantum := by
  rw [renderFinish_cru_length, renderStart_cfg]

theorem renderStart_feed (s : State) :
    (renderStart s).engine.feed (renderStart s).cfg (renderStart s).params (rendered s).work.cru = renderedEngine s := by
  rw [renderStart_engine, renderStart_cfg, renderStart_params, renderedEngine]

theorem rendered_rbi (s : State) : (rendered s).rbi = (renderedEngine s).rbi := by rw [renderFinish_rbi, renderStart_feed]

theorem rendered_rbo (s : State) :
    (rendered s).rbo = (renderedEngine s).rbo.afterPull s.cfg.raw.rbLen s.cfg.raw.quantum := by
  rw [renderFinish_rbo, renderStart_feed, renderStart_cfg]

theorem rendered_out (s : State) : (rendered s).work.out = (renderedEngine s).output s.cfg := by
  rw [renderFinish_out, renderStart_feed, renderStart_cfg]

/-- The kernel's buffers after a RENDER are the engine's. -/
theorem rendered_kernelBuffers (s : State) :
    (rendered s).work.dry = (renderedEngine s).dry ∧ (rendered s).work.combs = (renderedEngine s).combs ∧
      (rendered s).work.proc = (renderedEngine s).proc := by
  rw [← renderStart_feed]
  exact ⟨rfl, rfl, rfl⟩

/-- Settles O20: pushes alone write memory, a quantum's frames to RBI and, if a kernel runs, a kernel's to RBO. -/
theorem renderWritesOnlyPushedCells : Obligations.RenderWritesOnlyPushedCells := by
  intro s t ⟨hi, ho⟩ hdry h
  obtain ⟨-, rfl⟩ := exec_render_next h
  obtain ⟨-, -, hwi, -, hai, -⟩ := hi
  obtain ⟨-, -, hwo, -, -, -⟩ := ho
  have hcru := rendered_cru_length s
  have hrbo : (rendered s).rbo.data = (renderedEngine s).rbo.data := by
    rw [rendered_rbo]
    rfl
  refine ⟨fun a ha => ?_, fun a _ ha => ?_, fun hno => ?_⟩
  · rw [rendered_rbi, renderedEngine, Engine.feed_rbi_data]
    exact RingBuffer.push_read_other hwi (by rwa [hcru])
  · rw [hrbo]
    exact Engine.feed_rbo_read_other (e := s.engine) _ _ hwo hdry ha
  · have hlt : (s.engine.rbi.push s.cfg.raw.rbLen (rendered s).work.cru).avail < s.cfg.raw.kernel := by
      have hpush := RingBuffer.push_avail (rendered s).work.cru hai
      rw [hcru] at hpush
      exact lt_of_le_of_lt (hpush.trans_le (Nat.min_le_left _ _)) hno
    have hfeed : renderedEngine s = s.engine.pushed s.cfg (rendered s).work.cru := Engine.feed_of_no_kernel hlt
    obtain ⟨hd, hc, hp⟩ := rendered_kernelBuffers s
    rw [hrbo, hd, hc, hp, hfeed]
    exact ⟨fun _ => rfl, rfl, rfl, rfl⟩

/-! ### What a RENDER answers -/

/-- Channel `c` of `n` copies of a block. -/
theorem getElem?_flatten_replicate {α : Type} (xs : List α) {n c i : Nat} (hc : c < n) (hi : i < xs.length) :
    (List.replicate n xs).flatten[c * xs.length + i]? = xs[i]? := by
  induction n generalizing c with
  | zero => omega
  | succ n ih =>
    rw [List.replicate_succ, List.flatten_cons]
    cases c with
    | zero => rw [Nat.zero_mul, Nat.zero_add, List.getElem?_append_left hi]
    | succ c =>
      have hidx : (c + 1) * xs.length + i = xs.length + (c * xs.length + i) := by
        rw [Nat.succ_mul]
        omega
      rw [hidx, List.getElem?_append_right (Nat.le_add_right _ _), Nat.add_sub_cancel_left, ih (by omega)]

theorem planar_length (n : Nat) (out : List F64) : (planar n out).length = n * out.length := by
  simp [planar]

theorem planar_getElem? (n : Nat) (out : List F64) {c i : Nat} (hc : c < n) (hi : i < out.length) :
    (planar n out)[c * out.length + i]? = (out[i]?).map F64.bits := by
  have h := getElem?_flatten_replicate (out.map F64.bits) hc (by rwa [List.length_map])
  rwa [List.length_map, List.getElem?_map] at h

theorem renderFinish_out_length (T : Transc) (s : State) : (renderFinish T s).work.out.length = s.cfg.raw.quantum := by
  rw [renderFinish_out]
  exact RingBuffer.pulled_length _ _ _ _ List.length_replicate

/-- Settles O16: the answer is C_OUT copies of OUT, and the commit copies what the stages left. -/
theorem renderCompletes : Obligations.RenderCompletes := by
  intro s hp hr
  have hcfg := renderStart_cfg s
  have hlen := (renderFinish_out_length theTransc (renderStart s)).trans (by rw [hcfg])
  have hout : (renderFinish theTransc (renderStart s)).renderOut =
      some ⟨planar s.cfg.raw.cOut (renderFinish theTransc (renderStart s)).work.out, 1⟩ := by
    rw [← hcfg]
    rfl
  refine ⟨_, _, exec_render hp hr, hlen, hout, rfl, ?_, fun c i hc hi => ?_, ?_, rfl, rfl, ?_⟩
  · rw [planar_length, hlen]
  · have h := planar_getElem? s.cfg.raw.cOut _ hc (hlen ▸ hi)
    rwa [hlen] at h
  · have hclock : (renderFinish theTransc (renderStart s)).clock =
        (renderStart s).clock + BitVec.ofNat 64 (renderStart s).cfg.raw.quantum := rfl
    rw [hclock, hcfg, renderStart_clock]
  · rw [← List.countP_eq_length_filter]
    rfl

/-! ### A RENDER in stages (log 3) -/

theorem applyQueued_set_inputs (s : State) (p : Queued) (es : List PortEvent) (n : Nat) :
    applyQueued { s with inputs := es, freeIdx := n } p = { applyQueued s p with inputs := es, freeIdx := n } := by
  cases p <;> rfl

/-- The drain reads neither the events to come nor the counter of the free values. -/
theorem drain_set_inputs (s : State) (es : List PortEvent) (n : Nat) :
    drain { s with inputs := es, freeIdx := n } = { drain s with inputs := es, freeIdx := n } := by
  have hfold : ∀ (ps : List Queued) (u : State), ps.foldl applyQueued { u with inputs := es, freeIdx := n } =
      { ps.foldl applyQueued u with inputs := es, freeIdx := n } := by
    intro ps
    induction ps with
    | nil => exact fun _ => rfl
    | cons p ps ih => exact fun u => by rw [List.foldl_cons, applyQueued_set_inputs, ih, List.foldl_cons]
  simp only [drain, hfold]

theorem renderStart_set_inputs (s : State) (es : List PortEvent) (n : Nat) :
    renderStart { s with inputs := es, freeIdx := n } = { renderStart s with inputs := es, freeIdx := n } := by
  rw [renderStart, drain_set_inputs]
  rfl

/-- Nor do the stages, which do not read how far the drain has got either. -/
theorem renderFinish_set_inputs (T : Transc) (s : State) (es : List PortEvent) (n : Nat) (p : Phase) :
    renderFinish T { s with inputs := es, freeIdx := n, phase := p } =
      { renderFinish T s with inputs := es, freeIdx := n } := rfl

theorem serve_drainEnd {s : State} {n : Nat} (h : s.phase = .draining n) :
    serve .drainEnd s = .next { s with phase := .rendering } := by
  simp only [serve, endDrain, h]

theorem serve_renderEnd {s : State} (h : s.phase = .rendering) : serve .renderEnd s = .next (renderFinish theTransc s) := by
  simp only [serve, endRender, h]

theorem serve_renderBegin_taken {s : State} {req : Word} (hreq : RequestsRender s.cfg.raw.quantum req)
    (hmode : s.TakesRequest) : serve (.renderBegin req) s = .next (renderStart s) := by
  rw [serve_renderBegin, if_pos hreq, if_pos hmode]

theorem serve_request_taken {s : State} {req : Word} (hreq : RequestsRender s.cfg.raw.quantum req)
    (hmode : s.TakesRequest) :
    serve (.transfer (.request req)) s = .next (renderFinish theTransc (renderStart s)) := by
  rw [serve_request, if_neg (by rw [hmode.2]; decide), if_pos hreq, exec_render hmode.1 hmode.2]

/-- A run of one more step. -/
theorem run_succ_of_step {s u : State} (k : Nat) (h : step s = .next u) :
    Host.Core.run core (k + 1) s = Host.Core.run core k u := by
  have hcore : core.step s = .next u := h
  simp only [Host.Core.run, hcore]

/-- Settles O38: the stages are run on the state that the beginning leaves, the end of the drain writing the phase alone, which no
stage reads. -/
theorem stagedRenderAgrees : Obligations.StagedRenderAgrees := by
  intro s req rest hdec hp hr
  have hreq : RequestsRender s.cfg.raw.quantum req := by
    by_contra hno
    rw [decodeRequest_eq, if_neg hno] at hdec
    cases hdec
  have hmode : s.TakesRequest := ⟨hp, hr⟩
  have hbegin : step { s with inputs := .renderBegin req :: .drainEnd :: .renderEnd :: rest } =
      .next { renderStart s with inputs := .drainEnd :: .renderEnd :: rest, freeIdx := s.freeIdx + 1 } :=
    (step_of_inputs rfl).trans ((serve_renderBegin_taken (s := State.pop _ _) hreq hmode).trans
      (congrArg Host.Outcome.next (renderStart_set_inputs s _ _)))
  have hdrain : step { renderStart s with inputs := .drainEnd :: .renderEnd :: rest, freeIdx := s.freeIdx + 1 } =
      .next { renderStart s with inputs := .renderEnd :: rest, freeIdx := s.freeIdx + 2, phase := .rendering } :=
    (step_of_inputs rfl).trans (serve_drainEnd (s := State.pop _ _) rfl)
  have hend : step { renderStart s with inputs := .renderEnd :: rest, freeIdx := s.freeIdx + 2, phase := .rendering } =
      .next { renderFinish theTransc (renderStart s) with inputs := rest, freeIdx := s.freeIdx + 3 } :=
    (step_of_inputs rfl).trans ((serve_renderEnd (s := State.pop _ _) rfl).trans
      (congrArg Host.Outcome.next (renderFinish_set_inputs theTransc (renderStart s) _ _ _)))
  have hwhole : step { s with inputs := .transfer (.request req) :: rest } =
      .next { renderFinish theTransc (renderStart s) with inputs := rest, freeIdx := s.freeIdx + 1 } :=
    (step_of_inputs rfl).trans ((serve_request_taken (s := State.pop _ _) hreq hmode).trans
      (congrArg Host.Outcome.next ((congrArg (renderFinish theTransc) (renderStart_set_inputs s _ _)).trans
        (renderFinish_set_inputs theTransc (renderStart s) _ _ _))))
  refine ⟨_, _, ?_, hwhole, rfl⟩
  rw [run_succ_of_step 2 hbegin, run_succ_of_step 1 hdrain, run_succ_of_step 0 hend]
  rfl

/-! ### Push and pull -/

/-- Settles O54: the frames pushed are the unread ones, all of which fit, and the pull reads them all. -/
theorem pushThenPullReturnsPushed : Obligations.PushThenPullReturnsPushed := by
  intro len rb xs dst h h0 hfit hdst
  have ⟨_, _, _, hr, _, _⟩ := RingBuffer.push_sound xs h
  have ⟨_, _, _, _, ha, _⟩ := h
  have hempty : rb.unread len = [] := List.eq_nil_of_length_eq_zero ((RingBuffer.unread_length len rb).trans h0)
  have hunread : (rb.push len xs).unread len = xs := by
    rw [RingBuffer.push_unread xs h, hempty, h0, Nat.zero_add, Nat.sub_eq_zero_of_le hfit, List.nil_append, List.drop_zero]
  have havail : (rb.push len xs).avail = xs.length := by rw [← RingBuffer.unread_length len, hunread]
  rw [RingBuffer.pulled_eq_take_append_drop hr hdst, hunread, havail, List.take_length, ← hdst, List.drop_length,
    List.append_nil]

end Sys2Proof.Machine
end

section
/-! Proofs: the ReverbEngine of a RENDER in terms of unread frames, and its kernel step by step (46_reverb.md R233 to R241). -/

namespace Sys2Proof.Machine

/-! ### The allpass (R237) -/

/-- A frame of an allpass stage, from the stage's results `y` below it and its input `p` from it on; terms outside the
buffer are left out (log 19). -/
def allpassFrame (p y : List F64) (D : Int) (a : F64) (L : Int) (i : Nat) : F64 :=
  let back : Int := i - D
  let ahead : Int := i + L - D
  let x := if 0 ≤ back ∧ back < (p.length : Int) then
      (at' p i).add (a.neg.mul (if back < i then at' y back.toNat else at' p back.toNat))
    else at' p i
  if 0 ≤ ahead ∧ ahead < (p.length : Int) then
    x.add (a.mul (if ahead < i then at' y ahead.toNat else if ahead = i then x else at' p ahead.toNat))
  else x

/-- Of the results a frame reads only those below it. -/
theorem allpassFrame_congr {p y z : List F64} {D : Int} {a : F64} {L : Int} {i : Nat} (h : ∀ j < i, at' y j = at' z j) :
    allpassFrame p y D a L i = allpassFrame p z D a L i := by
  have hread : ∀ (j : Int) (v : F64), 0 ≤ j →
      (if j < i then at' y j.toNat else v) = if j < i then at' z j.toNat else v := by
    intro j v h0
    split
    · exact h _ (by omega)
    · rfl
  have hback : ∀ v w : F64, (if 0 ≤ (i : Int) - D ∧ (i : Int) - D < (p.length : Int) then
      v.add (a.neg.mul (if (i : Int) - D < i then at' y ((i : Int) - D).toNat else w)) else v) =
      if 0 ≤ (i : Int) - D ∧ (i : Int) - D < (p.length : Int) then
        v.add (a.neg.mul (if (i : Int) - D < i then at' z ((i : Int) - D).toNat else w)) else v := by
    intro v w
    split
    · next hin => rw [hread _ w hin.1]
    · rfl
  simp only [allpassFrame, hback]
  split
  · next hin => rw [hread _ _ hin.1]
  · rfl

/-- What `n` frames of a stage have made of `p`: their results, and the input from frame `n` on. -/
structure AllpassUpTo (p : List F64) (D : Int) (a : F64) (L : Int) (n : Nat) (y : List F64) : Prop where
  length_eq : y.length = p.length
  input : ∀ j, n ≤ j → at' y j = at' p j
  frame : ∀ i < n, at' y i = allpassFrame p y D a L i

/-- Both terms of one frame. -/
theorem at'_allpass_body {p y : List F64} {D : Int} {a : F64} {L : Int} {n : Nat} (hn : n < p.length)
    (h : AllpassUpTo p D a L n y) :
    at' (allpassTerm (allpassTerm y a.neg n (n - D)) a n (n + L - D)) n = allpassFrame p y D a L n := by
  obtain ⟨hlen, hinput, -⟩ := h
  have hny : n < y.length := hlen ▸ hn
  have hread : ∀ j : Int, 0 ≤ j → at' y j.toNat = if j < n then at' y j.toNat else at' p j.toNat := by
    intro j h0
    split
    · rfl
    · exact hinput _ (by omega)
  have hx : at' (allpassTerm y a.neg n (n - D)) n =
      if 0 ≤ (n : Int) - D ∧ (n : Int) - D < (p.length : Int) then
        (at' p n).add (a.neg.mul (if (n : Int) - D < n then at' y ((n : Int) - D).toNat else at' p ((n : Int) - D).toNat))
      else at' p n := by
    rw [allpassTerm_self y a.neg _ hny, hinput n le_rfl, hlen]
    split
    · next hin => rw [← hread _ hin.1]
    · rfl
  rw [allpassTerm_self _ a _ (by rwa [allpassTerm_length]), allpassTerm_length, hlen, allpassFrame, ← hx]
  split
  · next hin =>
    have hread' : at' (allpassTerm y a.neg n (n - D)) ((n : Int) + L - D).toNat =
        if (n : Int) + L - D < n then at' y ((n : Int) + L - D).toNat
        else if (n : Int) + L - D = n then at' (allpassTerm y a.neg n (n - D)) n
        else at' p ((n : Int) + L - D).toNat := by
      by_cases hself : (n : Int) + L - D = n
      · rw [hself, if_neg (lt_irrefl _), if_pos rfl, Int.toNat_natCast]
      · rw [if_neg hself, allpassTerm_other _ _ _ (by omega)]
        exact hread _ hin.1
    rw [← hread']
  · rfl

theorem AllpassUpTo.pass {p y : List F64} {D : Int} {a : F64} {L : Int} {n : Nat} (hn : n < p.length)
    (h : AllpassUpTo p D a L n y) :
    AllpassUpTo p D a L (n + 1) (allpassTerm (allpassTerm y a.neg n (n - D)) a n (n + L - D)) := by
  have hbody := at'_allpass_body hn h
  obtain ⟨hlen, hinput, hframe⟩ := h
  have hother : ∀ j, j ≠ n → at' (allpassTerm (allpassTerm y a.neg n (n - D)) a n (n + L - D)) j = at' y j := fun j hj => by
    rw [allpassTerm_other _ _ _ hj, allpassTerm_other _ _ _ hj]
  refine ⟨by rw [allpassTerm_length, allpassTerm_length, hlen], fun j hj => ?_, fun i hi => ?_⟩
  · rw [hother j (by omega), hinput j (by omega)]
  · rw [allpassFrame_congr fun j hj => hother j (by omega)]
    rcases Nat.lt_succ_iff_lt_or_eq.1 hi with hlt | rfl
    · rw [hother i hlt.ne, hframe i hlt]
    · exact hbody

theorem allpass_upTo (p : List F64) (D : Int) (a : F64) (L : Int) : AllpassUpTo p D a L p.length (allpass p D a L) :=
  forUpTo_indexed_induction (AllpassUpTo p D a L) _ _ p ⟨rfl, fun _ _ => rfl, fun _ hi => absurd hi (Nat.not_lt_zero _)⟩
    fun _ _ hi h => h.pass hi

/-! ### The mix (R236) -/

theorem at'_zipWith (f : F64 → F64 → F64) {xs ys : List F64} {i : Nat} (hx : i < xs.length) (hy : i < ys.length) :
    at' (List.zipWith f xs ys) i = f (at' xs i) (at' ys i) := by
  have hz : i < (List.zipWith f xs ys).length := by
    rw [List.length_zipWith]
    exact lt_min hx hy
  rw [at', at', at', List.getD_eq_getElem _ _ hz, List.getD_eq_getElem _ _ hx, List.getD_eq_getElem _ _ hy,
    List.getElem_zipWith]

/-- A frame of the comb sum, the combs taken from their bank. -/
theorem at'_combSum {c : Config} {P : Vector ParamReg 12} {dry : List F64} {i : Nat} (hi : i < dry.length) :
    at' (combSum (combBank c P dry)) i =
      (((at' ((combBank c P dry).getD 0 []) i).add (at' ((combBank c P dry).getD 1 []) i)).add
        (at' ((combBank c P dry).getD 2 []) i)).add (at' ((combBank c P dry).getD 3 []) i) := by
  have hcomb : ∀ d g, i < (comb dry d g).length := fun d g => by rwa [comb_length]
  simp only [combSum, combBank]
  rw [at'_zipWith _ (by simpa using hi) (hcomb _ _), at'_zipWith _ (by simpa using hi) (hcomb _ _),
    at'_zipWith _ (hcomb _ _) (hcomb _ _)]
  rfl

theorem mixDry_length (mix : F64) {dry combs : List F64} (h : combs.length = dry.length) :
    (mixDry mix dry combs).length = dry.length := by
  simp [mixDry, h]

theorem at'_mixDry (mix : F64) {dry combs : List F64} {i : Nat} (hd : i < dry.length) (hc : i < combs.length) :
    at' (mixDry mix dry combs) i = ((F64.one.sub mix).mul (at' dry i)).add (mix.mul (at' combs i)) := at'_zipWith _ hd hc

/-! ### The engine in terms of unread frames -/

/-- A push that fits adds its frames to the unread ones. -/
theorem RingBuffer.push_unread_of_fits {len : Nat} {rb : RingBuffer} {xs : List F64} (h : RingBuffer.Sound len rb)
    (hfit : rb.avail + xs.length ≤ len) : (rb.push len xs).unread len = rb.unread len ++ xs := by
  rw [RingBuffer.push_unread xs h, Nat.sub_eq_zero_of_le hfit, List.drop_zero]

/-- What a kernel pulls into its dry buffer, RBI holding a kernel's frames. -/
theorem pulled_kernel {len n : Nat} {rb : RingBuffer} {dst : List F64} (h : RingBuffer.Sound len rb) (hdst : dst.length = n)
    (hn : n ≤ rb.avail) : rb.pulled len dst n = (rb.unread len).take n := by
  obtain ⟨-, -, -, hr, -, -⟩ := h
  rw [RingBuffer.pulled_eq_take_append_drop hr hdst, List.drop_eq_nil_of_le (hdst.trans_le hn), List.append_nil]

/-- OUT is what RBO holds, up to QUANTUM frames, and +0.0 beyond. -/
theorem Engine.output_eq {c : Config} {e : Engine} (h : RingBuffer.Sound c.raw.rbLen e.rbo) :
    e.output c = (e.rbo.unread c.raw.rbLen).take c.raw.quantum ++
      List.replicate (c.raw.quantum - (e.rbo.unread c.raw.rbLen).length) F64.zero := by
  obtain ⟨-, -, -, hr, -, -⟩ := h
  rw [Engine.output, State.silence, RingBuffer.pulled_eq_take_append_drop hr List.length_replicate, List.drop_replicate,
    RingBuffer.unread_length]

/-- A quantum that makes no kernel's frames only joins RBI. -/
theorem Engine.feed_unread_of_no_kernel {c : Config} (P : Vector ParamReg 12) {cru : List F64} {e : Engine}
    (hs : e.Sound c.raw.rbLen) (ho : e.Occupied c) (hcru : cru.length = c.raw.quantum)
    (hk : (e.rbi.unread c.raw.rbLen ++ cru).length < c.raw.kernel) :
    (e.feed c P cru).rbi.unread c.raw.rbLen = e.rbi.unread c.raw.rbLen ++ cru ∧ (e.feed c P cru).rbo = e.rbo := by
  obtain ⟨hi, -⟩ := hs
  have hsizes := c.sizes
  have hunread := RingBuffer.push_unread_of_fits (xs := cru) hi (by omega)
  have havail : (e.rbi.push c.raw.rbLen cru).avail < c.raw.kernel := by
    rw [← RingBuffer.unread_length c.raw.rbLen, hunread]
    exact hk
  rw [Engine.feed_of_no_kernel havail]
  exact ⟨hunread, rfl⟩

/-- A quantum that makes a kernel's frames runs one kernel on the oldest of them, whose output joins RBO. -/
theorem Engine.feed_unread_of_kernel {c : Config} (P : Vector ParamReg 12) {cru : List F64} {e : Engine}
    (hs : e.Sound c.raw.rbLen) (ho : e.Occupied c) (hcru : cru.length = c.raw.quantum)
    (hk : c.raw.kernel ≤ (e.rbi.unread c.raw.rbLen ++ cru).length) :
    (e.feed c P cru).dry = (e.rbi.unread c.raw.rbLen ++ cru).take c.raw.kernel ∧
    (e.feed c P cru).combs = combBank c P (e.feed c P cru).dry ∧
    (e.feed c P cru).proc = kernelProc c P (e.feed c P cru).dry (e.feed c P cru).combs ∧
    (e.feed c P cru).rbi.unread c.raw.rbLen = (e.rbi.unread c.raw.rbLen ++ cru).drop c.raw.kernel ∧
    (e.feed c P cru).rbo.unread c.raw.rbLen = e.rbo.unread c.raw.rbLen ++ (e.feed c P cru).proc := by
  obtain ⟨hi, hso⟩ := hs
  obtain ⟨hocc, hdry⟩ := ho
  have hsizes := c.sizes
  have hunread := RingBuffer.push_unread_of_fits (xs := cru) hi (by omega)
  have havail : c.raw.kernel ≤ (e.rbi.push c.raw.rbLen cru).avail := by
    rw [← RingBuffer.unread_length c.raw.rbLen, hunread]
    exact hk
  have hsound := RingBuffer.push_sound cru hi
  rw [List.length_append, RingBuffer.unread_length, hcru] at hk
  rw [Engine.feed_of_kernel havail, ← hunread]
  refine ⟨pulled_kernel hsound hdry havail, rfl, rfl, ?_, ?_⟩
  · obtain ⟨-, -, -, hr, -, -⟩ := hsound
    exact (RingBuffer.unread_drop c.raw.kernel hr).symm
  · refine RingBuffer.push_unread_of_fits (rb := e.rbo) hso ?_
    rw [kernelProc_length, RingBuffer.pulled_length _ _ _ _ hdry]
    omega

/-! ### The kernel step by step -/

/-- An allpass stage with the instance's constants (R233, R237, R238). -/
abbrev AllpassStage (c : Config) (p y : List F64) : Prop :=
  y.length = p.length ∧
    ∀ i < p.length, at' y i = allpassFrame p y (samplesOf c c.raw.apDelayMs) c.raw.apDecay c.raw.apLook i

theorem allpassStage_allpass (c : Config) (p : List F64) :
    AllpassStage c p (allpass p (samplesOf c c.raw.apDelayMs) c.raw.apDecay c.raw.apLook) :=
  have h := allpass_upTo p (samplesOf c c.raw.apDelayMs) c.raw.apDecay c.raw.apLook
  ⟨h.length_eq, h.frame⟩

/-- The mix, the two stages and the normalisation of a kernel (R236 to R240). -/
theorem kernelProc_stages (c : Config) (P : Vector ParamReg 12) (dry : List F64) :
    ∃ mixed first second : List F64,
      mixed.length = dry.length ∧
      (∀ i < dry.length, at' mixed i =
        ((F64.one.sub (resolve P .reverbMix 0)).mul (at' dry i)).add
          ((resolve P .reverbMix 0).mul ((((at' ((combBank c P dry).getD 0 []) i).add
            (at' ((combBank c P dry).getD 1 []) i)).add (at' ((combBank c P dry).getD 2 []) i)).add
            (at' ((combBank c P dry).getD 3 []) i)))) ∧
      AllpassStage c mixed first ∧ AllpassStage c first second ∧
      kernelProc c P dry (combBank c P dry) = normalise second := by
  have hsum := combSum_length c P dry
  refine ⟨_, _, _, mixDry_length (resolve P .reverbMix 0) hsum, fun i hi => ?_, allpassStage_allpass c _,
    allpassStage_allpass c _, rfl⟩
  rw [at'_mixDry _ hi (hsum.symm ▸ hi), at'_combSum hi]

/-- Settles O58: the engine is fed CRU and then drained of a quantum, and a kernel, if it runs, is its stages. -/
theorem reverbQuantumFollowsRule : Obligations.ReverbQuantumFollowsRule := by
  intro s hring hocc hp hr
  refine ⟨rendered s, exec_render hp hr, ?_⟩
  intro len q now samples allpassed fed kernelRuns held
  have hcru := rendered_cru_length s
  have hsound : s.engine.Sound s.cfg.raw.rbLen := hring
  have hoccup : s.engine.Occupied s.cfg := hocc
  have hkernel := Engine.feed_unread_of_kernel (drain s).params hsound hoccup hcru
  have hnoKernel := Engine.feed_unread_of_no_kernel (drain s).params hsound hoccup hcru
  have hsound' : (renderedEngine s).Sound s.cfg.raw.rbLen := hsound.feed _ _
  obtain ⟨hdry, hcombs, hproc⟩ := rendered_kernelBuffers s
  have hheld : (renderedEngine s).rbo.unread len = held := by
    by_cases hk : kernelRuns
    · obtain ⟨-, -, -, -, hmoved⟩ := hkernel hk
      simp only [held, if_pos hk, hproc]
      exact hmoved
    · obtain ⟨-, hkept⟩ := hnoKernel (Nat.lt_of_not_le hk)
      simp only [held, if_neg hk, List.append_nil, renderedEngine, hkept]
      rfl
  refine ⟨fun hk => ?_, fun hk => ?_, ?_, ?_⟩
  · obtain ⟨hd, hc, hpr, hleft, -⟩ := hkernel hk
    have hlen : (renderedEngine s).dry.length = s.cfg.raw.kernel := (congrArg List.length hd).trans (List.length_take_of_le hk)
    rw [hdry, hcombs, hproc, rendered_rbi]
    refine ⟨hd, hc, hpr, hc, ?_, hleft⟩
    obtain ⟨mixed, first, second, hmixed, hmix, hfirst, hsecond, hnorm⟩ :=
      kernelProc_stages s.cfg (drain s).params (renderedEngine s).dry
    have hc' : (renderedEngine s).combs = combBank s.cfg (drain s).params (renderedEngine s).dry := hc
    rw [hlen] at hmixed hmix
    rw [← hc'] at hmix hnorm
    exact ⟨mixed, first, second, hmixed, hmix, hfirst, hsecond, hpr.trans hnorm⟩
  · obtain ⟨hjoined, -⟩ := hnoKernel (Nat.lt_of_not_le hk)
    rw [rendered_rbi]
    exact hjoined
  · rw [rendered_out, Engine.output_eq hsound'.2, hheld]
  · obtain ⟨-, -, -, hr', -, -⟩ := hsound'.2
    rw [rendered_rbo, ← RingBuffer.unread_drop _ hr', hheld]

end Sys2Proof.Machine
end
